-- ==== Sys2Proof/Word.lean ====
section
/-! DEFINITION. The element of every buffer: one byte, an unsigned value 0 to 255 (00_scope R5, 93 G1). -/

namespace Sys2Proof

/-- A byte: eight bits, bit 7 the most significant (00_scope R5 and section 6; log 13). -/
abbrev Byte := BitVec 8

end Sys2Proof
end

