-- ==== Sys2Proof/Machine/Results.lean ====
section
/-! DEFINITION. The results of commands (10_state R18, R19) and the two errors (60_exceptions R150), as symbolic types
(60_exceptions R158). -/

namespace Sys2Proof.Machine

/-- ENC_RESULT: `Ok(count)` or `Err(CapacityExceeded)`, which carries nothing (R18). -/
inductive EncResult where
  | ok (count : Nat)
  | capacityExceeded
  deriving DecidableEq, Repr, Inhabited

/-- The errors a DECODE can raise (60_exceptions R150). -/
inductive DecError where
  | capacityExceeded
  | invalidEscapeSequence
  deriving DecidableEq, Repr, Inhabited

/-- DEC_RESULT: four cases, each with `consumed` and `count` (R19). -/
inductive DecResult where
  | frameComplete (consumed count : Nat)
  | frameIncomplete (consumed count : Nat)
  | err (e : DecError) (consumed count : Nat)
  deriving DecidableEq, Repr, Inhabited

/-- The `consumed` field of a decode result (R19). -/
def DecResult.consumed : DecResult → Nat
  | .frameComplete c _ | .frameIncomplete c _ | .err _ c _ => c

/-- The `count` field of a decode result (R19). -/
def DecResult.count : DecResult → Nat
  | .frameComplete _ n | .frameIncomplete _ n | .err _ _ n => n

end Sys2Proof.Machine
end

