-- ==== Sys2Proof/Config.lean ====
section
/-! DEFINITION. The open parameters of 00_scope R6 and the free values for what the spec leaves unspecified
(10_state R24, 70 R171). The parameters are plain data, so that a statement holds for every value of them (log 7). -/

namespace Sys2Proof

/-- STATUS_ENC, the numbers a status port gives the kinds of results (60_exceptions R158, 92 D18): `Ok` and `FrameComplete`
each have one of their own, which may be the same number, as in D18's suggestion, or not. CapacityExceeded has one number for
both units, being one error (R150). Mark: DESIGN CHOICE (log 7). -/
structure Config.StatusEnc where
  ok : Nat
  frameComplete : Nat
  frameIncomplete : Nat
  capacityExceeded : Nat
  invalidEscapeSequence : Nat
  deriving DecidableEq, Repr

/-- The open parameters (00_scope R6): LEN_BITS (`none`: unbounded, as the rules keep it), XBAD_CONSUMES, STATUS_ENC. -/
structure Config.Params where
  lenBits : Option Nat
  xbadConsumes : Bool
  statusEnc : Config.StatusEnc
  deriving DecidableEq, Repr

/-- The parameters of this spec: unbounded lengths (D5), XBAD_CONSUMES false (D13, R99), the numbering R158 suggests. -/
def Config.specParams : Config.Params :=
  { lenBits := none
    xbadConsumes := false
    statusEnc :=
      { ok := 0, frameComplete := 0, frameIncomplete := 1, capacityExceeded := 2, invalidEscapeSequence := 3 } }

/-- N_DEC, the number of decoder instances after reset: "default 1" (00_scope R6, 92 D23). -/
def Config.nDec : Nat := 1

/-- Free value: the register `b` between commands (10_state R24; log 4). -/
opaque Config.freeByte : Nat → Byte

/-- Free value: the cursor `ei` or `di` between commands (10_state R24; log 4). -/
opaque Config.freeCursor : Nat → Nat

/-- Free value: the count `en` or `dn` between commands (10_state R24; log 4). -/
opaque Config.freeCount : Nat → Nat

/-- Free value: ENC_RESULT after a reset (10_state R24, 70 R171; log 4). -/
opaque Config.freeEncResult : Nat → Machine.EncResult

/-- Free value: DEC_RESULT after a reset or of a new instance (10_state R24, 70 R171; log 4, log 10). -/
opaque Config.freeDecResult : Nat → Machine.DecResult

/-- Free value: the byte at an index of an output window that a reset caught lent (70 R171; log 4). -/
opaque Config.freeOutput : Nat → Nat → Byte

end Sys2Proof
end

