-- ==== Sys2Proof/Syntax.lean ====
section
/-! DEFINITION. The operations of SLIP-CORE as syntax: one constructor of `Instr` per row of spec/opcode_table.json
(30_encoding R56 to R58, R64). -/

namespace Sys2Proof

/-- A window the host lends for one command: index `i` of the space is the byte at `base + i`, and the valid indices are
those below `len` (20_memory R31, R33, R37). For an output space `len` is the capacity `cap`. -/
structure Buffer where
  base : Nat
  len : Nat
  deriving DecidableEq, Repr, Inhabited

/-- The four commands with their arguments (43_host_protocol R130). -/
inductive Command where
  /-- ENCODE: PAYLOAD and ENC_OUT (R70). -/
  | encode (payload encOut : Buffer)
  /-- DECODE on an instance: CHUNK and DEC_OUT (R90). -/
  | decode (instNo : Nat) (chunk decOut : Buffer)
  /-- DRESET of an instance (R120). -/
  | dreset (instNo : Nat)
  /-- DNEW (R121): without operand it makes one more instance; with one it creates that instance again. -/
  | dnew (target : Option Nat)
  deriving DecidableEq, Repr

/-- The operations. A decoder's byte operation carries the instance it runs on ("a command names its instance by being
issued to it", 60_exceptions R162); E.LIT, D.LIT and D.XBAD carry their byte (30_encoding R54). -/
inductive Instr where
  | eLit (v : Byte)
  | eEnd
  | eEsc
  | eFin
  | dLit (instNo : Nat) (v : Byte)
  | dEnd (instNo : Nat)
  | dEsc (instNo : Nat)
  | dXend (instNo : Nat)
  | dXesc (instNo : Nat)
  | dXbad (instNo : Nat) (v : Byte)
  | dEoc (instNo : Nat)
  | encode (payload encOut : Buffer)
  | decode (instNo : Nat) (chunk decOut : Buffer)
  | dreset (instNo : Nat)
  | dnew (target : Option Nat)
  deriving DecidableEq, Repr

/-- The names of the rows of spec/opcode_table.json (30_encoding R64). -/
inductive Op where
  | E_LIT | E_END | E_ESC | E_FIN
  | D_LIT | D_END | D_ESC | D_XEND | D_XESC | D_XBAD | D_EOC
  | ENCODE | DECODE | DRESET | DNEW
  deriving DecidableEq, Repr

/-- The row an operation belongs to. -/
def Instr.op : Instr → Op
  | .eLit _ => .E_LIT
  | .eEnd => .E_END
  | .eEsc => .E_ESC
  | .eFin => .E_FIN
  | .dLit _ _ => .D_LIT
  | .dEnd _ => .D_END
  | .dEsc _ => .D_ESC
  | .dXend _ => .D_XEND
  | .dXesc _ => .D_XESC
  | .dXbad _ _ => .D_XBAD
  | .dEoc _ => .D_EOC
  | .encode _ _ => .ENCODE
  | .decode _ _ _ => .DECODE
  | .dreset _ => .DRESET
  | .dnew _ => .DNEW

/-- The operation a command is (R70, R90, R120, R121). -/
def Command.toInstr : Command → Instr
  | .encode p o => .encode p o
  | .decode k c o => .decode k c o
  | .dreset k => .dreset k
  | .dnew t => .dnew t

end Sys2Proof
end

