-- ==== Sys2Proof/Machine/Memory.lean ====
section
/-! DEFINITION. The host's memory, in which every buffer lies (20_memory R30 to R32): bytes at natural addresses, as a
sorted list that lists no byte equal to what an unlisted address reads as. -/

namespace Sys2Proof.Machine

/-- The bytes of the host's buffers: (address, byte) pairs. -/
abbrev Memory := List Host.Cell

/-- What an address that is not listed reads as. The spec leaves buffer contents to the host (10_state R24, 20_memory R32).
Mark: DESIGN CHOICE, unsafe (log 3). -/
def Memory.unlisted : Byte := 0x00#8

/-- The byte at an address (20_memory R31). -/
def Memory.read : Memory → Nat → Byte
  | [], _ => Memory.unlisted
  | (k, w) :: rest, a => if k = a then w else Memory.read rest a

/-- Store a byte at an address and keep the list's form. -/
def Memory.write : Memory → Nat → Byte → Memory
  | [], a, v => if v = Memory.unlisted then [] else [(a, v)]
  | (k, w) :: rest, a, v =>
    if a < k then (if v = Memory.unlisted then (k, w) :: rest else (a, v) :: (k, w) :: rest)
    else if a = k then (if v = Memory.unlisted then rest else (a, v) :: rest)
    else (k, w) :: Memory.write rest a v

/-- Every listed address is at least `lo`, addresses strictly rise, and no entry is what an unlisted address reads as. -/
def Memory.wfFrom : Nat → Memory → Bool
  | _, [] => true
  | lo, (k, w) :: rest => decide (lo ≤ k) && w != Memory.unlisted && Memory.wfFrom (k + 1) rest

/-- The canonical form: equal memories are equal lists. -/
def Memory.wf (m : Memory) : Bool := Memory.wfFrom 0 m

/-- The `n` bytes from address `a` upwards. -/
def Memory.slice (m : Memory) (a : Nat) : Nat → List Byte
  | 0 => []
  | n + 1 => m.read a :: Memory.slice m (a + 1) n

/-- Store a sequence of bytes from address `a` upwards (a host filling a buffer, 70 R173). -/
def Memory.fill : Memory → Nat → List Byte → Memory
  | m, _, [] => m
  | m, a, v :: vs => Memory.fill (m.write a v) (a + 1) vs

/-- Whether address `a` is a byte of the window (20_memory R31). -/
def holds (b : Buffer) (a : Nat) : Bool := decide (b.base ≤ a) && decide (a < b.base + b.len)

/-- `MemRead(SPACE:i, 1)`: "base of the space plus cursor" (20_memory R33). -/
def memRead (m : Memory) (space : Buffer) (i : Nat) : Byte := m.read (space.base + i)

/-- `MemWrite(SPACE:i, 1, v)` (20_memory R34). -/
def memWrite (m : Memory) (space : Buffer) (i : Nat) (v : Byte) : Memory := m.write (space.base + i) v

end Sys2Proof.Machine
end

