-- ==== Sys2Proof/Machine/State.lean ====
section
/-! DEFINITION. The state of SLIP-CORE (10_state, 00_scope R8), its reset value (10_state R24, 70 R170), and the reasons a
run can have no meaning. -/

namespace Sys2Proof.Machine

/-- There is no fault: "Nothing in the block maps to `fault` or `stuck`" (93 section 2), "there is no undefined behaviour"
(60_exceptions R164). Nothing raises one; the type has no constructor. -/
inductive Fault : Type
  deriving DecidableEq, Repr

/-- Why a step has no meaning. All but the first are what the host is forbidden to do (93 U4, U5: `refuse`) or a byte
operation executed where the maps R56, R57 do not select it. Each is safe: the run stops. -/
inductive Refusal where
  /-- Raised by `exec` for an instruction that has no meaning yet; safe. -/
  | notModelled (mnemonic : String)
  /-- Raised by a command issued to a unit that runs one already (20_memory R42, 70 R177, 42 R120); safe. -/
  | unitBusy
  /-- Raised by a command that names a decoder instance that does not exist (10_state R23); safe. -/
  | noSuchInstance
  /-- Raised by a command whose lengths or capacities do not fit LEN_BITS (00_scope R6, 93 U5); safe. -/
  | lengthsDoNotFit
  /-- Raised by a command whose windows share a byte with each other or with a window lent to a command in progress
  (20_memory R44, 70 R176); safe. -/
  | buffersOverlap
  /-- Raised by a byte operation executed where its unit runs no command, or where the cursor, `esc` or its byte do not
  select it (10_state R14, 30_encoding R56, R57); safe. No step raises it. -/
  | notSelected
  /-- Raised by a host write to a window lent to a command in progress (70 R175); safe. -/
  | lentBufferTouched
  /-- Raised by DECODE_ALL, a sequence of the host's, where its loop would not end, which takes a capacity of 0 (43 R134,
  "cap >= 1 required"; 70 R184; log 15); safe. No step raises it. -/
  | noProgress
  deriving DecidableEq, Repr

/-- The arguments of an ENCODE in progress (00_scope R8): PAYLOAD with its length, ENC_OUT with its capacity. -/
structure EncCall where
  payload : Buffer
  encOut : Buffer
  deriving DecidableEq, Repr

/-- The arguments of a DECODE in progress (00_scope R8): CHUNK with its length, DEC_OUT with its capacity. -/
structure DecCall where
  chunk : Buffer
  decOut : Buffer
  deriving DecidableEq, Repr

/-- The Encoder unit (10_state R14, R15, R18): the command in progress, the working registers `b`, `ei`, `en`, and
ENC_RESULT. -/
structure Encoder where
  call : Option EncCall
  b : Byte
  ei : Nat
  en : Nat
  result : EncResult
  deriving DecidableEq, Repr

/-- One decoder instance (10_state R12, R14, R16, R19): the escape bit (`false` is 0, Idle; `true` is 1, InEscape), the
command in progress, the working registers `b`, `di`, `dn`, and DEC_RESULT. -/
structure Decoder where
  esc : Bool
  call : Option DecCall
  b : Byte
  di : Nat
  dn : Nat
  result : DecResult
  deriving DecidableEq, Repr

/-- The units that run commands (00_scope R7). -/
inductive Engine where
  | encoder
  | decoder (instNo : Nat)
  deriving DecidableEq, Repr

/-- What the host can do (43_host_protocol R130; 70 R170, R173). -/
inductive HostAction where
  /-- Issue a command and wait for it: one atomic transition (00_scope R7). -/
  | issue (c : Command)
  /-- Issue a command that then runs byte step by byte step, while commands of other units may run (20_memory R42). -/
  | start (c : Command)
  /-- Let one unit make its next byte step. -/
  | tick (e : Engine)
  /-- Put a byte into a buffer of the host's (20_memory R32, 70 R173). -/
  | store (a : Nat) (v : Byte)
  /-- Hardware reset (70 R170, R171). -/
  | reset
  deriving DecidableEq, Repr

/-- The machine's state. `params`, `enc`, `decs` and `mem` are the spec's; `draws` counts the free values drawn (log 4) and
`host` is what the host is about to do (log 6). -/
structure State where
  params : Config.Params
  enc : Encoder
  decs : List Decoder
  mem : Memory
  draws : Nat
  host : List HostAction
  deriving DecidableEq, Repr

/-- The Encoder after reset. The values are the model's (log 1, log 2). -/
def Encoder.reset : Encoder :=
  { call := none, b := 0x00#8, ei := 0, en := 0, result := .ok 0 }

/-- A decoder instance after reset: `esc = 0` (10_state R24). The other values are the model's (log 1, log 2). -/
def Decoder.reset : Decoder :=
  { esc := false, call := none, b := 0x00#8, di := 0, dn := 0, result := .frameIncomplete 0 0 }

/-- The machine right after reset, for given parameters and number of instances (10_state R24, 70 R170). -/
def State.resetWith (p : Config.Params) (nDec : Nat) : State :=
  { params := p, enc := Encoder.reset, decs := List.replicate nDec Decoder.reset, mem := [], draws := 0, host := [] }

/-- The machine right after reset, with this spec's parameters and its default of one instance (00_scope R6). -/
def State.reset : State := State.resetWith Config.specParams Config.nDec

end Sys2Proof.Machine
end

