-- ==== Sys2Proof/Machine/Flags.lean ====
section
/-! DEFINITION. The one flag, `esc` (10_state R13), and the numbers of a status port (60_exceptions R158). -/

namespace Sys2Proof.Machine

/-- `esc <- 1`, written by D.ESC only (10_state R13). -/
def setEsc (d : Decoder) : Decoder := { d with esc := true }

/-- `esc <- 0`, written by D.XEND, D.XESC, D.XBAD, DRESET and DNEW (10_state R13). -/
def clearEsc (d : Decoder) : Decoder := { d with esc := false }

/-- What a status port shows of an ENC_RESULT under a numbering (60_exceptions R158). -/
def encStatus (c : Config.StatusEnc) : EncResult → Nat
  | .ok _ => c.ok
  | .capacityExceeded => c.capacityExceeded

/-- What a status port shows of a DEC_RESULT under a numbering (60_exceptions R158). -/
def decStatus (c : Config.StatusEnc) : DecResult → Nat
  | .frameComplete _ _ => c.frameComplete
  | .frameIncomplete _ _ => c.frameIncomplete
  | .err .capacityExceeded _ _ => c.capacityExceeded
  | .err .invalidEscapeSequence _ _ => c.invalidEscapeSequence

/-- A numbering a realisation may choose: "any one-to-one numbering" (60_exceptions R158). No two kinds share a number, but
`Ok` and `FrameComplete`, results of different units, may. Mark: DESIGN CHOICE, for what is one-to-one (log 7). -/
def oneToOne (c : Config.StatusEnc) : Bool :=
  decide [c.frameComplete, c.frameIncomplete, c.capacityExceeded, c.invalidEscapeSequence].Nodup &&
    decide (c.ok ∉ [c.frameIncomplete, c.capacityExceeded, c.invalidEscapeSequence])

end Sys2Proof.Machine
end

