-- ==== Sys2Proof/Machine/Markers.lean ====
section
/-! DEFINITION. The frame marker set: four hardwired bytes (10_state R10, R11). They are no parameters (00_scope R4). -/

namespace Sys2Proof

/-- END "marks frame boundaries" (R10). -/
abbrev END : Byte := 0xC0#8

/-- ESC "introduces an escaped sequence" (R10). -/
abbrev ESC : Byte := 0xDB#8

/-- ESC_END is the "escaped representation of a literal END byte" (R10). -/
abbrev ESC_END : Byte := 0xDC#8

/-- ESC_ESC is the "escaped representation of a literal ESC byte" (R10). -/
abbrev ESC_ESC : Byte := 0xDD#8

end Sys2Proof
end

