-- ==== Sys2Proof/WellFormed.lean ====
section
/-! DEFINITION. Which operations are well formed as syntax: the operand values 30_encoding R56 and R57 give each byte
operation, and the disjoint windows 20_memory R44 asks of a command. -/

namespace Sys2Proof

/-- Two windows share a byte (20_memory R44). A window of length 0 shares none. -/
def Buffer.sharesByte (a b : Buffer) : Bool :=
  decide (max a.base b.base < min (a.base + a.len) (b.base + b.len))

/-- `v` is a value E.LIT and D.LIT copy: any but END and ESC (R56, R57). -/
def isPlain (v : Byte) : Bool := v != END && v != ESC

/-- `v` is a value D.XBAD takes: any but ESC_END and ESC_ESC (R57, R59). -/
def isBadSecond (v : Byte) : Bool := v != ESC_END && v != ESC_ESC

/-- Well-formed operations. -/
def Instr.wf : Instr → Bool
  | .eLit v => isPlain v
  | .dLit _ v => isPlain v
  | .dXbad _ v => isBadSecond v
  | .encode p o => !p.sharesByte o
  | .decode _ c o => !c.sharesByte o
  | .eEnd | .eEsc | .eFin => true
  | .dEnd _ | .dEsc _ | .dXend _ | .dXesc _ | .dEoc _ => true
  | .dreset _ | .dnew _ => true

end Sys2Proof
end

