-- ==== Sys2Proof/Machine/Operands.lean ====
section
/-! DEFINITION. The operands of operations: the byte of a byte operation (30_encoding R54) and the windows of a command,
with what the host must keep for the command to have a meaning (00_scope R6, 20_memory R44, 70 R176, R177). -/

namespace Sys2Proof.Machine

/-- The windows lent to an ENCODE in progress. -/
def encLent (e : Encoder) : List Buffer :=
  match e.call with
  | none => []
  | some c => [c.payload, c.encOut]

/-- The windows lent to a DECODE in progress. -/
def decLent (d : Decoder) : List Buffer :=
  match d.call with
  | none => []
  | some c => [c.chunk, c.decOut]

/-- All windows lent to commands in progress (70 R175, R176). -/
def lent (s : State) : List Buffer := encLent s.enc ++ s.decs.flatMap decLent

/-- A length or capacity fits the realisation's counters: less than `2^LEN_BITS` (00_scope R6). -/
def fits (p : Config.Params) (n : Nat) : Bool :=
  match p.lenBits with
  | none => true
  | some k => decide (n < 2 ^ k)

/-- The windows of a new command share no byte with each other or with a lent window (20_memory R44, 70 R176). -/
def disjointWindows (input output : Buffer) (s : State) : Bool :=
  !input.sharesByte output && (lent s).all fun b => !b.sharesByte input && !b.sharesByte output

/-- Why a command with an input and an output window has no meaning for a unit, if it has none. -/
def objection (running : Bool) (input output : Buffer) (s : State) : Option Refusal :=
  if running then some .unitBusy
  else if !(fits s.params input.len && fits s.params output.len) then some .lengthsDoNotFit
  else if !disjointWindows input output s then some .buffersOverlap
  else none

end Sys2Proof.Machine
end

