-- ==== Sys2Proof/Machine/Ops.lean ====
section
/-! DEFINITION. The operations the meanings share: the write primitives `emit` (40_encoder R72) and `demit` (41_decoder
R93), raising an error (60_exceptions R157), how a byte operation meets its unit, starting and ending a command, making an
instance afresh (42_control R121), and hardware reset (70 R170, R171). -/

namespace Sys2Proof.Machine

/-- What a step answers. -/
abbrev Result := Host.Outcome State Fault Refusal

/-- How an ENCODE goes on after an action: with the unit and memory as they then are, or ended with its result. -/
inductive EncFlow where
  | goOn (e : Encoder) (m : Memory)
  | ended (r : EncResult) (m : Memory)
  deriving DecidableEq, Repr

/-- How a DECODE goes on after an action; a command that ends leaves `esc` behind. -/
inductive DecFlow where
  | goOn (d : Decoder) (m : Memory)
  | ended (r : DecResult) (esc : Bool) (m : Memory)
  deriving DecidableEq, Repr

/-- Do the next action if the command goes on. -/
def EncFlow.andThen : EncFlow → (Encoder → Memory → EncFlow) → EncFlow
  | .goOn e m, f => f e m
  | .ended r m, _ => .ended r m

/-- Do the next action if the command goes on. -/
def DecFlow.andThen : DecFlow → (Decoder → Memory → DecFlow) → DecFlow
  | .goOn d m, f => f d m
  | .ended r esc m, _ => .ended r esc m

/-- Raise ENCODE's one error: the command ends and the error is its result, with no count (60_exceptions R151, R157). -/
def raiseEnc (m : Memory) : EncFlow := .ended .capacityExceeded m

/-- Raise an error of DECODE: the command ends, the error with `consumed = di` and `count = dn` is its result, and `esc` is
as the raising operation left it (60_exceptions R152, R153, R157). -/
def raiseDec (err : DecError) (d : Decoder) (m : Memory) : DecFlow := .ended (.err err d.di d.dn) d.esc m

/-- `emit(v)` (40_encoder R72). -/
def emit (encOut : Buffer) (v : Byte) (e : Encoder) (m : Memory) : EncFlow :=
  if e.en ≥ encOut.len then raiseEnc m
  else .goOn { e with en := e.en + 1 } (memWrite m encOut e.en v)

/-- `demit(v)` (41_decoder R93). -/
def demit (decOut : Buffer) (v : Byte) (d : Decoder) (m : Memory) : DecFlow :=
  if d.dn ≥ decOut.len then raiseDec .capacityExceeded d m
  else .goOn { d with dn := d.dn + 1 } (memWrite m decOut d.dn v)

/-- `ei <- ei + 1` (10_state R15). -/
def stepEi (e : Encoder) (m : Memory) : EncFlow := .goOn { e with ei := e.ei + 1 } m

/-- `di <- di + 1` (10_state R16). -/
def stepDi (d : Decoder) (m : Memory) : DecFlow := .goOn { d with di := d.di + 1 } m

/-- The Encoder when no command runs: ENC_RESULT holds the result, the working registers hold anything (10_state R18,
R24; log 4). -/
def encIdle (draw : Nat) (r : EncResult) : Encoder :=
  { call := none, b := Config.freeByte draw, ei := Config.freeCursor draw, en := Config.freeCount draw, result := r }

/-- A decoder instance when no command runs: `esc` persists, DEC_RESULT holds the result, the working registers hold
anything (10_state R13, R19, R24; log 4). -/
def decIdle (draw : Nat) (esc : Bool) (r : DecResult) : Decoder :=
  { esc := esc, call := none, b := Config.freeByte draw, di := Config.freeCursor draw, dn := Config.freeCount draw,
    result := r }

/-- A decoder instance made afresh, by DNEW or hardware reset: `esc = 0` and all else unspecified (10_state R24, 42 R121). -/
def decFresh (draw : Nat) : Decoder := decIdle draw false (Config.freeDecResult draw)

/-- Put back what an action made of the Encoder. -/
def putEnc (f : EncFlow) (s : State) : State :=
  match f with
  | .goOn e m => { s with enc := e, mem := m }
  | .ended r m => { s with enc := encIdle s.draws r, mem := m, draws := s.draws + 1 }

/-- Put back what an action made of instance `k`; no other instance changes (10_state R23). -/
def putDec (k : Nat) (f : DecFlow) (s : State) : State :=
  match f with
  | .goOn d m => { s with decs := s.decs.set k d, mem := m }
  | .ended r esc m => { s with decs := s.decs.set k (decIdle s.draws esc r), mem := m, draws := s.draws + 1 }

/-- A byte operation of the Encoder on payload byte `v`, which becomes `b`: it needs an ENCODE in progress with a byte at
`ei`, and `ok`, that `v` is a value of the operation (30_encoding R56, 40_encoder R70). -/
def onPayloadByte (ok : Bool) (v : Byte) (body : Buffer → Encoder → Memory → EncFlow) (s : State) : Result :=
  match s.enc.call with
  | none => .refused .notSelected
  | some c =>
    if ok && decide (s.enc.ei < c.payload.len) then .next (putEnc (body c.encOut { s.enc with b := v } s.mem) s)
    else .refused .notSelected

/-- The end-of-payload event: it needs an ENCODE in progress with no byte left (30_encoding R53, 40_encoder R76). -/
def onPayloadEnd (body : Buffer → Encoder → Memory → EncFlow) (s : State) : Result :=
  match s.enc.call with
  | none => .refused .notSelected
  | some c =>
    if c.payload.len ≤ s.enc.ei then .next (putEnc (body c.encOut s.enc s.mem) s)
    else .refused .notSelected

/-- A byte operation of instance `k` on wire byte `v`, which becomes `b`: it needs a DECODE in progress with a byte at `di`,
`esc` as the operation's format has it, and `ok`, that `v` is a value of the operation (30_encoding R57, 41_decoder R90). -/
def onWireByte (k : Nat) (esc ok : Bool) (v : Byte) (body : Buffer → Decoder → Memory → DecFlow) (s : State) : Result :=
  match s.decs[k]? with
  | none => .refused .noSuchInstance
  | some d =>
    match d.call with
    | none => .refused .notSelected
    | some c =>
      if ok && d.esc == esc && decide (d.di < c.chunk.len) then
        .next (putDec k (body c.decOut { d with b := v } s.mem) s)
      else .refused .notSelected

/-- The end-of-chunk event of instance `k`: it needs a DECODE in progress with no byte left (30_encoding R53, 41 R100). -/
def onChunkEnd (k : Nat) (body : Decoder → Memory → DecFlow) (s : State) : Result :=
  match s.decs[k]? with
  | none => .refused .noSuchInstance
  | some d =>
    match d.call with
    | none => .refused .notSelected
    | some c =>
      if c.chunk.len ≤ d.di then .next (putDec k (body d s.mem) s)
      else .refused .notSelected

/-- The Encoder with an ENCODE begun: `ei <- 0 ; en <- 0` (40_encoder R70). -/
def encBegun (payload encOut : Buffer) (e : Encoder) : Encoder :=
  { e with call := some ⟨payload, encOut⟩, ei := 0, en := 0 }

/-- An instance with a DECODE begun: `di <- 0 ; dn <- 0` (41_decoder R90). -/
def decBegun (chunk decOut : Buffer) (d : Decoder) : Decoder :=
  { d with call := some ⟨chunk, decOut⟩, di := 0, dn := 0 }

/-- Begin an ENCODE on the Encoder and go on with it as `go` says, unless the host's duties are broken (70 R176, R177). -/
def onEncoder (payload encOut : Buffer) (go : Encoder → Memory → EncFlow) (s : State) : Result :=
  match objection s.enc.call.isSome payload encOut s with
  | some r => .refused r
  | none => .next (putEnc (go (encBegun payload encOut s.enc) s.mem) s)

/-- Begin a DECODE on instance `k` and go on with it as `go` says, unless the host breaks a duty that shows in this command:
overlapping windows, a busy instance (70 R176, R177). A chunk out of arrival order, or of another stream, shows nowhere, and
is decoded as given ("the block decodes whatever sequence it is given", 43 R131, 90 C7; 70 R182), although 93 U4 lists
such a run under `refuse`. Mark: DESIGN CHOICE (log 14). -/
def onDecoder (k : Nat) (chunk decOut : Buffer) (go : Decoder → Memory → DecFlow) (s : State) : Result :=
  match s.decs[k]? with
  | none => .refused .noSuchInstance
  | some d =>
    match objection d.call.isSome chunk decOut s with
    | some r => .refused r
    | none => .next (putDec k (go (decBegun chunk decOut d) s.mem) s)

/-- A control operation on instance `k` between its commands (42_control R120, 20_memory R42). -/
def onIdleInstance (k : Nat) (go : Decoder → State) (s : State) : Result :=
  match s.decs[k]? with
  | none => .refused .noSuchInstance
  | some d => if d.call.isSome then .refused .unitBusy else .next (go d)

/-- `esc <- 0` of instance `k` between its commands, and nothing else: what DRESET does, and DNEW on an existing instance
(42_control R120, R121; 92 D20). -/
def resetInstance (k : Nat) (s : State) : Result :=
  onIdleInstance k (fun d => { s with decs := s.decs.set k (clearEsc d) }) s

/-- Any values in the `n` bytes of a window from address `a` (70 R171). -/
def scramble (draw : Nat) (m : Memory) (a : Nat) : Nat → Memory
  | 0 => m
  | n + 1 => scramble draw (m.write a (Config.freeOutput draw a)) (a + 1) n

/-- The output window of an abandoned ENCODE "may hold any values" (70 R171). -/
def abandonEnc (draw : Nat) (e : Encoder) (m : Memory) : Memory :=
  match e.call with
  | none => m
  | some c => scramble draw m c.encOut.base c.encOut.len

/-- The output window of an abandoned DECODE "may hold any values" (70 R171). -/
def abandonDec (draw : Nat) (d : Decoder) (m : Memory) : Memory :=
  match d.call with
  | none => m
  | some c => scramble draw m c.decOut.base c.decOut.len

/-- Every DECODE in progress is abandoned, instance by instance. -/
def abandonDecs : Nat → List Decoder → Memory → Memory
  | _, [], m => m
  | draw, d :: ds, m => abandonDecs (draw + 1) ds (abandonDec draw d m)

/-- Every instance is made afresh. -/
def freshDecs : Nat → List Decoder → List Decoder
  | _, [] => []
  | draw, _ :: ds => decFresh draw :: freshDecs (draw + 1) ds

/-- Hardware reset: commands in progress are abandoned without a result, every instance is as DNEW makes it, the results
and working registers are unspecified, and no buffer changes but a lent output (70 R170, R171, 10_state R24). -/
def hardReset (s : State) : State :=
  { s with
    enc := encIdle s.draws (Config.freeEncResult s.draws)
    decs := freshDecs (s.draws + 1) s.decs
    mem := abandonDecs (s.draws + 1) s.decs (abandonEnc s.draws s.enc s.mem)
    draws := s.draws + 1 + s.decs.length }

end Sys2Proof.Machine
end

