-- ==== Sys2Proof/Machine/Control.lean ====
section
/-! DEFINITION. The control family: DRESET and DNEW (42_control). -/

namespace Sys2Proof.Machine

/-- DRESET: `esc <- 0` of the instance and nothing else (R120). -/
def execDreset (k : Nat) (s : State) : Result :=
  resetInstance k s

/-- DNEW (R121). Without operand it makes one more instance, whose DEC_RESULT is unspecified until its first DECODE ends. On
an existing instance it "has the same effect as DRESET" (log 10). -/
def execDnew (target : Option Nat) (s : State) : Result :=
  match target with
  | none => .next { s with decs := s.decs ++ [decFresh s.draws], draws := s.draws + 1 }
  | some k => resetInstance k s

end Sys2Proof.Machine
end

