-- ==== Sys2Proof/Decode.lean ====
section
/-! DEFINITION. The block's only encodings: what selects an operation (30_encoding R52, R53), the maps R56 and R57 as
the decoder, the encoder back, and spec/opcode_table.json as data with its reading rule R58. Decoding is total and rejects
nothing: "The map is total" (R57), "There are no reserved values" (R61). -/

namespace Sys2Proof

/-- What selects an operation: a payload byte; a wire byte with the instance's `esc` as it stands before the step; the end
of a payload or of a chunk (the two events of R53); or a command, which is a call and has no bits (R53). -/
inductive Selector where
  | payload8 (v : Byte)
  | wire8 (instNo : Nat) (esc : Bool) (v : Byte)
  | endOfPayload
  | endOfChunk (instNo : Nat)
  | call (c : Command)
  deriving DecidableEq, Repr

/-- The encoder map, R56: "escaping is purely a function of the current byte's value". -/
def decodePayload8 (v : Byte) : Instr :=
  if v = END then .eEnd
  else if v = ESC then .eEsc
  else .eLit v

/-- The decoder map, R57: on `v` and on `esc` as it stands before the step. -/
def decodeWire8 (k : Nat) (esc : Bool) (v : Byte) : Instr :=
  if esc then
    if v = ESC_END then .dXend k
    else if v = ESC_ESC then .dXesc k
    else .dXbad k v
  else
    if v = END then .dEnd k
    else if v = ESC then .dEsc k
    else .dLit k v

/-- The operation a selector selects (R53, R56, R57). -/
def decodeOp : Selector → Instr
  | .payload8 v => decodePayload8 v
  | .wire8 k esc v => decodeWire8 k esc v
  | .endOfPayload => .eFin
  | .endOfChunk k => .dEoc k
  | .call c => c.toInstr

/-- The selector of an operation, from the same maps read backwards (R53, R56, R57). -/
def encodeOp : Instr → Selector
  | .eLit v => .payload8 v
  | .eEnd => .payload8 0b11000000#8
  | .eEsc => .payload8 0b11011011#8
  | .eFin => .endOfPayload
  | .dLit k v => .wire8 k false v
  | .dEnd k => .wire8 k false 0b11000000#8
  | .dEsc k => .wire8 k false 0b11011011#8
  | .dXend k => .wire8 k true 0b11011100#8
  | .dXesc k => .wire8 k true 0b11011101#8
  | .dXbad k v => .wire8 k true v
  | .dEoc k => .endOfChunk k
  | .encode p o => .call (.encode p o)
  | .decode k c o => .call (.decode k c o)
  | .dreset k => .call (.dreset k)
  | .dnew t => .call (.dnew t)

/-- The encoder's decoder on the bytes still to come: the operation and the bytes after it (R56; no byte left is the
end-of-payload event, R53). -/
def decodePayloadBytes : List Byte → Instr × List Byte
  | [] => (decodeOp .endOfPayload, [])
  | v :: rest => (decodeOp (.payload8 v), rest)

/-- An instance's decoder on the bytes still to come (R57; no byte left is the end-of-chunk event, R53). -/
def decodeWireBytes (k : Nat) (esc : Bool) : List Byte → Instr × List Byte
  | [] => (decodeOp (.endOfChunk k), [])
  | v :: rest => (decodeOp (.wire8 k esc v), rest)

/-- The formats of spec/opcode_table.json (R58). -/
inductive Format where
  | payload8 | wire8esc0 | wire8esc1 | event | cmd
  deriving DecidableEq, Repr

/-- A row of spec/opcode_table.json that carries bits. -/
structure Row where
  op : Op
  format : Format
  pattern : Byte
  mask : Byte
  priority : Nat
  deriving DecidableEq, Repr

/-- The nine byte rows of spec/opcode_table.json, in its order. -/
def opcodeTable : List Row :=
  [ ⟨.E_END, .payload8, 0xC0#8, 0xFF#8, 0⟩,
    ⟨.E_ESC, .payload8, 0xDB#8, 0xFF#8, 0⟩,
    ⟨.E_LIT, .payload8, 0x00#8, 0x00#8, 1⟩,
    ⟨.D_END, .wire8esc0, 0xC0#8, 0xFF#8, 0⟩,
    ⟨.D_ESC, .wire8esc0, 0xDB#8, 0xFF#8, 0⟩,
    ⟨.D_LIT, .wire8esc0, 0x00#8, 0x00#8, 1⟩,
    ⟨.D_XEND, .wire8esc1, 0xDC#8, 0xFF#8, 0⟩,
    ⟨.D_XESC, .wire8esc1, 0xDD#8, 0xFF#8, 0⟩,
    ⟨.D_XBAD, .wire8esc1, 0x00#8, 0x00#8, 1⟩ ]

/-- The rows with no bits: the two events and the four commands (R53, R58). -/
def bitlessRows : List (Op × Format) :=
  [ (.E_FIN, .event), (.D_EOC, .event),
    (.ENCODE, .cmd), (.DECODE, .cmd), (.DRESET, .cmd), (.DNEW, .cmd) ]

/-- "a byte `v` selects a row when `(v AND mask) = match`" (R58). -/
def Row.selects (r : Row) (v : Byte) : Bool := v &&& r.mask == r.pattern

/-- The table's reading rule: "take the priority-0 row that matches, else the priority-1 row" (R58). -/
def tableRow (f : Format) (v : Byte) : Option Row :=
  let rows := opcodeTable.filter fun r => r.format == f && r.selects v
  match rows.find? (·.priority == 0) with
  | some r => some r
  | none => rows.find? (·.priority == 1)

/-- The format of a selector. -/
def Selector.format : Selector → Format
  | .payload8 _ => .payload8
  | .wire8 _ false _ => .wire8esc0
  | .wire8 _ true _ => .wire8esc1
  | .endOfPayload | .endOfChunk _ => .event
  | .call _ => .cmd

/-- A table word without its format, as the host asks about rows. The table's rows share their bits between formats (0xC0 is
E.END, D.END or D.XBAD), and a word carries no format, so the first row in the table's order is meant, exact rows before
default rows; no bits at all is the table's first bitless row, the end of a payload. Mark: DESIGN CHOICE (log 11). -/
def tableSelector (nbits w : Nat) : Selector :=
  if nbits = 0 then .endOfPayload
  else
    let v : Byte := BitVec.ofNat 8 w
    if v = ESC_END ∨ v = ESC_ESC then .wire8 0 true v else .payload8 v

/-- The operation the model's decoder reads from a table word (log 11). -/
def decodeTableWord (nbits w : Nat) : Option Instr :=
  if 8 < nbits ∨ 2 ^ 8 ≤ w then none else some (decodeOp (tableSelector nbits w))

end Sys2Proof
end

