-- ==== Sys2Proof/Machine/Decoder.lean ====
section
/-! DEFINITION. The decoder family: D.LIT, D.END, D.ESC, D.XEND, D.XESC, D.XBAD, D.EOC and DECODE (41_decoder). -/

namespace Sys2Proof.Machine

/-- D.LIT: `demit(b)`, `di <- di + 1` (R94). -/
def dLitBody (decOut : Buffer) (d : Decoder) (m : Memory) : DecFlow :=
  (demit decOut d.b d m).andThen stepDi

/-- D.END: `di <- di + 1`, and DECODE returns `FrameComplete(di, dn)` (R95). -/
def dEndBody (_decOut : Buffer) (d : Decoder) (m : Memory) : DecFlow :=
  (stepDi d m).andThen fun d m => .ended (.frameComplete d.di d.dn) d.esc m

/-- D.ESC: `esc <- 1`, `di <- di + 1` (R96). -/
def dEscBody (_decOut : Buffer) (d : Decoder) (m : Memory) : DecFlow :=
  stepDi (setEsc d) m

/-- D.XEND: `demit(END)`, `esc <- 0`, `di <- di + 1` (R97). -/
def dXendBody (decOut : Buffer) (d : Decoder) (m : Memory) : DecFlow :=
  (demit decOut END d m).andThen fun d m => stepDi (clearEsc d) m

/-- D.XESC: `demit(ESC)`, `esc <- 0`, `di <- di + 1` (R98). -/
def dXescBody (decOut : Buffer) (d : Decoder) (m : Memory) : DecFlow :=
  (demit decOut ESC d m).andThen fun d m => stepDi (clearEsc d) m

/-- D.XBAD: `esc <- 0`, then the error; with XBAD_CONSUMES, `di <- di + 1` before raising (R99). -/
def dXbadBody (xbadConsumes : Bool) (_decOut : Buffer) (d : Decoder) (m : Memory) : DecFlow :=
  if xbadConsumes then (stepDi (clearEsc d) m).andThen (raiseDec .invalidEscapeSequence)
  else raiseDec .invalidEscapeSequence (clearEsc d) m

/-- D.EOC: DECODE returns `FrameIncomplete(di, dn)`; `esc` is unchanged (R100). -/
def dEocBody (d : Decoder) (m : Memory) : DecFlow := .ended (.frameIncomplete d.di d.dn) d.esc m

/-- D.LIT (R94). -/
def execDLit (k : Nat) (v : Byte) (s : State) : Result := onWireByte k false (isPlain v) v dLitBody s

/-- D.END (R95). -/
def execDEnd (k : Nat) (s : State) : Result := onWireByte k false true END dEndBody s

/-- D.ESC (R96). -/
def execDEsc (k : Nat) (s : State) : Result := onWireByte k false true ESC dEscBody s

/-- D.XEND (R97). -/
def execDXend (k : Nat) (s : State) : Result := onWireByte k true true ESC_END dXendBody s

/-- D.XESC (R98). -/
def execDXesc (k : Nat) (s : State) : Result := onWireByte k true true ESC_ESC dXescBody s

/-- D.XBAD (R99). -/
def execDXbad (k : Nat) (v : Byte) (s : State) : Result :=
  onWireByte k true (isBadSecond v) v (dXbadBody s.params.xbadConsumes) s

/-- D.EOC (R100). -/
def execDEoc (k : Nat) (s : State) : Result := onChunkEnd k dEocBody s

/-- One step of DECODE's loop: `b <- MemRead(CHUNK:di, 1)` and the operation (`esc`, `b`) selects, or D.EOC (R90, R91). -/
def decStep (p : Config.Params) (c : DecCall) (d : Decoder) (m : Memory) : DecFlow :=
  if d.di < c.chunk.len then
    let b := memRead m c.chunk d.di
    let d' : Decoder := { d with b := b }
    if d.esc then
      if b = ESC_END then dXendBody c.decOut d' m
      else if b = ESC_ESC then dXescBody c.decOut d' m
      else dXbadBody p.xbadConsumes c.decOut d' m
    else
      if b = END then dEndBody c.decOut d' m
      else if b = ESC then dEscBody c.decOut d' m
      else dLitBody c.decOut d' m
  else dEocBody d m

/-- At most `n` steps of DECODE's loop. -/
def decRun (p : Config.Params) (c : DecCall) : Nat → Decoder → Memory → DecFlow
  | 0, d, m => .goOn d m
  | n + 1, d, m => (decStep p c d m).andThen (decRun p c n)

/-- DECODE, whole: "after at most `len(chunk) + 1` steps" it has ended (R90, R92). -/
def execDecode (k : Nat) (chunk decOut : Buffer) (s : State) : Result :=
  onDecoder k chunk decOut (decRun s.params ⟨chunk, decOut⟩ (chunk.len + 1)) s

end Sys2Proof.Machine
end

