-- ==== Sys2Proof/Machine/Encoder.lean ====
section
/-! DEFINITION. The encoder family: E.LIT, E.END, E.ESC, E.FIN and ENCODE (40_encoder). -/

namespace Sys2Proof.Machine

/-- E.LIT: `emit(b)`, `ei <- ei + 1` (R73). -/
def eLitBody (encOut : Buffer) (e : Encoder) (m : Memory) : EncFlow :=
  (emit encOut e.b e m).andThen stepEi

/-- E.END: `emit(ESC)`, `emit(ESC_END)`, `ei <- ei + 1` (R74). -/
def eEndBody (encOut : Buffer) (e : Encoder) (m : Memory) : EncFlow :=
  ((emit encOut ESC e m).andThen (emit encOut ESC_END)).andThen stepEi

/-- E.ESC: `emit(ESC)`, `emit(ESC_ESC)`, `ei <- ei + 1` (R75). -/
def eEscBody (encOut : Buffer) (e : Encoder) (m : Memory) : EncFlow :=
  ((emit encOut ESC e m).andThen (emit encOut ESC_ESC)).andThen stepEi

/-- E.FIN: `emit(END)`, and ENCODE returns `Ok(en)` (R76, R70). -/
def eFinBody (encOut : Buffer) (e : Encoder) (m : Memory) : EncFlow :=
  (emit encOut END e m).andThen fun e m => .ended (.ok e.en) m

/-- E.LIT (R73). -/
def execELit (v : Byte) (s : State) : Result := onPayloadByte (isPlain v) v eLitBody s

/-- E.END (R74). -/
def execEEnd (s : State) : Result := onPayloadByte true END eEndBody s

/-- E.ESC (R75). -/
def execEEsc (s : State) : Result := onPayloadByte true ESC eEscBody s

/-- E.FIN (R76). -/
def execEFin (s : State) : Result := onPayloadEnd eFinBody s

/-- One step of ENCODE's loop: `b <- MemRead(PAYLOAD:ei, 1)` and the operation `b` selects, or E.FIN (R70, R71). -/
def encStep (c : EncCall) (e : Encoder) (m : Memory) : EncFlow :=
  if e.ei < c.payload.len then
    let b := memRead m c.payload e.ei
    let e' : Encoder := { e with b := b }
    if b = END then eEndBody c.encOut e' m
    else if b = ESC then eEscBody c.encOut e' m
    else eLitBody c.encOut e' m
  else eFinBody c.encOut e m

/-- At most `n` steps of ENCODE's loop. -/
def encRun (c : EncCall) : Nat → Encoder → Memory → EncFlow
  | 0, e, m => .goOn e m
  | n + 1, e, m => (encStep c e m).andThen (encRun c n)

/-- ENCODE, whole: "after at most `len(payload) + 1` operations" it has ended (R70, R71, 70 R185). -/
def execEncode (payload encOut : Buffer) (s : State) : Result :=
  onEncoder payload encOut (encRun ⟨payload, encOut⟩ (payload.len + 1)) s

end Sys2Proof.Machine
end

