-- ==== Sys2Proof/Machine/Dispatch.lean ====
section
/-! DEFINITION. exec: one arm per operation, each a direct call of its meaning. -/

namespace Sys2Proof.Machine

def exec (i : Instr) (s : State) : Host.Outcome State Fault Refusal :=
  match i with
  | .eLit v => Sys2Proof.Machine.execELit v s
  | .eEnd => Sys2Proof.Machine.execEEnd s
  | .eEsc => Sys2Proof.Machine.execEEsc s
  | .eFin => Sys2Proof.Machine.execEFin s
  | .dLit k v => Sys2Proof.Machine.execDLit k v s
  | .dEnd k => Sys2Proof.Machine.execDEnd k s
  | .dEsc k => Sys2Proof.Machine.execDEsc k s
  | .dXend k => Sys2Proof.Machine.execDXend k s
  | .dXesc k => Sys2Proof.Machine.execDXesc k s
  | .dXbad k v => Sys2Proof.Machine.execDXbad k v s
  | .dEoc k => Sys2Proof.Machine.execDEoc k s
  | .encode p o => Sys2Proof.Machine.execEncode p o s
  | .decode k c o => Sys2Proof.Machine.execDecode k c o s
  | .dreset k => Sys2Proof.Machine.execDreset k s
  | .dnew t => Sys2Proof.Machine.execDnew t s

end Sys2Proof.Machine
end

