-- ==== Sys2Proof/Machine/Fetch.lean ====
section
/-! DEFINITION. What selects a unit's next byte operation (40_encoder R70, 41_decoder R90), which unit moves next, and where
an operation is placed so that the next step runs it. -/

namespace Sys2Proof.Machine

/-- The next operation of the Encoder, if an ENCODE is in progress: by the payload byte at `ei`, or the end of the payload
(40_encoder R70). It "never reads an input index at or beyond the length" (20_memory R33). -/
def fetchEnc (s : State) : Option Instr :=
  match s.enc.call with
  | none => none
  | some c =>
    if s.enc.ei < c.payload.len then some (decodeOp (.payload8 (memRead s.mem c.payload s.enc.ei)))
    else some (decodeOp .endOfPayload)

/-- The next operation of an instance, if a DECODE is in progress on it: by (`esc`, the wire byte at `di`), or the end of
the chunk (41_decoder R90, R91). -/
def fetchDec (k : Nat) (s : State) : Option Instr :=
  match s.decs[k]? with
  | none => none
  | some d =>
    match d.call with
    | none => none
    | some c =>
      if d.di < c.chunk.len then some (decodeOp (.wire8 k d.esc (memRead s.mem c.chunk d.di)))
      else some (decodeOp (.endOfChunk k))

/-- The next operation of a unit. -/
def fetch (e : Engine) (s : State) : Option Instr :=
  match e with
  | .encoder => fetchEnc s
  | .decoder k => fetchDec k s

/-- The first instance, counting from `k`, that runs a DECODE. -/
def firstRunning : Nat → List Decoder → Option Nat
  | _, [] => none
  | k, d :: ds => if d.call.isSome then some k else firstRunning (k + 1) ds

/-- The unit that moves when the host does nothing: the Encoder if an ENCODE is in progress, else the first instance with a
DECODE in progress (log 6). -/
def nextEngine (s : State) : Option Engine :=
  if s.enc.call.isSome then some .encoder
  else (firstRunning 0 s.decs).map Engine.decoder

/-- The Encoder with an ENCODE in progress at the start of a payload of `n` bytes at address 0, and the output after it. -/
def placedEnc (n cap : Nat) (s : State) : Encoder := encBegun ⟨0, n⟩ ⟨n, cap⟩ s.enc

/-- Instance 0 with a DECODE in progress at the start of a chunk of `n` bytes at address 0, and the output after it. -/
def placedDec (esc : Bool) (n cap : Nat) (s : State) : List Decoder :=
  match s.decs with
  | [] => [{ decBegun ⟨0, n⟩ ⟨n, cap⟩ (decFresh s.draws) with esc := esc }]
  | d :: ds => { decBegun ⟨0, n⟩ ⟨n, cap⟩ d with esc := esc } :: ds

/-- Place what selects an operation where the next step fetches it, with room for two output bytes (log 11, log 12). -/
def placeSelector (x : Selector) (s : State) : State :=
  match x with
  | .payload8 v =>
    { s with enc := placedEnc 1 2 s, mem := s.mem.write 0 v, host := .tick .encoder :: s.host }
  | .endOfPayload => { s with enc := placedEnc 0 2 s, host := .tick .encoder :: s.host }
  | .wire8 _ esc v =>
    { s with decs := placedDec esc 1 2 s, mem := s.mem.write 0 v, host := .tick (.decoder 0) :: s.host }
  | .endOfChunk _ => { s with decs := placedDec false 0 2 s, host := .tick (.decoder 0) :: s.host }
  | .call c => { s with host := .issue c :: s.host }

end Sys2Proof.Machine
end

