-- ==== Sys2Proof/Machine/Events.lean ====
section
/-! DEFINITION. What each action of the host does (43_host_protocol R130, 70 R170 to R177) and what a unit does on its own
turn. -/

namespace Sys2Proof.Machine

/-- A unit's turn: its next byte operation; a unit with no command in progress does nothing (70 R172). -/
def turn (e : Engine) (s : State) : Result :=
  match fetch e s with
  | some i => exec i s
  | none => .next s

/-- Begin a command that will run byte step by byte step (20_memory R42). DRESET and DNEW are one operation each (70
R185). -/
def startCommand (c : Command) (s : State) : Result :=
  match c with
  | .encode p o => onEncoder p o EncFlow.goOn s
  | .decode k ch o => onDecoder k ch o DecFlow.goOn s
  | .dreset k => exec (.dreset k) s
  | .dnew t => exec (.dnew t) s

/-- The host puts a byte into memory; into a window lent to a command in progress it must not (70 R175). -/
def hostStore (a : Nat) (v : Byte) (s : State) : Result :=
  if (lent s).any fun b => holds b a then .refused .lentBufferTouched
  else .next { s with mem := s.mem.write a v }

/-- What a host action does (43_host_protocol R130). -/
def act (h : HostAction) (s : State) : Result :=
  match h with
  | .issue c => exec c.toInstr s
  | .start c => startCommand c s
  | .tick e => turn e s
  | .store a v => hostStore a v s
  | .reset => .next (hardReset s)

end Sys2Proof.Machine
end

