-- ==== Sys2Proof/Machine/Step.lean ====
section
/-! DEFINITION. One step of the machine. -/

namespace Sys2Proof.Machine

/-- One step: the host's next action; with none pending, the turn of the unit that moves next; with no command in progress
either, nothing happens: "the block does nothing until the host issues a command" (70 R172). -/
def step (s : State) : Host.Outcome State Fault Refusal :=
  match s.host with
  | h :: rest => act h { s with host := rest }
  | [] =>
    match nextEngine s with
    | some e => turn e s
    | none => .next s

/-- The state with the operation a table word means placed where the next step runs it (log 11, log 12). -/
def State.withFetchWord (s : State) (nbits w : Nat) : State := placeSelector (tableSelector nbits w) s

end Sys2Proof.Machine
end

