-- ==== Sys2Proof/Machine/Protocol.lean ====
section
/-! DEFINITION. The host's side as 43_host_protocol gives it: DECODE_ALL (R134) with reassembly, resume and
resynchronisation (R135 to R137), FLUSH (R138) and what may be transmitted (R140). They are the host's sequences over the
commands, "not operations of the block". -/

namespace Sys2Proof.Machine

/-- The host's variables for one stream (R134), the payloads it delivered, oldest first, and whether it drops empty payloads
because its peer uses FLUSH (R138). -/
structure HostStream where
  frame : List Byte
  discard : Bool
  delivered : List (List Byte)
  dropEmpty : Bool
  deriving DecidableEq, Repr

/-- A stream's variables at its beginning (R134). -/
def HostStream.start (dropEmpty : Bool) : HostStream :=
  { frame := [], discard := false, delivered := [], dropEmpty := dropEmpty }

/-- `deliver` (R134), which "may drop an empty payload if the host uses FLUSH" (R138). -/
def HostStream.deliver (payload : List Byte) (h : HostStream) : HostStream :=
  if h.dropEmpty && payload.isEmpty then h else { h with delivered := h.delivered ++ [payload] }

/-- Which of some payloads the host delivers: all, or, if it drops empty payloads, those that are not empty (R138). -/
def HostStream.kept (h : HostStream) (payloads : List (List Byte)) : List (List Byte) :=
  if h.dropEmpty then payloads.filter (fun p => !p.isEmpty) else payloads

/-- What the host does with the result and the piece of one DECODE (R134, `case r of`). -/
def HostStream.take (r : DecResult) (piece : List Byte) (h : HostStream) : HostStream :=
  match r with
  | .frameIncomplete _ _ => if h.discard then h else { h with frame := h.frame ++ piece }
  | .frameComplete _ _ =>
    let h' := if h.discard then h else h.deliver (h.frame ++ piece)
    { h' with frame := [], discard := false }
  | .err .capacityExceeded _ _ => if h.discard then h else { h with frame := h.frame ++ piece }
  | .err .invalidEscapeSequence _ _ => { h with frame := [], discard := true }

/-- DECODE_ALL's loop (R134), at most `n` times: decode `chunk[pos .. len)`, take the piece, advance by `consumed`. If bytes
are left after `n` times the loop is taken not to end, and the run has no meaning. Mark: DESIGN CHOICE (log 15). -/
def decodeAllLoop (k : Nat) (decOut : Buffer) :
    Nat → Buffer → State → HostStream → Host.Outcome (State × HostStream) Fault Refusal
  | 0, rest, s, h => if rest.len = 0 then .next (s, h) else .refused .noProgress
  | n + 1, rest, s, h =>
    if rest.len = 0 then .next (s, h)
    else
      match exec (.decode k rest decOut) s with
      | .fault f => .fault f
      | .refused r => .refused r
      | .next s' =>
        match s'.decs[k]? with
        | none => .refused .noSuchInstance
        | some d =>
          decodeAllLoop k decOut n
            ⟨rest.base + d.result.consumed, rest.len - d.result.consumed⟩ s'
            (h.take d.result (s'.mem.slice decOut.base d.result.count))

/-- DECODE_ALL on a received chunk (R134). With `cap >= 1`, which R134 requires, every two iterations consume a byte, so
twice the chunk's length is enough (R109). With `cap = 0` the spec gives no outcome: the loop ends only if nothing but ENDs
and ESCs is met (70 R184), and where it would not end the run is refused with `noProgress`. Mark: DESIGN CHOICE (log 15). -/
def decodeAll (k : Nat) (chunk decOut : Buffer) (s : State) (h : HostStream) :
    Host.Outcome (State × HostStream) Fault Refusal :=
  decodeAllLoop k decOut (2 * chunk.len) chunk s h

/-- FLUSH: one END before a frame on the wire (R138). -/
def flush (wire : List Byte) : List Byte := END :: wire

/-- What the host may transmit after an ENCODE: `ENC_OUT[0 .. count)` of a successful one, nothing of a failed one (R140). -/
def transmitted (encOut : Buffer) (s : State) : Option (List Byte) :=
  match s.enc.result with
  | .ok count => some (s.mem.slice encOut.base count)
  | .capacityExceeded => none

end Sys2Proof.Machine
end

