-- ==== Sys2Proof/Machine/Wire.lean ====
section
/-! DEFINITION. The spec's pure functions: `stuff`, `enc`, `L` of 40_encoder R78 and `dstep` of 41_decoder R103, and the
decoding of a chunk as repeated `dstep`. The machine does not run them; statements are made in their terms. -/

namespace Sys2Proof.Machine

/-- `stuff(b)` (R78): the symbol of a payload byte. -/
def stuff (b : Byte) : List Byte :=
  if b = END then [ESC, ESC_END]
  else if b = ESC then [ESC, ESC_ESC]
  else [b]

/-- `enc(p)` (R78): the frame of a payload. -/
def frame (p : List Byte) : List Byte := p.flatMap stuff ++ [END]

/-- `L(p)` (R78): the payload's length, one more for each END or ESC in it, and one for the terminating END. -/
def frameLen (p : List Byte) : Nat := p.length + p.countP (fun b => b = END ∨ b = ESC) + 1

/-- The wire bytes of a damaged frame (43_host_protocol R137): for each of some sequences its symbols and then an ESC, and at
last a frame. -/
def damagedFrame : List (List Byte) → List Byte → List Byte
  | [], r => frame r
  | q :: qs, r => q.flatMap stuff ++ ESC :: damagedFrame qs r

/-- The wire bytes begin with a byte that is no second byte of an escape pair (30_encoding R57, R59). -/
def beginsBad (wire : List Byte) : Bool := wire.head?.any isBadSecond

/-- Every ESC that a damaged frame puts after its sequences meets a bad second byte: a literal, an ESC, or an END. -/
def escapesAreBad : List (List Byte) → List Byte → Bool
  | [], _ => true
  | _ :: qs, r => beginsBad (damagedFrame qs r) && escapesAreBad qs r

/-- How a command goes on after a byte step (R103, last column). -/
inductive GoesOn where
  | nextByte
  | frameComplete
  | error (e : DecError)
  deriving DecidableEq, Repr

/-- A row of R103's table, its right-hand part. -/
structure DStep where
  esc : Bool
  writes : Option Byte
  consumed : Bool
  goesOn : GoesOn
  deriving DecidableEq, Repr

/-- `dstep(esc, b, full)` (R103): the nine rows in the table's order. -/
def dstep (esc : Bool) (b : Byte) (full : Bool) : DStep :=
  match esc, full with
  | false, false =>
    if b = END then ⟨false, none, true, .frameComplete⟩
    else if b = ESC then ⟨true, none, true, .nextByte⟩
    else ⟨false, some b, true, .nextByte⟩
  | false, true =>
    if b = END then ⟨false, none, true, .frameComplete⟩
    else if b = ESC then ⟨true, none, true, .nextByte⟩
    else ⟨false, none, false, .error .capacityExceeded⟩
  | true, false =>
    if b = ESC_END then ⟨false, some END, true, .nextByte⟩
    else if b = ESC_ESC then ⟨false, some ESC, true, .nextByte⟩
    else ⟨false, none, false, .error .invalidEscapeSequence⟩
  | true, true =>
    if b = ESC_END then ⟨true, none, false, .error .capacityExceeded⟩
    else if b = ESC_ESC then ⟨true, none, false, .error .capacityExceeded⟩
    else ⟨false, none, false, .error .invalidEscapeSequence⟩

/-- What decoding a chunk gives: the result, the bytes written, and `esc` afterwards. -/
structure Decoded where
  result : DecResult
  out : List Byte
  esc : Bool
  deriving DecidableEq, Repr

/-- Decode the bytes of a chunk one `dstep` after another, from `esc`, with `di` bytes consumed and `out` written so far
(41_decoder R90 to R92, R103). With XBAD_CONSUMES the byte that raises InvalidEscapeSequence is consumed (R99). -/
def decodeFrom (xbadConsumes : Bool) (cap : Nat) : Bool → Nat → List Byte → List Byte → Decoded
  | esc, di, out, [] => ⟨.frameIncomplete di out.length, out, esc⟩
  | esc, di, out, b :: rest =>
    let r := dstep esc b (decide (cap ≤ out.length))
    let di' := if r.consumed then di + 1 else di
    let out' := out ++ r.writes.toList
    match r.goesOn with
    | .nextByte => decodeFrom xbadConsumes cap r.esc di' out' rest
    | .frameComplete => ⟨.frameComplete di' out'.length, out', r.esc⟩
    | .error .capacityExceeded => ⟨.err .capacityExceeded di' out'.length, out', r.esc⟩
    | .error .invalidEscapeSequence =>
      ⟨.err .invalidEscapeSequence (if xbadConsumes then di' + 1 else di') out'.length, out', r.esc⟩

/-- What DECODE of a chunk gives, from `esc` and a capacity (R90). -/
def decodeChunk (xbadConsumes : Bool) (cap : Nat) (esc : Bool) (chunk : List Byte) : Decoded :=
  decodeFrom xbadConsumes cap esc 0 [] chunk

end Sys2Proof.Machine
end

