-- ==== Sys2Proof/Safety.lean ====
section
/-! DEFINITION. The terms statements use: when a command is allowed, what every state a run reaches has, and what can be
observed of a state. -/

namespace Sys2Proof.Machine

/-- ENCODE may be issued: no ENCODE is in progress (70 R177), lengths fit (00_scope R6), windows are disjoint (20_memory
R44). -/
def EncodeAllowed (payload encOut : Buffer) (s : State) : Prop :=
  s.enc.call = none ∧ fits s.params payload.len = true ∧ fits s.params encOut.len = true ∧
    disjointWindows payload encOut s = true

/-- DECODE may be issued on instance `k`, which is `d`: it exists and runs no DECODE (70 R177), lengths fit (00_scope R6),
windows are disjoint (20_memory R44). -/
def DecodeAllowed (k : Nat) (chunk decOut : Buffer) (d : Decoder) (s : State) : Prop :=
  s.decs[k]? = some d ∧ d.call = none ∧ fits s.params chunk.len = true ∧ fits s.params decOut.len = true ∧
    disjointWindows chunk decOut s = true

/-- An ENCODE in progress has its registers in range: `0 <= ei <= len(payload)`, `0 <= en <= cap`, `ei <= en <= 2 * ei`
(10_state R15). -/
def encInRange (e : Encoder) : Bool :=
  match e.call with
  | none => true
  | some c =>
    decide (e.ei ≤ c.payload.len) && decide (e.en ≤ c.encOut.len) && decide (e.ei ≤ e.en) && decide (e.en ≤ 2 * e.ei)

/-- A DECODE in progress has its registers in range: `0 <= dn <= di <= len(chunk)`, `dn <= cap` (10_state R16). -/
def decInRange (d : Decoder) : Bool :=
  match d.call with
  | none => true
  | some c => decide (d.dn ≤ d.di) && decide (d.di ≤ c.chunk.len) && decide (d.dn ≤ c.decOut.len)

/-- The registers of every command in progress are in range (10_state R15, R16). -/
def registersInRange (s : State) : Bool := encInRange s.enc && s.decs.all decInRange

/-- No byte is lent twice (20_memory R44). -/
def lentOnce (s : State) : Prop := (lent s).Pairwise fun a b => a.sharesByte b = false

/-- Every lent window's length or capacity fits the counters (00_scope R6). -/
def lentFits (s : State) : Bool := (lent s).all fun b => fits s.params b.len

/-- No command is in progress on any unit. -/
def allIdle (s : State) : Bool := s.enc.call.isNone && s.decs.all fun d => d.call.isNone

/-- What an ENCODE in progress goes on from: its arguments and working registers. -/
def encProgress (e : Encoder) : Option (EncCall × Byte × Nat × Nat) := e.call.map fun c => (c, e.b, e.ei, e.en)

/-- What a DECODE in progress goes on from besides `esc`: its arguments and working registers. -/
def decProgress (d : Decoder) : Option (DecCall × Byte × Nat × Nat) := d.call.map fun c => (c, d.b, d.di, d.dn)

/-- What the end of two units' turns has in common whichever moved first: memory, results, escape bits, which commands are in
progress, and the working registers of those. The working registers of an idle unit are no part of it (10_state R24). -/
def observed (s : State) :
    Memory × EncResult × Option (EncCall × Byte × Nat × Nat) ×
      List (Bool × DecResult × Option (DecCall × Byte × Nat × Nat)) :=
  (s.mem, s.enc.result, encProgress s.enc, s.decs.map fun d => (d.esc, d.result, decProgress d))

/-- What the host sees when it decodes pieces of a stream one after another on instance `k`, each piece a chunk with an output
window of its own, whose decoded bytes it takes after the call: the results, the bytes joined, and the last state
(41_decoder R104, 43_host_protocol R135). -/
def decodePieces (k : Nat) : List (Buffer × Buffer) → State → Option (List DecResult × List Byte × State)
  | [], s => some ([], [], s)
  | (chunk, decOut) :: rest, s =>
    match exec (.decode k chunk decOut) s with
    | .next s' =>
      match s'.decs[k]? with
      | some d =>
        (decodePieces k rest s').map fun x =>
          (d.result :: x.1, s'.mem.slice decOut.base d.result.count ++ x.2.1, x.2.2)
      | none => none
    | .fault _ => none
    | .refused _ => none

/-- Two decode results are of one kind, whatever their counts. -/
def sameKind : DecResult → DecResult → Bool
  | .frameComplete _ _, .frameComplete _ _ => true
  | .frameIncomplete _ _, .frameIncomplete _ _ => true
  | .err e _ _, .err e' _ _ => e == e'
  | .frameComplete _ _, .frameIncomplete _ _ | .frameComplete _ _, .err _ _ _ => false
  | .frameIncomplete _ _, .frameComplete _ _ | .frameIncomplete _ _, .err _ _ _ => false
  | .err _ _ _, .frameComplete _ _ | .err _ _ _, .frameIncomplete _ _ => false

end Sys2Proof.Machine
end

