-- ==== Sys2Proof/Certificates/Slice0/Obligations.lean ====
section
/-! DEFINITION. The statements for the provers, each from the numbered rules of spec/ its docstring names. -/

open Sys2Proof Sys2Proof.Machine

/-! ## Encoding -/

/-- R56, R57, R58: reading opcode_table.json by its rule (priority-0 rows first) gives, for every byte of every format, the
row of the operation the maps select. -/
def Obligations.OpcodeTableAgreesWithMaps : Prop :=
  ∀ v : Byte,
    (tableRow .payload8 v).map Row.op = some (decodeOp (.payload8 v)).op ∧
    (tableRow .wire8esc0 v).map Row.op = some (decodeOp (.wire8 0 false v)).op ∧
    (tableRow .wire8esc1 v).map Row.op = some (decodeOp (.wire8 0 true v)).op

/-- R53, R56, R57: decoding what selects a well-formed operation gives that operation back, every operand at every value. -/
def Obligations.DecodeOfEncodeIsTheInstruction : Prop :=
  ∀ i : Instr, i.wf = true → decodeOp (encodeOp i) = i

/-- R57 ("The map is total"), R61: every selector selects an operation whose selector it is, and one that is well formed
unless it is a command. -/
def Obligations.EncodeOfDecodeIsTheSelector : Prop :=
  ∀ x : Selector, encodeOp (decodeOp x) = x ∧ ((∀ c, x ≠ .call c) → (decodeOp x).wf = true)

/-- R56, R57, R60: words written out bit by bit decode to the operations the maps give them. -/
def Obligations.WrittenOutWordsDecode : Prop :=
  decodeOp (.payload8 0b11000000#8) = .eEnd ∧ decodeOp (.payload8 0b11011011#8) = .eEsc ∧
  decodeOp (.payload8 0b11011100#8) = .eLit 0xDC#8 ∧ decodeOp (.wire8 0 false 0b11000000#8) = .dEnd 0 ∧
  decodeOp (.wire8 0 false 0b11011011#8) = .dEsc 0 ∧ decodeOp (.wire8 0 false 0b11011101#8) = .dLit 0 0xDD#8 ∧
  decodeOp (.wire8 0 true 0b11011100#8) = .dXend 0 ∧ decodeOp (.wire8 0 true 0b11011101#8) = .dXesc 0 ∧
  decodeOp (.wire8 0 true 0b11000000#8) = .dXbad 0 0xC0#8 ∧ decodeOp .endOfPayload = .eFin ∧
  decodeOp (.endOfChunk 0) = .dEoc 0

/-! ## The step -/

/-- R70, R90, R91: when a unit has its turn (with no host action pending the encoder, or the first running instance if no
ENCODE runs; or any unit by a host's tick), the step is exec of the operation selected by the byte at the cursor, or by the
end of the input. The turn's order and the ticks are the model's choice (log 6). -/
def Obligations.StepRunsTheSelectedOperation : Prop :=
  (∀ (s : State) (c : EncCall), s.host = [] → s.enc.call = some c →
    step s = exec (decodeOp (if s.enc.ei < c.payload.len then .payload8 (s.mem.read (c.payload.base + s.enc.ei))
      else .endOfPayload)) s) ∧
  (∀ (s : State) (k : Nat) (d : Decoder) (c : DecCall), s.host = [] → s.enc.call = none → s.decs[k]? = some d →
    d.call = some c → (∀ j d', j < k → s.decs[j]? = some d' → d'.call = none) →
    step s = exec (decodeOp (if d.di < c.chunk.len then .wire8 k d.esc (s.mem.read (c.chunk.base + d.di))
      else .endOfChunk k)) s) ∧
  (∀ (s : State) (c : EncCall) (rest : List HostAction), s.host = .tick .encoder :: rest → s.enc.call = some c →
    step s = exec (decodeOp (if s.enc.ei < c.payload.len then .payload8 (s.mem.read (c.payload.base + s.enc.ei))
      else .endOfPayload)) { s with host := rest }) ∧
  (∀ (s : State) (k : Nat) (d : Decoder) (c : DecCall) (rest : List HostAction),
    s.host = .tick (.decoder k) :: rest → s.decs[k]? = some d → d.call = some c →
    step s = exec (decodeOp (if d.di < c.chunk.len then .wire8 k d.esc (s.mem.read (c.chunk.base + d.di))
      else .endOfChunk k)) { s with host := rest })

/-- R7, R130: an issued command is run by the step as one transition, with the action taken off the host's list. -/
def Obligations.StepRunsTheIssuedCommand : Prop :=
  ∀ (s : State) (c : Command) (rest : List HostAction), s.host = .issue c :: rest →
    step s = exec c.toInstr { s with host := rest }

/-- R172: "the block does nothing until the host issues a command". -/
def Obligations.IdleBlockDoesNothing : Prop :=
  ∀ s : State, s.host = [] → allIdle s = true → step s = .next s

/-- R164, R57: in every state the operation selected for a unit completes; no input leaves a command stuck. -/
def Obligations.SelectedOperationCompletes : Prop :=
  ∀ (e : Engine) (s : State) (i : Instr), fetch e s = some i → ∃ t, exec i s = .next t

/-- R164: with no host action pending every state has a next state. -/
def Obligations.StepWithoutHostCompletes : Prop :=
  ∀ s : State, s.host = [] → ∃ t, step s = .next t

/-! ## Byte operations of the encoder -/

/-- R73: E.LIT copies its byte and advances; with the output full it ends the ENCODE with CapacityExceeded and writes
nothing. Here and below, what the working registers hold once the command has ended is unspecified (R24). -/
def Obligations.ELitCopiesOrRunsOutOfRoom : Prop :=
  ∀ (s : State) (c : EncCall) (v : Byte), s.enc.call = some c → s.enc.ei < c.payload.len → v ≠ 0xC0#8 → v ≠ 0xDB#8 →
    (s.enc.en < c.encOut.len → exec (.eLit v) s = .next { s with
      mem := s.mem.write (c.encOut.base + s.enc.en) v
      enc := { s.enc with b := v, ei := s.enc.ei + 1, en := s.enc.en + 1 } }) ∧
    (c.encOut.len ≤ s.enc.en → exec (.eLit v) s = .next { s with
      enc := encIdle s.draws .capacityExceeded, draws := s.draws + 1 })

/-- R74: E.END writes ESC then ESC_END and advances; with one byte of room it writes the ESC and ends the ENCODE with
CapacityExceeded (the spec's own decision D11, log 9); with none it only ends it. -/
def Obligations.EEndEscapesOrRunsOutOfRoom : Prop :=
  ∀ (s : State) (c : EncCall), s.enc.call = some c → s.enc.ei < c.payload.len →
    (s.enc.en + 1 < c.encOut.len → exec .eEnd s = .next { s with
      mem := (s.mem.write (c.encOut.base + s.enc.en) 0xDB#8).write (c.encOut.base + (s.enc.en + 1)) 0xDC#8
      enc := { s.enc with b := 0xC0#8, ei := s.enc.ei + 1, en := s.enc.en + 2 } }) ∧
    (s.enc.en + 1 = c.encOut.len → exec .eEnd s = .next { s with
      mem := s.mem.write (c.encOut.base + s.enc.en) 0xDB#8
      enc := encIdle s.draws .capacityExceeded, draws := s.draws + 1 }) ∧
    (c.encOut.len ≤ s.enc.en → exec .eEnd s = .next { s with
      enc := encIdle s.draws .capacityExceeded, draws := s.draws + 1 })

/-- R75: E.ESC writes ESC then ESC_ESC and advances; short of room it does as E.END (D11, log 9). -/
def Obligations.EEscEscapesOrRunsOutOfRoom : Prop :=
  ∀ (s : State) (c : EncCall), s.enc.call = some c → s.enc.ei < c.payload.len →
    (s.enc.en + 1 < c.encOut.len → exec .eEsc s = .next { s with
      mem := (s.mem.write (c.encOut.base + s.enc.en) 0xDB#8).write (c.encOut.base + (s.enc.en + 1)) 0xDD#8
      enc := { s.enc with b := 0xDB#8, ei := s.enc.ei + 1, en := s.enc.en + 2 } }) ∧
    (s.enc.en + 1 = c.encOut.len → exec .eEsc s = .next { s with
      mem := s.mem.write (c.encOut.base + s.enc.en) 0xDB#8
      enc := encIdle s.draws .capacityExceeded, draws := s.draws + 1 }) ∧
    (c.encOut.len ≤ s.enc.en → exec .eEsc s = .next { s with
      enc := encIdle s.draws .capacityExceeded, draws := s.draws + 1 })

/-- R76: at the end of the payload E.FIN writes the terminating END and ENCODE returns Ok with the count, or, with no room,
CapacityExceeded with nothing written. -/
def Obligations.EFinTerminatesTheFrame : Prop :=
  ∀ (s : State) (c : EncCall), s.enc.call = some c → s.enc.ei = c.payload.len →
    (s.enc.en < c.encOut.len → exec .eFin s = .next { s with
      mem := s.mem.write (c.encOut.base + s.enc.en) 0xC0#8
      enc := encIdle s.draws (.ok (s.enc.en + 1)), draws := s.draws + 1 }) ∧
    (c.encOut.len ≤ s.enc.en → exec .eFin s = .next { s with
      enc := encIdle s.draws .capacityExceeded, draws := s.draws + 1 })

/-- R34, R70, R13: what the encoder's byte operations leave unchanged: every decoder, the parameters, the host's list,
the ENCODE's arguments and ENC_RESULT while the ENCODE goes on, and every byte but the one (E.END, E.ESC: two) at the output
cursor. -/
def Obligations.EncoderByteOperationsFrame : Prop :=
  ∀ (i : Instr) (s t : State), ((∃ v, i = .eLit v) ∨ i = .eEnd ∨ i = .eEsc ∨ i = .eFin) → exec i s = .next t →
    ∃ c, s.enc.call = some c ∧ t.params = s.params ∧ t.decs = s.decs ∧ t.host = s.host ∧
      ((t.enc.call = some c ∧ t.enc.result = s.enc.result) ∨ t.enc.call = none) ∧
      ∀ a, a ≠ c.encOut.base + s.enc.en → ((i = .eEnd ∨ i = .eEsc) → a ≠ c.encOut.base + (s.enc.en + 1)) →
        t.mem.read a = s.mem.read a

/-! ## Byte operations of a decoder -/

/-- R94: D.LIT writes its byte and advances; with the output full it changes nothing and the DECODE ends with
CapacityExceeded(di, dn). -/
def Obligations.DLitCopiesOrRunsOutOfRoom : Prop :=
  ∀ (s : State) (k : Nat) (d : Decoder) (c : DecCall) (v : Byte), s.decs[k]? = some d → d.call = some c →
    d.di < c.chunk.len → d.esc = false → v ≠ 0xC0#8 → v ≠ 0xDB#8 →
    (d.dn < c.decOut.len → exec (.dLit k v) s = .next { s with
      mem := s.mem.write (c.decOut.base + d.dn) v
      decs := s.decs.set k { d with b := v, di := d.di + 1, dn := d.dn + 1 } }) ∧
    (c.decOut.len ≤ d.dn → exec (.dLit k v) s = .next { s with
      decs := s.decs.set k (decIdle s.draws false (.err .capacityExceeded d.di d.dn)), draws := s.draws + 1 })

/-- R95: D.END is consumed and the DECODE returns FrameComplete, whatever the capacity; nothing is written and `esc`
stays 0. -/
def Obligations.DEndCompletesTheFrame : Prop :=
  ∀ (s : State) (k : Nat) (d : Decoder) (c : DecCall), s.decs[k]? = some d → d.call = some c →
    d.di < c.chunk.len → d.esc = false →
    exec (.dEnd k) s = .next { s with
      decs := s.decs.set k (decIdle s.draws false (.frameComplete (d.di + 1) d.dn)), draws := s.draws + 1 }

/-- R96: D.ESC sets `esc`, is consumed and writes nothing, whatever the capacity. -/
def Obligations.DEscOpensAnEscape : Prop :=
  ∀ (s : State) (k : Nat) (d : Decoder) (c : DecCall), s.decs[k]? = some d → d.call = some c →
    d.di < c.chunk.len → d.esc = false →
    exec (.dEsc k) s = .next { s with decs := s.decs.set k { d with b := 0xDB#8, esc := true, di := d.di + 1 } }

/-- R97: D.XEND writes END, clears `esc` and advances; with the output full nothing changes, `esc` stays 1, and the DECODE
ends with CapacityExceeded(di, dn). -/
def Obligations.DXendWritesEndOrRunsOutOfRoom : Prop :=
  ∀ (s : State) (k : Nat) (d : Decoder) (c : DecCall), s.decs[k]? = some d → d.call = some c →
    d.di < c.chunk.len → d.esc = true →
    (d.dn < c.decOut.len → exec (.dXend k) s = .next { s with
      mem := s.mem.write (c.decOut.base + d.dn) 0xC0#8
      decs := s.decs.set k { d with b := 0xDC#8, esc := false, di := d.di + 1, dn := d.dn + 1 } }) ∧
    (c.decOut.len ≤ d.dn → exec (.dXend k) s = .next { s with
      decs := s.decs.set k (decIdle s.draws true (.err .capacityExceeded d.di d.dn)), draws := s.draws + 1 })

/-- R98: D.XESC writes ESC, clears `esc` and advances; with the output full it does as D.XEND. -/
def Obligations.DXescWritesEscOrRunsOutOfRoom : Prop :=
  ∀ (s : State) (k : Nat) (d : Decoder) (c : DecCall), s.decs[k]? = some d → d.call = some c →
    d.di < c.chunk.len → d.esc = true →
    (d.dn < c.decOut.len → exec (.dXesc k) s = .next { s with
      mem := s.mem.write (c.decOut.base + d.dn) 0xDB#8
      decs := s.decs.set k { d with b := 0xDD#8, esc := false, di := d.di + 1, dn := d.dn + 1 } }) ∧
    (c.decOut.len ≤ d.dn → exec (.dXesc k) s = .next { s with
      decs := s.decs.set k (decIdle s.draws true (.err .capacityExceeded d.di d.dn)), draws := s.draws + 1 })

/-- R99: D.XBAD clears `esc` and the DECODE ends with InvalidEscapeSequence(di, dn), whatever the capacity; the byte is not
consumed, but with the parameter XBAD_CONSUMES it is, and nothing else differs. -/
def Obligations.DXbadRaisesInvalidEscape : Prop :=
  ∀ (s : State) (k : Nat) (d : Decoder) (c : DecCall) (v : Byte), s.decs[k]? = some d → d.call = some c →
    d.di < c.chunk.len → d.esc = true → v ≠ 0xDC#8 → v ≠ 0xDD#8 →
    exec (.dXbad k v) s = .next { s with
      decs := s.decs.set k (decIdle s.draws false
        (.err .invalidEscapeSequence (if s.params.xbadConsumes then d.di + 1 else d.di) d.dn))
      draws := s.draws + 1 }

/-- R100: at the end of the chunk D.EOC returns FrameIncomplete and leaves `esc` as it is, 0 or 1. -/
def Obligations.DEocReturnsFrameIncomplete : Prop :=
  ∀ (s : State) (k : Nat) (d : Decoder) (c : DecCall), s.decs[k]? = some d → d.call = some c →
    d.di = c.chunk.len →
    exec (.dEoc k) s = .next { s with
      decs := s.decs.set k (decIdle s.draws d.esc (.frameIncomplete c.chunk.len d.dn)), draws := s.draws + 1 }

/-- R103: the turn of an instance with a byte left is the row of R103's table for its `esc`, its byte and whether its output
is full. -/
def Obligations.DecoderTurnIsDstep : Prop :=
  ∀ (s : State) (k : Nat) (d : Decoder) (c : DecCall) (v : Byte), s.params.xbadConsumes = false →
    s.decs[k]? = some d → d.call = some c → d.di < c.chunk.len → s.mem.read (c.chunk.base + d.di) = v →
    let r := dstep d.esc v (decide (d.dn ≥ c.decOut.len))
    ∃ t, turn (.decoder k) s = .next t ∧
      t.mem = (match r.writes with | some w => s.mem.write (c.decOut.base + d.dn) w | none => s.mem) ∧
      t.decs = s.decs.set k (match r.goesOn with
        | .nextByte => { d with
            b := v, esc := r.esc
            di := if r.consumed then d.di + 1 else d.di
            dn := if r.writes.isSome then d.dn + 1 else d.dn }
        | .frameComplete => decIdle s.draws r.esc (.frameComplete (if r.consumed then d.di + 1 else d.di) d.dn)
        | .error e => decIdle s.draws r.esc (.err e (if r.consumed then d.di + 1 else d.di) d.dn))

/-- R34, R13, R23: what the storing byte operations of an instance leave unchanged: the encoder, every other instance, the
parameters, the host's list, `esc` (D.LIT), the DECODE's arguments and DEC_RESULT while it goes on, and every byte but the
one at the output cursor. -/
def Obligations.DecoderStoringOperationsFrame : Prop :=
  ∀ (k : Nat) (i : Instr) (s t : State), ((∃ v, i = .dLit k v) ∨ i = .dXend k ∨ i = .dXesc k) → exec i s = .next t →
    ∃ d d' c, s.decs[k]? = some d ∧ d.call = some c ∧ t.decs[k]? = some d' ∧
      t.params = s.params ∧ t.enc = s.enc ∧ t.host = s.host ∧
      t.decs.length = s.decs.length ∧ (∀ j, j ≠ k → t.decs[j]? = s.decs[j]?) ∧
      ((∃ v, i = .dLit k v) → d'.esc = d.esc) ∧
      ((d'.call = some c ∧ d'.result = d.result) ∨ d'.call = none) ∧
      ∀ a, a ≠ c.decOut.base + d.dn → t.mem.read a = s.mem.read a

/-- R34, R13, R23, R120: what the operations that store nothing leave unchanged: all of memory, the encoder, every other
instance, the parameters, the host's list, and `esc` (D.END, D.EOC). -/
def Obligations.NonStoringOperationsFrame : Prop :=
  (∀ (k : Nat) (i : Instr) (s t : State),
    (i = .dEnd k ∨ i = .dEsc k ∨ (∃ v, i = .dXbad k v) ∨ i = .dEoc k ∨ i = .dreset k ∨ i = .dnew (some k)) →
    exec i s = .next t →
    ∃ d d', s.decs[k]? = some d ∧ t.decs[k]? = some d' ∧ t.params = s.params ∧ t.enc = s.enc ∧ t.host = s.host ∧
      t.decs.length = s.decs.length ∧ (∀ j, j ≠ k → t.decs[j]? = s.decs[j]?) ∧
      ((i = .dEnd k ∨ i = .dEoc k) → d'.esc = d.esc) ∧ ∀ a, t.mem.read a = s.mem.read a) ∧
  (∀ (s t : State), exec (.dnew none) s = .next t →
    t.params = s.params ∧ t.enc = s.enc ∧ t.host = s.host ∧ (∀ j, j < s.decs.length → t.decs[j]? = s.decs[j]?) ∧
      ∀ a, t.mem.read a = s.mem.read a)

/-! ## ENCODE -/

/-- R70, R71, R72, R77: an allowed ENCODE completes; it writes the first `cap` bytes of the frame, all of it when it fits,
and ends with Ok(L) or CapacityExceeded; no decoder, parameter or other byte changes. What a failed ENCODE leaves in the
output is the spec's own decision D11, which no host may use (log 9). -/
def Obligations.EncodeWritesTheFrame : Prop :=
  ∀ (s : State) (p o : Buffer), EncodeAllowed p o s →
    let payload := s.mem.slice p.base p.len
    exec (.encode p o) s = .next { s with
      mem := s.mem.fill o.base ((frame payload).take o.len)
      enc := encIdle s.draws (if frameLen payload ≤ o.len then .ok (frameLen payload) else .capacityExceeded)
      draws := s.draws + 1 }

/-- R79: ENCODE returns Ok(L(p)) when `cap >= L(p)` and CapacityExceeded when `cap < L(p)`; `len(p) + 1 <= L(p) <=
2 * len(p) + 1`, the lower bound met when no byte is END or ESC, the upper when every byte is. -/
def Obligations.EncodeCapacityLaw : Prop :=
  (∀ (s : State) (p o : Buffer), EncodeAllowed p o s → ∃ t, exec (.encode p o) s = .next t ∧
    (frameLen (s.mem.slice p.base p.len) ≤ o.len → t.enc.result = .ok (frameLen (s.mem.slice p.base p.len))) ∧
    (o.len < frameLen (s.mem.slice p.base p.len) → t.enc.result = .capacityExceeded)) ∧
  (∀ p : List Byte, p.length + 1 ≤ frameLen p ∧ frameLen p ≤ 2 * p.length + 1 ∧
    ((∀ b ∈ p, b ≠ END ∧ b ≠ ESC) → frameLen p = p.length + 1) ∧
    ((∀ b ∈ p, b = END ∨ b = ESC) → frameLen p = 2 * p.length + 1))

/-- R77, R79, R140: after an ENCODE with room, what the host may transmit is the frame of the payload; after one without, it
may transmit nothing, and the output holds the first `cap` bytes of the frame (D11, log 9). -/
def Obligations.EncodeOutputReadsBack : Prop :=
  ∀ (s : State) (p o : Buffer), s.mem.wf = true → EncodeAllowed p o s →
    let payload := s.mem.slice p.base p.len
    ∃ t, exec (.encode p o) s = .next t ∧
      (frameLen payload ≤ o.len → transmitted o t = some (frame payload)) ∧
      (o.len < frameLen payload → transmitted o t = none ∧ t.mem.slice o.base o.len = (frame payload).take o.len)

/-- R22: "Two ENCODE commands with equal `payload` and equal `cap` give equal results and equal writes", in any two states
that allow them, wherever the buffers are. -/
def Obligations.EncodeDependsOnPayloadAndCapacityOnly : Prop :=
  ∀ (s s' : State) (p o p' o' : Buffer), EncodeAllowed p o s → EncodeAllowed p' o' s' →
    s.mem.slice p.base p.len = s'.mem.slice p'.base p'.len → o.len = o'.len →
    ∃ t t' written, exec (.encode p o) s = .next t ∧ exec (.encode p' o') s' = .next t' ∧
      t.enc.result = t'.enc.result ∧
      t.mem = s.mem.fill o.base written ∧ t'.mem = s'.mem.fill o'.base written

/-- R34: what the commands leave unchanged: a DECODE the encoder and every other instance, an ENCODE every instance, both the
parameters and the host's list, and every byte outside the output indices they wrote: those below the count of the result,
or below `cap` after a failed ENCODE. -/
def Obligations.CommandsWriteOnlyTheirOutput : Prop :=
  (∀ (s t : State) (p o : Buffer), exec (.encode p o) s = .next t →
    t.params = s.params ∧ t.decs = s.decs ∧ t.host = s.host ∧ t.enc.call = none ∧
      ∀ a, (a < o.base ∨ o.base + (match t.enc.result with | .ok n => n | .capacityExceeded => o.len) ≤ a) →
        t.mem.read a = s.mem.read a) ∧
  (∀ (s t : State) (k : Nat) (c o : Buffer), exec (.decode k c o) s = .next t →
    ∃ d', t.decs[k]? = some d' ∧ d'.call = none ∧ d'.result.count ≤ o.len ∧
      t.params = s.params ∧ t.enc = s.enc ∧ t.host = s.host ∧
      t.decs.length = s.decs.length ∧ (∀ j, j ≠ k → t.decs[j]? = s.decs[j]?) ∧
      ∀ a, (a < o.base ∨ o.base + d'.result.count ≤ a) → t.mem.read a = s.mem.read a)

/-- R78, R80: `L(p) = len(enc(p))`, and "the stuffed form of a concatenation is the concatenation of the stuffed forms, with
one END at the end". -/
def Obligations.FrameLengthAndConcatenation : Prop :=
  (∀ p : List Byte, (frame p).length = frameLen p) ∧
  ∀ p q : List Byte, frame (p ++ q) = (frame p).take (frameLen p - 1) ++ frame q

/-- R63: in a frame the last byte is END and no other byte is, and every ESC is followed by ESC_END or ESC_ESC. -/
def Obligations.FrameGrammar : Prop :=
  ∀ p : List Byte, ∃ body, frame p = body ++ [END] ∧ END ∉ body ∧
    ∀ i, body[i]? = some ESC → body[i + 1]? = some ESC_END ∨ body[i + 1]? = some ESC_ESC

/-! ## DECODE -/

/-- R90, R92, R103: an allowed DECODE completes and is the repeated dstep of its chunk: it writes the decoded bytes from
index 0, leaves the `esc` they leave and returns their result; nothing else changes. -/
def Obligations.DecodeIsRepeatedDstep : Prop :=
  ∀ (s : State) (k : Nat) (d : Decoder) (c o : Buffer), DecodeAllowed k c o d s →
    let r := decodeChunk s.params.xbadConsumes o.len d.esc (s.mem.slice c.base c.len)
    exec (.decode k c o) s = .next { s with
      mem := s.mem.fill o.base r.out
      decs := s.decs.set k (decIdle s.draws r.esc r.result)
      draws := s.draws + 1 }

/-- R105: a decoder with `esc = 0` given `DECODE(enc(p), cap)` with `cap >= len(p)` returns `FrameComplete(L(p), len(p))` with
`DEC_OUT[0 .. len(p)) = p` and `esc = 0`. -/
def Obligations.DecodeOfAFrameIsThePayload : Prop :=
  ∀ (s : State) (k : Nat) (d : Decoder) (c o : Buffer) (p : List Byte), s.mem.wf = true → DecodeAllowed k c o d s →
    d.esc = false → s.mem.slice c.base c.len = frame p → p.length ≤ o.len →
    ∃ t d', exec (.decode k c o) s = .next t ∧ t.decs[k]? = some d' ∧
      d'.result = .frameComplete (frameLen p) p.length ∧ d'.esc = false ∧ t.mem.slice o.base p.length = p

/-- R81: encoding a payload and then decoding the encoder's output on an idle instance with `esc = 0` puts the payload into
DEC_OUT, for enough capacity on both sides. -/
def Obligations.EncodeThenDecodeIsThePayload : Prop :=
  ∀ (s : State) (k : Nat) (d : Decoder) (p o o' : Buffer), s.mem.wf = true → EncodeAllowed p o s →
    frameLen (s.mem.slice p.base p.len) ≤ o.len →
    DecodeAllowed k ⟨o.base, frameLen (s.mem.slice p.base p.len)⟩ o' d s → d.esc = false → p.len ≤ o'.len →
    ∃ t t' d', exec (.encode p o) s = .next t ∧
      exec (.decode k ⟨o.base, frameLen (s.mem.slice p.base p.len)⟩ o') t = .next t' ∧ t'.decs[k]? = some d' ∧
      d'.result = .frameComplete (frameLen (s.mem.slice p.base p.len)) p.len ∧ d'.esc = false ∧
      t'.mem.slice o'.base p.len = s.mem.slice p.base p.len

/-- R106: of two frames in one chunk a DECODE completes the first; the rest, whatever it is, is neither consumed nor
reflected in the result, the output or `esc`. -/
def Obligations.DecodeStopsAtTheFirstFrame : Prop :=
  ∀ (s : State) (k : Nat) (d : Decoder) (c o : Buffer) (p rest : List Byte), s.mem.wf = true → DecodeAllowed k c o d s →
    d.esc = false → s.mem.slice c.base c.len = frame p ++ rest → p.length ≤ o.len →
    ∃ t d', exec (.decode k c o) s = .next t ∧ t.decs[k]? = some d' ∧
      d'.result = .frameComplete (frameLen p) p.length ∧ d'.esc = false ∧
      t.mem = s.mem.fill o.base p ∧ t.mem.slice o.base p.length = p

/-- R108: a well-formed frame decoded in one call from `esc = 0`: with `cap >= len(p)` it ends with FrameComplete; with
`cap < len(p)` with `Err(CapacityExceeded, consumed, cap)`, where `consumed` is the index of the first wire byte of symbol
number `cap`, or of its second byte (with `esc = 1`) if it is an escape pair, and the output is the first `cap` bytes of
the payload. -/
def Obligations.DecodeCapacityLaw : Prop :=
  ∀ (s : State) (k : Nat) (d : Decoder) (c o : Buffer) (p : List Byte), s.mem.wf = true →
    DecodeAllowed k c o d s → d.esc = false → s.mem.slice c.base c.len = frame p →
    (p.length ≤ o.len → ∃ t d', exec (.decode k c o) s = .next t ∧ t.decs[k]? = some d' ∧
      d'.result = .frameComplete c.len p.length) ∧
    ∀ b : Byte, p[o.len]? = some b →
      let pair := decide (b = END ∨ b = ESC)
      let start := ((p.take o.len).flatMap stuff).length
      ∃ t d', exec (.decode k c o) s = .next t ∧ t.decs[k]? = some d' ∧
        d'.result = .err .capacityExceeded (if pair then start + 1 else start) o.len ∧
        d'.esc = pair ∧ t.mem.slice o.base o.len = p.take o.len

/-- R104: a sequence with no unescaped END before its last byte and no error, decoded in one call or in any partition into
chunks whose last is not empty, each in a buffer of its own and with an output of its own, gives the same bytes, the same
final `esc`, FrameIncomplete with all of its chunk consumed for every call but the last, and the same kind of result for the
last. Every call has enough capacity if none runs out of it, and a capacity of the chunk's length is enough (R174). -/
def Obligations.IncrementalDecodingAgrees : Prop :=
  ∀ (s t : State) (k : Nat) (d d' : Decoder) (c o : Buffer) (init : List (Buffer × Buffer)) (last : Buffer × Buffer),
    s.mem.wf = true → DecodeAllowed k c o d s → exec (.decode k c o) s = .next t → t.decs[k]? = some d' →
    (∀ e x y, d'.result ≠ .err e x y) → d'.result.consumed = c.len →
    (∀ q ∈ init ++ [last], DecodeAllowed k q.1 q.2 d s) →
    (∀ q ∈ init ++ [last], ∀ q' ∈ init ++ [last], q.1.sharesByte q'.2 = false) → last.1.len ≠ 0 →
    ((init ++ [last]).flatMap fun q => s.mem.slice q.1.base q.1.len) = s.mem.slice c.base c.len →
    ∃ rs r bytes u du, decodePieces k (init ++ [last]) s = some (rs ++ [r], bytes, u) ∧ u.decs[k]? = some du ∧
      rs.length = init.length ∧
      (((∀ q ∈ init ++ [last], q.1.len ≤ q.2.len) ∨ (∀ x ∈ rs ++ [r], ∀ i n, x ≠ .err .capacityExceeded i n)) →
        bytes = t.mem.slice o.base d'.result.count ∧ du.esc = d'.esc ∧
        (∀ (i : Nat) (x : DecResult) (q : Buffer × Buffer), rs[i]? = some x → init[i]? = some q →
          ∃ count, x = .frameIncomplete q.1.len count) ∧
        sameKind r d'.result = true ∧ r.consumed = last.1.len)

/-- R109: what a DECODE of a non-empty chunk gets done. One that returns without error has consumed a byte, and so has one
that runs out of a capacity that is not 0. One that returns InvalidEscapeSequence with nothing consumed found `esc = 1`; any
leaves 0, so the remainder presented again has its first byte consumed or raises CapacityExceeded. With `cap = 0`
CapacityExceeded comes again whenever the remainder is presented again. -/
def Obligations.DecodeMakesProgress : Prop :=
  ∀ (s : State) (k : Nat) (d : Decoder) (c o : Buffer), DecodeAllowed k c o d s →
    c.len ≠ 0 → ∃ t d', exec (.decode k c o) s = .next t ∧ t.decs[k]? = some d' ∧
      ((∀ e x y, d'.result ≠ .err e x y) → 1 ≤ d'.result.consumed) ∧
      (∀ x y, d'.result = .err .capacityExceeded x y → o.len ≠ 0 → 1 ≤ x) ∧
      (∀ y, d'.result = .err .invalidEscapeSequence 0 y → d.esc = true) ∧
      (∀ x y, d'.result = .err .invalidEscapeSequence x y → d'.esc = false ∧ (x < c.len →
        ∃ u du, exec (.decode k ⟨c.base + x, c.len - x⟩ o) t = .next u ∧ u.decs[k]? = some du ∧
          (1 ≤ du.result.consumed ∨ du.result = .err .capacityExceeded 0 0))) ∧
      (∀ x y, d'.result = .err .capacityExceeded x y → o.len = 0 →
        ∃ u du, exec (.decode k ⟨c.base + x, c.len - x⟩ o) t = .next u ∧ u.decs[k]? = some du ∧
          du.result = .err .capacityExceeded 0 0 ∧ du.esc = d'.esc)

/-- R13: `esc` is 0 whenever a DECODE has returned FrameComplete, and 0 after InvalidEscapeSequence (R99). -/
def Obligations.CompletedFrameLeavesIdle : Prop :=
  ∀ (s t : State) (k : Nat) (c o : Buffer) (d' : Decoder), exec (.decode k c o) s = .next t → t.decs[k]? = some d' →
    ((∃ x y, d'.result = .frameComplete x y) ∨ (∃ x y, d'.result = .err .invalidEscapeSequence x y)) → d'.esc = false

/-- R23, R62, R162: a DECODE depends on its own instance's `esc`, its chunk and its capacity only: in any two states, on any
two instances, these equal give the same result, the same writes and the same `esc`. -/
def Obligations.DecodeDependsOnItsInstanceOnly : Prop :=
  ∀ (s s' : State) (k k' : Nat) (d d' : Decoder) (c o c' o' : Buffer),
    s.params.xbadConsumes = s'.params.xbadConsumes → DecodeAllowed k c o d s → DecodeAllowed k' c' o' d' s' →
    d.esc = d'.esc → s.mem.slice c.base c.len = s'.mem.slice c'.base c'.len → o.len = o'.len →
    ∃ t t' e e' written, exec (.decode k c o) s = .next t ∧ exec (.decode k' c' o') s' = .next t' ∧
      t.decs[k]? = some e ∧ t'.decs[k']? = some e' ∧ e.result = e'.result ∧ e.esc = e'.esc ∧
      t.mem = s.mem.fill o.base written ∧ t'.mem = s'.mem.fill o'.base written

/-- R13: over all operations, only D.ESC (or a DECODE, which runs it) sets an instance's `esc`, and only D.XEND, D.XESC,
D.XBAD, DRESET, DNEW of that instance (or a DECODE of it) clear it. -/
def Obligations.OnlyTheListedOperationsWriteEsc : Prop :=
  ∀ (i : Instr) (s t : State) (j : Nat) (d d' : Decoder), exec i s = .next t → s.decs[j]? = some d →
    t.decs[j]? = some d' →
    (d.esc = false → d'.esc = true → i = .dEsc j ∨ ∃ c o, i = .decode j c o) ∧
    (d.esc = true → d'.esc = false →
      i = .dXend j ∨ i = .dXesc j ∨ (∃ v, i = .dXbad j v) ∨ i = .dreset j ∨ i = .dnew (some j) ∨ ∃ c o, i = .decode j c o)

/-! ## Control operations and reset -/

/-- R120: DRESET clears the instance's `esc` and changes nothing else; it is not to be issued while a DECODE of the instance
runs, and then the model gives it no meaning. -/
def Obligations.DresetClearsEscOnly : Prop :=
  ∀ (s : State) (k : Nat) (d : Decoder), s.decs[k]? = some d →
    (d.call = none → exec (.dreset k) s = .next { s with decs := s.decs.set k { d with esc := false } }) ∧
    (d.call ≠ none → exec (.dreset k) s = .refused .unitBusy)

/-- R121: DNEW without operand adds an instance with `esc = 0` and no command in progress (that it stands after the others is
the model's choice, log 10); on an existing instance it has the same effect as DRESET: it clears `esc` and changes nothing
else. -/
def Obligations.DnewMakesAnIdleInstance : Prop :=
  (∀ s : State, ∃ t d', exec (.dnew none) s = .next t ∧ t.decs = s.decs ++ [d'] ∧ d'.esc = false ∧ d'.call = none ∧
    t.enc = s.enc ∧ t.mem = s.mem ∧ t.params = s.params ∧ t.host = s.host) ∧
  (∀ (s : State) (k : Nat) (d : Decoder), s.decs[k]? = some d → d.call = none →
    exec (.dnew (some k)) s = .next { s with decs := s.decs.set k { d with esc := false } } ∧
      exec (.dnew (some k)) s = exec (.dreset k) s)

/-- R24, R172: after reset every instance has `esc = 0`, no command is in progress and no host action is pending. There is
one instance: N_DEC's default (R6, D23; log 7). The other reset values are the model's (log 1, log 2, log 3) and are not
stated. -/
def Obligations.ResetLeavesIdle : Prop :=
  (∀ d ∈ State.reset.decs, d.esc = false) ∧ allIdle State.reset = true ∧ State.reset.host = [] ∧
    State.reset.decs.length = 1

/-- R170, R171: a hardware reset gives every instance `esc = 0`, abandons every command, keeps the instances and the
parameters, and changes no byte outside the output windows that were lent. -/
def Obligations.HardwareResetAbandonsCommands : Prop :=
  ∀ (s : State) (rest : List HostAction), s.host = .reset :: rest →
    ∃ t, step s = .next t ∧ t.host = rest ∧ t.params = s.params ∧ allIdle t = true ∧
      t.decs.length = s.decs.length ∧ (∀ d ∈ t.decs, d.esc = false) ∧
      ∀ a, (∀ c, s.enc.call = some c → holds c.encOut a = false) →
        (∀ d ∈ s.decs, ∀ c, d.call = some c → holds c.decOut a = false) → t.mem.read a = s.mem.read a

/-! ## What the host must not do -/

/-- R177, R42, R120: a command to a unit that runs one has no meaning: ENCODE while an ENCODE runs; DECODE, DRESET and DNEW
on an instance while a DECODE runs on it. -/
def Obligations.BusyUnitTakesNoCommand : Prop :=
  (∀ (s : State) (p o : Buffer), s.enc.call ≠ none → exec (.encode p o) s = .refused .unitBusy) ∧
  (∀ (s : State) (k : Nat) (d : Decoder) (c o : Buffer), s.decs[k]? = some d → d.call ≠ none →
    exec (.decode k c o) s = .refused .unitBusy) ∧
  (∀ (s : State) (k : Nat) (d : Decoder), s.decs[k]? = some d → d.call ≠ none →
    exec (.dreset k) s = .refused .unitBusy ∧ exec (.dnew (some k)) s = .refused .unitBusy)

/-- R6: "a command whose arguments do not fit is refused by the host interface before it starts", and LEN_BITS means less than
`2^LEN_BITS`. -/
def Obligations.LengthsThatDoNotFitAreRefused : Prop :=
  (∀ (s : State) (n : Nat) (p o : Buffer), s.params.lenBits = some n → s.enc.call = none →
    (2 ^ n ≤ p.len ∨ 2 ^ n ≤ o.len) → exec (.encode p o) s = .refused .lengthsDoNotFit) ∧
  (∀ (s : State) (n k : Nat) (d : Decoder) (c o : Buffer), s.params.lenBits = some n → s.decs[k]? = some d →
    d.call = none → (2 ^ n ≤ c.len ∨ 2 ^ n ≤ o.len) → exec (.decode k c o) s = .refused .lengthsDoNotFit)

/-- R44, R176: a command whose input and output share a byte has no meaning, nor one that shares a byte with a window lent to
a command in progress. -/
def Obligations.OverlappingWindowsAreRefused : Prop :=
  (∀ (s : State) (p o : Buffer) (a : Nat), s.enc.call = none → fits s.params p.len = true → fits s.params o.len = true →
    ((holds p a = true ∧ holds o a = true) ∨ (∃ b ∈ lent s, holds b a = true ∧ (holds p a = true ∨ holds o a = true))) →
    exec (.encode p o) s = .refused .buffersOverlap) ∧
  (∀ (s : State) (k a : Nat) (d : Decoder) (c o : Buffer), s.decs[k]? = some d → d.call = none →
    fits s.params c.len = true → fits s.params o.len = true →
    ((holds c a = true ∧ holds o a = true) ∨ (∃ b ∈ lent s, holds b a = true ∧ (holds c a = true ∨ holds o a = true))) →
    exec (.decode k c o) s = .refused .buffersOverlap)

/-- R175: a host write to a byte of a lent window has no meaning; any other host write stores its byte and changes nothing
else. -/
def Obligations.HostWritesOnlyItsOwnBuffers : Prop :=
  ∀ (s : State) (a : Nat) (v : Byte) (rest : List HostAction), s.host = .store a v :: rest →
    ((∃ b ∈ lent s, holds b a = true) → step s = .refused .lentBufferTouched) ∧
    ((∀ b ∈ lent s, holds b a = false) → step s = .next { s with host := rest, mem := s.mem.write a v })

/-! ## Invariants of every step -/

/-- The model's memory keeps its canonical form under every step (20_memory R31, R34; the form is the model's, log 3). -/
def Obligations.StepKeepsMemoryCanonical : Prop :=
  ∀ s t : State, s.mem.wf = true → step s = .next t → t.mem.wf = true

/-- R15, R16: every step keeps `0 <= ei <= len(payload)`, `0 <= en <= cap`, `ei <= en <= 2 * ei` of an ENCODE in progress and
`0 <= dn <= di <= len(chunk)`, `dn <= cap` of every DECODE in progress. -/
def Obligations.StepKeepsRegistersInRange : Prop :=
  ∀ s t : State, registersInRange s = true → step s = .next t → registersInRange t = true

/-- R44, R176, R6: every step keeps the windows of commands in progress disjoint from each other and within LEN_BITS. -/
def Obligations.StepKeepsWindowsDisjoint : Prop :=
  ∀ s t : State, lentOnce s → lentFits s = true → step s = .next t → lentOnce t ∧ lentFits t = true

/-- No step changes a parameter: that the parameters of R6 are data in State which stays as it is, is the model's choice
(log 7). -/
def Obligations.StepKeepsParameters : Prop :=
  ∀ s t : State, step s = .next t → t.params = s.params

/-- The invariants of the steps hold after reset. With no command in progress (R24, R172) no register is in range or out of
it and no window is lent; that memory lists nothing and so is in canonical form is the model's choice (log 3). -/
def Obligations.ResetMeetsTheInvariants : Prop :=
  State.reset.mem.wf = true ∧ registersInRange State.reset = true ∧ lentOnce State.reset ∧ lentFits State.reset = true

/-! ## The atomic command and its byte steps -/

/-- R7, R71, R185: an ENCODE that runs byte step by byte step ends in the very state the atomic ENCODE ends in, after at most
`len(payload) + 1` operations, exactly that many when it succeeds, and it is in progress after fewer than it takes. That the
host starts a command and ticks its unit is the model's way to say so (log 6). -/
def Obligations.AtomicEncodeIsItsByteSteps : Prop :=
  ∀ (s : State) (p o : Buffer), EncodeAllowed p o s →
    ∃ n t, n ≤ p.len + 1 ∧ exec (.encode p o) s = .next t ∧ (t.enc.result ≠ .capacityExceeded → n = p.len + 1) ∧
      core.run (n + 1)
        { s with host := .start (.encode p o) :: (List.replicate n (.tick .encoder) ++ s.host) } = .next t ∧
      ∀ m, m < n → ∃ u : State, core.run (m + 1)
        { s with host := .start (.encode p o) :: (List.replicate m (.tick .encoder) ++ s.host) } = .next u ∧
          u.enc.call = some ⟨p, o⟩

/-- R7, R92, R185: a DECODE that runs byte step by byte step ends in the very state the atomic DECODE ends in, after at most
`len(chunk) + 1` operations, and it is in progress after fewer than it takes. That the host starts a command and ticks its
unit is the model's way to say so (log 6). -/
def Obligations.AtomicDecodeIsItsByteSteps : Prop :=
  ∀ (s : State) (k : Nat) (d : Decoder) (c o : Buffer), DecodeAllowed k c o d s →
    ∃ n t, n ≤ c.len + 1 ∧ exec (.decode k c o) s = .next t ∧
      core.run (n + 1)
        { s with host := .start (.decode k c o) :: (List.replicate n (.tick (.decoder k)) ++ s.host) } = .next t ∧
      ∀ m, m < n → ∃ (u : State) (du : Decoder), core.run (m + 1)
        { s with host := .start (.decode k c o) :: (List.replicate m (.tick (.decoder k)) ++ s.host) } = .next u ∧
          u.decs[k]? = some du ∧ du.call = some ⟨c, o⟩

/-- R42: two units that each make a byte step leave the same memory, results, escape bits, commands in progress and working
registers of those, whichever moved first: "their relative order cannot be observed". -/
def Obligations.UnitsDoNotDisturbEachOther : Prop :=
  ∀ (s : State) (e e' : Engine), e ≠ e' → s.mem.wf = true → lentOnce s →
    ∃ s1 s2 t t', turn e s = .next s1 ∧ turn e' s1 = .next t ∧ turn e' s = .next s2 ∧ turn e s2 = .next t' ∧
      observed t = observed t'

/-! ## The host's loop -/

/-- R134, R135, R136, R138: DECODE_ALL on a chunk of whole frames, with any output capacity of at least 1, delivers exactly
their payloads, in order, and ends in Idle with nothing gathered; a host that drops empty payloads delivers the others, and
so it does when an END was sent before each frame (FLUSH). -/
def Obligations.DecodeAllDeliversEveryFrame : Prop :=
  ∀ (s : State) (k : Nat) (d : Decoder) (c o : Buffer) (ps : List (List Byte)) (h : HostStream),
    s.mem.wf = true → DecodeAllowed k c o d s → d.esc = false → 1 ≤ o.len → h.frame = [] → h.discard = false →
    (s.mem.slice c.base c.len = ps.flatMap frame ∨
      (h.dropEmpty = true ∧ s.mem.slice c.base c.len = ps.flatMap fun p => flush (frame p))) →
    ∃ t h' d', decodeAll k c o s h = .next (t, h') ∧ h'.delivered = h.delivered ++ h.kept ps ∧ h'.frame = [] ∧
      h'.discard = false ∧ t.decs[k]? = some d' ∧ d'.esc = false

/-- R137, R134: a frame with bad escapes is discarded whole, what was gathered for it before included, and every frame after
it is delivered. First for either value of XBAD_CONSUMES, where the offending byte is no marker. Then, with the byte not
consumed (R99, D13), for one or more bad escapes whose offending bytes may also be END or ESC, from `esc = 0`, or from
`esc = 1` with an offending byte first. -/
def Obligations.DamagedFrameIsDiscarded : Prop :=
  (∀ (s : State) (k : Nat) (d : Decoder) (c o : Buffer) (q r : List Byte) (x : Byte) (ps : List (List Byte))
    (h : HostStream), s.mem.wf = true → DecodeAllowed k c o d s → 1 ≤ o.len →
    d.esc = false → isPlain x = true → isBadSecond x = true →
    s.mem.slice c.base c.len = q.flatMap stuff ++ [ESC, x] ++ frame r ++ ps.flatMap frame →
    ∃ t h' d', decodeAll k c o s h = .next (t, h') ∧ h'.delivered = h.delivered ++ h.kept ps ∧ h'.frame = [] ∧
      h'.discard = false ∧ t.decs[k]? = some d' ∧ d'.esc = false) ∧
  (∀ (s : State) (k : Nat) (d : Decoder) (c o : Buffer) (qs : List (List Byte)) (r : List Byte) (ps : List (List Byte))
    (h : HostStream), s.mem.wf = true → DecodeAllowed k c o d s → 1 ≤ o.len → s.params.xbadConsumes = false →
    escapesAreBad qs r = true →
    ((d.esc = false ∧ qs ≠ []) ∨ (d.esc = true ∧ beginsBad (damagedFrame qs r) = true)) →
    s.mem.slice c.base c.len = damagedFrame qs r ++ ps.flatMap frame →
    ∃ t h' d', decodeAll k c o s h = .next (t, h') ∧ h'.delivered = h.delivered ++ h.kept ps ∧ h'.frame = [] ∧
      h'.discard = false ∧ t.decs[k]? = some d' ∧ d'.esc = false)

/-! ## Results -/

/-- R158: under any one-to-one numbering the status port tells the kinds of results apart: those of a DECODE, those of an
ENCODE, and `Ok` from every DECODE result but FrameComplete, with which it may share its number, as in D18's suggestion, or
not (log 7). -/
def Obligations.StatusPortTellsResultsApart : Prop :=
  ∀ (c : Config.StatusEnc), oneToOne c = true →
    (∀ r r' : DecResult, decStatus c r = decStatus c r' → sameKind r r' = true) ∧
    (∀ n, encStatus c (.ok n) ≠ encStatus c .capacityExceeded) ∧
    (∀ n r, encStatus c (.ok n) = decStatus c r → ∃ x y, r = .frameComplete x y)
end

