-- ==== Sys2Proof/Laws/Memory.lean ====
section
/-! SUPPORT. The laws of the host's memory: a write is read back, every other byte is as before, the canonical form is kept,
and equal reads mean equal memories. -/

namespace Sys2Proof.Machine

/-- A write leaves every other address alone, whatever the memory. -/
theorem Memory.read_write_of_ne (m : Memory) {a b : Nat} (v : Byte) (h : b ≠ a) :
    (m.write a v).read b = m.read b := by
  induction m with
  | nil => unfold Memory.write; split <;> simp [Memory.read, Ne.symm h]
  | cons x rest ih =>
    obtain ⟨k, w⟩ := x
    unfold Memory.write
    split
    · split <;> simp [Memory.read, Ne.symm h]
    · split
      · next hk => subst hk; split <;> simp [Memory.read, Ne.symm h]
      · simp [Memory.read, ih]

/-- Below the first address a canonical list lists nothing. -/
theorem Memory.read_of_wfFrom_lt {m : Memory} {lo a : Nat} (hm : Memory.wfFrom lo m = true) (ha : a < lo) :
    m.read a = Memory.unlisted := by
  induction m generalizing lo with
  | nil => rfl
  | cons x rest ih =>
    obtain ⟨k, w⟩ := x
    simp only [Memory.wfFrom, Bool.and_eq_true, decide_eq_true_eq] at hm
    have hne : k ≠ a := by omega
    simp only [Memory.read, if_neg hne]
    exact ih hm.2 (by omega)

theorem Memory.wfFrom_mono {m : Memory} {lo lo' : Nat} (hm : Memory.wfFrom lo' m = true) (h : lo ≤ lo') :
    Memory.wfFrom lo m = true := by
  cases m with
  | nil => rfl
  | cons x rest =>
    simp only [Memory.wfFrom, Bool.and_eq_true, decide_eq_true_eq] at hm ⊢
    exact ⟨⟨by omega, hm.1.2⟩, hm.2⟩

/-- A write is read back from a canonical list. -/
theorem Memory.read_write_self_from {m : Memory} {lo a : Nat} (v : Byte) (hm : Memory.wfFrom lo m = true) :
    (m.write a v).read a = v := by
  induction m generalizing lo with
  | nil => unfold Memory.write; split <;> simp_all [Memory.read]
  | cons x rest ih =>
    obtain ⟨k, w⟩ := x
    simp only [Memory.wfFrom, Bool.and_eq_true, decide_eq_true_eq] at hm
    unfold Memory.write
    split
    · split
      · next hlt hv =>
        have hne : k ≠ a := by omega
        rw [hv, Memory.read, if_neg hne]
        exact Memory.read_of_wfFrom_lt hm.2 (by omega)
      · simp [Memory.read]
    · split
      · next hk =>
        split
        · next hv => rw [hv]; exact Memory.read_of_wfFrom_lt hm.2 (by omega)
        · simp [Memory.read]
      · next hk =>
        simp only [Memory.read, if_neg (Ne.symm hk)]
        exact ih hm.2

theorem Memory.read_write_self {m : Memory} (a : Nat) (v : Byte) (hm : m.wf = true) : (m.write a v).read a = v :=
  Memory.read_write_self_from v hm

/-- A write keeps the canonical form. -/
theorem Memory.wfFrom_write {m : Memory} {lo a : Nat} (v : Byte) (hm : Memory.wfFrom lo m = true) (ha : lo ≤ a) :
    Memory.wfFrom lo (m.write a v) = true := by
  induction m generalizing lo with
  | nil => unfold Memory.write; split <;> simp_all [Memory.wfFrom]
  | cons x rest ih =>
    obtain ⟨k, w⟩ := x
    have hm' := hm
    simp only [Memory.wfFrom, Bool.and_eq_true, decide_eq_true_eq] at hm'
    unfold Memory.write
    split
    · split
      · exact hm
      · next hlt hv => simp_all [Memory.wfFrom]
    · split
      · next hk =>
        split
        · exact Memory.wfFrom_mono hm'.2 (by omega)
        · next hv => simp_all [Memory.wfFrom]
      · next hk =>
        simp only [Memory.wfFrom, Bool.and_eq_true, decide_eq_true_eq]
        exact ⟨hm'.1, ih hm'.2 (by omega)⟩

theorem Memory.wf_write {m : Memory} (a : Nat) (v : Byte) (hm : m.wf = true) : (m.write a v).wf = true :=
  Memory.wfFrom_write v hm (Nat.zero_le a)

/-- Filling a window keeps the canonical form. -/
theorem Memory.wf_fill {m : Memory} (a : Nat) (vs : List Byte) (hm : m.wf = true) : (m.fill a vs).wf = true := by
  induction vs generalizing m a with
  | nil => exact hm
  | cons v vs ih => exact ih (a + 1) (Memory.wf_write a v hm)

theorem Memory.ext_from {m m' : Memory} {lo : Nat} (hm : Memory.wfFrom lo m = true) (hm' : Memory.wfFrom lo m' = true)
    (h : ∀ a, m.read a = m'.read a) : m = m' := by
  induction m generalizing m' lo with
  | nil =>
    cases m' with
    | nil => rfl
    | cons y rest' =>
      obtain ⟨k', w'⟩ := y
      have := h k'
      simp_all [Memory.read, Memory.wfFrom]
  | cons x rest ih =>
    obtain ⟨k, w⟩ := x
    cases m' with
    | nil =>
      have := h k
      simp_all [Memory.read, Memory.wfFrom]
    | cons y rest' =>
      obtain ⟨k', w'⟩ := y
      simp only [Memory.wfFrom, Bool.and_eq_true, decide_eq_true_eq, bne_iff_ne, ne_eq] at hm hm'
      have hkk : k = k' := by
        rcases Nat.lt_trichotomy k k' with hlt | heq | hgt
        · exfalso
          have h1 := h k
          rw [Memory.read, if_pos rfl, Memory.read, if_neg (by omega),
            Memory.read_of_wfFrom_lt hm'.2 (by omega)] at h1
          exact hm.1.2 h1
        · exact heq
        · exfalso
          have h1 := h k'
          rw [Memory.read, if_neg (by omega), Memory.read_of_wfFrom_lt hm.2 (by omega), Memory.read, if_pos rfl] at h1
          exact hm'.1.2 h1.symm
      subst hkk
      have hw : w = w' := by have := h k; simpa [Memory.read] using this
      subst hw
      congr 1
      refine ih hm.2 hm'.2 (fun a => ?_)
      by_cases hak : a ≤ k
      · rw [Memory.read_of_wfFrom_lt hm.2 (by omega), Memory.read_of_wfFrom_lt hm'.2 (by omega)]
      · have := h a
        rwa [Memory.read, if_neg (by omega), Memory.read, if_neg (by omega)] at this

/-- Canonical memories that read the same are the same. -/
theorem Memory.ext_of_read {m m' : Memory} (hm : m.wf = true) (hm' : m'.wf = true)
    (h : ∀ a, m.read a = m'.read a) : m = m' :=
  Memory.ext_from hm hm' h

/-- Writes at two addresses can be made in either order. -/
theorem Memory.write_comm {m : Memory} {a b : Nat} (v w : Byte) (hm : m.wf = true) (h : a ≠ b) :
    (m.write a v).write b w = (m.write b w).write a v := by
  refine Memory.ext_of_read (Memory.wf_write _ _ (Memory.wf_write _ _ hm))
    (Memory.wf_write _ _ (Memory.wf_write _ _ hm)) (fun c => ?_)
  by_cases hb : c = b
  · subst hb
    rw [Memory.read_write_self _ _ (Memory.wf_write _ _ hm), Memory.read_write_of_ne _ _ (Ne.symm h),
      Memory.read_write_self _ _ hm]
  · by_cases ha : c = a
    · subst ha
      rw [Memory.read_write_of_ne _ _ h, Memory.read_write_self _ _ hm,
        Memory.read_write_self _ _ (Memory.wf_write _ _ hm)]
    · rw [Memory.read_write_of_ne _ _ hb, Memory.read_write_of_ne _ _ ha, Memory.read_write_of_ne _ _ ha,
        Memory.read_write_of_ne _ _ hb]

@[simp] theorem Memory.slice_zero (m : Memory) (a : Nat) : m.slice a 0 = [] := rfl

@[simp] theorem Memory.length_slice (m : Memory) (a n : Nat) : (m.slice a n).length = n := by
  induction n generalizing a with
  | zero => rfl
  | succ n ih => simp [Memory.slice, ih]

theorem Memory.slice_add (m : Memory) (a n k : Nat) : m.slice a (n + k) = m.slice a n ++ m.slice (a + n) k := by
  induction n generalizing a with
  | zero => simp
  | succ n ih =>
    rw [Nat.add_right_comm, Memory.slice, Memory.slice, List.cons_append, ih, Nat.add_assoc, Nat.add_comm 1 n]

/-- The byte at index `i` of a slice. -/
theorem Memory.getElem?_slice (m : Memory) (a n i : Nat) (h : i < n) : (m.slice a n)[i]? = some (m.read (a + i)) := by
  induction n generalizing a i with
  | zero => omega
  | succ n ih =>
    cases i with
    | zero => simp [Memory.slice]
    | succ i => simp [Memory.slice, ih (a + 1) i (by omega), Nat.add_assoc, Nat.add_comm 1 i]

/-- Memories that read the same in a window have the same slice there. -/
theorem Memory.slice_congr {m m' : Memory} {a n : Nat} (h : ∀ i, i < n → m.read (a + i) = m'.read (a + i)) :
    m.slice a n = m'.slice a n := by
  induction n generalizing a with
  | zero => rfl
  | succ n ih =>
    simp only [Memory.slice]
    congr 1
    · exact h 0 (by omega)
    · refine ih (fun i hi => ?_)
      have := h (i + 1) (by omega)
      rwa [Nat.add_assoc, Nat.add_comm 1 i]

theorem Memory.fill_append (m : Memory) (a : Nat) (vs ws : List Byte) :
    m.fill a (vs ++ ws) = (m.fill a vs).fill (a + vs.length) ws := by
  induction vs generalizing m a with
  | nil => rfl
  | cons v vs ih => simp [Memory.fill, ih, Nat.add_assoc, Nat.add_comm 1]

/-- Filling a window leaves every byte outside it alone. -/
theorem Memory.read_fill_of_outside (m : Memory) {a b : Nat} (vs : List Byte) (h : b < a ∨ a + vs.length ≤ b) :
    (m.fill a vs).read b = m.read b := by
  induction vs generalizing m a with
  | nil => rfl
  | cons v vs ih =>
    simp only [List.length_cons] at h
    rw [Memory.fill, ih _ (by omega), Memory.read_write_of_ne _ _ (by omega)]

/-- What was filled into a window is read back from it. -/
theorem Memory.slice_fill_self {m : Memory} (a : Nat) (vs : List Byte) (hm : m.wf = true) :
    (m.fill a vs).slice a vs.length = vs := by
  induction vs generalizing m a with
  | nil => rfl
  | cons v vs ih =>
    simp only [List.length_cons, Memory.slice, Memory.fill]
    congr 1
    · rw [Memory.read_fill_of_outside _ _ (by omega), Memory.read_write_self _ _ hm]
    · exact ih _ (Memory.wf_write _ _ hm)

/-- Filling a window leaves the slice of a window apart from it alone. -/
theorem Memory.slice_fill_of_apart (m : Memory) {a b n : Nat} (vs : List Byte)
    (h : b + n ≤ a ∨ a + vs.length ≤ b) : (m.fill a vs).slice b n = m.slice b n :=
  Memory.slice_congr fun i hi => Memory.read_fill_of_outside m vs (by omega)

end Sys2Proof.Machine
end

