-- ==== Sys2Proof/Laws/State.lean ====
section
/-! SUPPORT. One lemma per field per update: what the named updates of units and states leave in each field. -/

namespace Sys2Proof.Machine

@[simp] theorem setEsc_esc (d : Decoder) : (setEsc d).esc = true := rfl
@[simp] theorem setEsc_call (d : Decoder) : (setEsc d).call = d.call := rfl
@[simp] theorem setEsc_b (d : Decoder) : (setEsc d).b = d.b := rfl
@[simp] theorem setEsc_di (d : Decoder) : (setEsc d).di = d.di := rfl
@[simp] theorem setEsc_dn (d : Decoder) : (setEsc d).dn = d.dn := rfl
@[simp] theorem setEsc_result (d : Decoder) : (setEsc d).result = d.result := rfl

@[simp] theorem clearEsc_esc (d : Decoder) : (clearEsc d).esc = false := rfl
@[simp] theorem clearEsc_call (d : Decoder) : (clearEsc d).call = d.call := rfl
@[simp] theorem clearEsc_b (d : Decoder) : (clearEsc d).b = d.b := rfl
@[simp] theorem clearEsc_di (d : Decoder) : (clearEsc d).di = d.di := rfl
@[simp] theorem clearEsc_dn (d : Decoder) : (clearEsc d).dn = d.dn := rfl
@[simp] theorem clearEsc_result (d : Decoder) : (clearEsc d).result = d.result := rfl

@[simp] theorem encIdle_call (n : Nat) (r : EncResult) : (encIdle n r).call = none := rfl
@[simp] theorem encIdle_result (n : Nat) (r : EncResult) : (encIdle n r).result = r := rfl
@[simp] theorem decIdle_esc (n : Nat) (e : Bool) (r : DecResult) : (decIdle n e r).esc = e := rfl
@[simp] theorem decIdle_call (n : Nat) (e : Bool) (r : DecResult) : (decIdle n e r).call = none := rfl
@[simp] theorem decIdle_result (n : Nat) (e : Bool) (r : DecResult) : (decIdle n e r).result = r := rfl
@[simp] theorem decFresh_esc (n : Nat) : (decFresh n).esc = false := rfl
@[simp] theorem decFresh_call (n : Nat) : (decFresh n).call = none := rfl

@[simp] theorem encBegun_call (p o : Buffer) (e : Encoder) : (encBegun p o e).call = some ⟨p, o⟩ := rfl
@[simp] theorem encBegun_ei (p o : Buffer) (e : Encoder) : (encBegun p o e).ei = 0 := rfl
@[simp] theorem encBegun_en (p o : Buffer) (e : Encoder) : (encBegun p o e).en = 0 := rfl
@[simp] theorem encBegun_result (p o : Buffer) (e : Encoder) : (encBegun p o e).result = e.result := rfl
@[simp] theorem decBegun_esc (c o : Buffer) (d : Decoder) : (decBegun c o d).esc = d.esc := rfl
@[simp] theorem decBegun_call (c o : Buffer) (d : Decoder) : (decBegun c o d).call = some ⟨c, o⟩ := rfl
@[simp] theorem decBegun_di (c o : Buffer) (d : Decoder) : (decBegun c o d).di = 0 := rfl
@[simp] theorem decBegun_dn (c o : Buffer) (d : Decoder) : (decBegun c o d).dn = 0 := rfl
@[simp] theorem decBegun_result (c o : Buffer) (d : Decoder) : (decBegun c o d).result = d.result := rfl

@[simp] theorem putEnc_params (f : EncFlow) (s : State) : (putEnc f s).params = s.params := by cases f <;> rfl
@[simp] theorem putEnc_decs (f : EncFlow) (s : State) : (putEnc f s).decs = s.decs := by cases f <;> rfl
@[simp] theorem putEnc_host (f : EncFlow) (s : State) : (putEnc f s).host = s.host := by cases f <;> rfl
@[simp] theorem putEnc_goOn_enc (e : Encoder) (m : Memory) (s : State) : (putEnc (.goOn e m) s).enc = e := rfl
@[simp] theorem putEnc_goOn_mem (e : Encoder) (m : Memory) (s : State) : (putEnc (.goOn e m) s).mem = m := rfl
@[simp] theorem putEnc_ended_enc (r : EncResult) (m : Memory) (s : State) :
    (putEnc (.ended r m) s).enc = encIdle s.draws r := rfl
@[simp] theorem putEnc_ended_mem (r : EncResult) (m : Memory) (s : State) : (putEnc (.ended r m) s).mem = m := rfl

@[simp] theorem putDec_params (k : Nat) (f : DecFlow) (s : State) : (putDec k f s).params = s.params := by cases f <;> rfl
@[simp] theorem putDec_enc (k : Nat) (f : DecFlow) (s : State) : (putDec k f s).enc = s.enc := by cases f <;> rfl
@[simp] theorem putDec_host (k : Nat) (f : DecFlow) (s : State) : (putDec k f s).host = s.host := by cases f <;> rfl
@[simp] theorem putDec_goOn_decs (k : Nat) (d : Decoder) (m : Memory) (s : State) :
    (putDec k (.goOn d m) s).decs = s.decs.set k d := rfl
@[simp] theorem putDec_goOn_mem (k : Nat) (d : Decoder) (m : Memory) (s : State) :
    (putDec k (.goOn d m) s).mem = m := rfl
@[simp] theorem putDec_ended_decs (k : Nat) (r : DecResult) (e : Bool) (m : Memory) (s : State) :
    (putDec k (.ended r e m) s).decs = s.decs.set k (decIdle s.draws e r) := rfl
@[simp] theorem putDec_ended_mem (k : Nat) (r : DecResult) (e : Bool) (m : Memory) (s : State) :
    (putDec k (.ended r e m) s).mem = m := rfl

@[simp] theorem putDec_decs_length (k : Nat) (f : DecFlow) (s : State) :
    (putDec k f s).decs.length = s.decs.length := by cases f <;> simp

/-- No instance but `k` changes (10_state R23). -/
theorem putDec_decs_of_ne {j k : Nat} (f : DecFlow) (s : State) (h : j ≠ k) :
    (putDec k f s).decs[j]? = s.decs[j]? := by
  cases f <;> simp [List.getElem?_set_ne (Ne.symm h)]

end Sys2Proof.Machine
end

