-- ==== Sys2Proof/Laws/Ops.lean ====
section
/-! SUPPORT. One lemma per shared operation that says everything it can do. -/

namespace Sys2Proof.Machine

/-- `emit` with room (40_encoder R72). -/
theorem emit_of_room {o : Buffer} {v : Byte} {e : Encoder} {m : Memory} (h : e.en < o.len) :
    emit o v e m = .goOn { e with en := e.en + 1 } (m.write (o.base + e.en) v) := by
  simp [emit, Nat.not_le.mpr h, memWrite]

/-- `emit` with the output full (40_encoder R72). -/
theorem emit_of_full {o : Buffer} {v : Byte} {e : Encoder} {m : Memory} (h : o.len ≤ e.en) :
    emit o v e m = .ended .capacityExceeded m := by
  simp [emit, h, raiseEnc]

/-- `demit` with room (41_decoder R93). -/
theorem demit_of_room {o : Buffer} {v : Byte} {d : Decoder} {m : Memory} (h : d.dn < o.len) :
    demit o v d m = .goOn { d with dn := d.dn + 1 } (m.write (o.base + d.dn) v) := by
  simp [demit, Nat.not_le.mpr h, memWrite]

/-- `demit` with the output full: nothing has changed (41_decoder R93). -/
theorem demit_of_full {o : Buffer} {v : Byte} {d : Decoder} {m : Memory} (h : o.len ≤ d.dn) :
    demit o v d m = .ended (.err .capacityExceeded d.di d.dn) d.esc m := by
  simp [demit, h, raiseDec]

@[simp] theorem EncFlow.goOn_andThen (e : Encoder) (m : Memory) (f : Encoder → Memory → EncFlow) :
    (EncFlow.goOn e m).andThen f = f e m := rfl
@[simp] theorem EncFlow.ended_andThen (r : EncResult) (m : Memory) (f : Encoder → Memory → EncFlow) :
    (EncFlow.ended r m).andThen f = .ended r m := rfl
@[simp] theorem DecFlow.goOn_andThen (d : Decoder) (m : Memory) (f : Decoder → Memory → DecFlow) :
    (DecFlow.goOn d m).andThen f = f d m := rfl
@[simp] theorem DecFlow.ended_andThen (r : DecResult) (esc : Bool) (m : Memory) (f : Decoder → Memory → DecFlow) :
    (DecFlow.ended r esc m).andThen f = .ended r esc m := rfl

/-- A byte operation of the Encoder that answers a next state had its byte selected and did its body. -/
theorem onPayloadByte_next {ok : Bool} {v : Byte} {body : Buffer → Encoder → Memory → EncFlow} {s t : State}
    (h : onPayloadByte ok v body s = .next t) :
    ∃ c, s.enc.call = some c ∧ ok = true ∧ s.enc.ei < c.payload.len ∧
      t = putEnc (body c.encOut { s.enc with b := v } s.mem) s := by
  unfold onPayloadByte at h
  split at h
  · cases h
  · next c hc =>
    split at h
    · next hg =>
      simp only [Bool.and_eq_true, decide_eq_true_eq] at hg
      exact ⟨c, hc, hg.1, hg.2, by simpa using h.symm⟩
    · cases h

/-- A selected byte operation of the Encoder does its body. -/
theorem onPayloadByte_of_selected {v : Byte} {body : Buffer → Encoder → Memory → EncFlow} {s : State} {c : EncCall}
    (hc : s.enc.call = some c) (hi : s.enc.ei < c.payload.len) :
    onPayloadByte true v body s = .next (putEnc (body c.encOut { s.enc with b := v } s.mem) s) := by
  simp [onPayloadByte, hc, hi]

/-- The end-of-payload event answers a next state at the end of the payload only. -/
theorem onPayloadEnd_next {body : Buffer → Encoder → Memory → EncFlow} {s t : State}
    (h : onPayloadEnd body s = .next t) :
    ∃ c, s.enc.call = some c ∧ c.payload.len ≤ s.enc.ei ∧ t = putEnc (body c.encOut s.enc s.mem) s := by
  unfold onPayloadEnd at h
  split at h
  · cases h
  · next c hc =>
    split at h
    · next hg => exact ⟨c, hc, hg, by simpa using h.symm⟩
    · cases h

/-- A byte operation of an instance that answers a next state was selected and did its body. -/
theorem onWireByte_next {k : Nat} {esc ok : Bool} {v : Byte} {body : Buffer → Decoder → Memory → DecFlow} {s t : State}
    (h : onWireByte k esc ok v body s = .next t) :
    ∃ d c, s.decs[k]? = some d ∧ d.call = some c ∧ ok = true ∧ d.esc = esc ∧ d.di < c.chunk.len ∧
      t = putDec k (body c.decOut { d with b := v } s.mem) s := by
  unfold onWireByte at h
  split at h
  · cases h
  · next d hd =>
    split at h
    · cases h
    · next c hc =>
      split at h
      · next hg =>
        simp only [Bool.and_eq_true, decide_eq_true_eq, beq_iff_eq] at hg
        exact ⟨d, c, hd, hc, hg.1.1, hg.1.2, hg.2, by simpa using h.symm⟩
      · cases h

/-- A selected byte operation of an instance does its body. -/
theorem onWireByte_of_selected {k : Nat} {esc : Bool} {v : Byte} {body : Buffer → Decoder → Memory → DecFlow} {s : State}
    {d : Decoder} {c : DecCall} (hd : s.decs[k]? = some d) (hc : d.call = some c) (hi : d.di < c.chunk.len)
    (he : d.esc = esc) : onWireByte k esc true v body s = .next (putDec k (body c.decOut { d with b := v } s.mem) s) := by
  simp [onWireByte, hd, hc, hi, he]

/-- The end-of-chunk event answers a next state at the end of the chunk only. -/
theorem onChunkEnd_next {k : Nat} {body : Decoder → Memory → DecFlow} {s t : State}
    (h : onChunkEnd k body s = .next t) :
    ∃ d c, s.decs[k]? = some d ∧ d.call = some c ∧ c.chunk.len ≤ d.di ∧ t = putDec k (body d s.mem) s := by
  unfold onChunkEnd at h
  split at h
  · cases h
  · next d hd =>
    split at h
    · cases h
    · next c hc =>
      split at h
      · next hg => exact ⟨d, c, hd, hc, hg, by simpa using h.symm⟩
      · cases h

/-- There is no objection to a command exactly when the host keeps its duties (00_scope R6, 20_memory R44, 70 R177). -/
theorem objection_eq_none {running : Bool} {i o : Buffer} {s : State} :
    objection running i o s = none ↔
      running = false ∧ fits s.params i.len = true ∧ fits s.params o.len = true ∧ disjointWindows i o s = true := by
  unfold objection
  cases running <;> cases h1 : fits s.params i.len <;> cases h2 : fits s.params o.len <;>
    cases h3 : disjointWindows i o s <;> simp

/-- A command on the Encoder that answers a next state met no objection and went on from its beginning. -/
theorem onEncoder_next {p o : Buffer} {go : Encoder → Memory → EncFlow} {s t : State}
    (h : onEncoder p o go s = .next t) :
    objection s.enc.call.isSome p o s = none ∧ t = putEnc (go (encBegun p o s.enc) s.mem) s := by
  unfold onEncoder at h
  split at h
  · cases h
  · next ho => exact ⟨ho, by simpa using h.symm⟩

/-- A command on an instance that answers a next state met no objection and went on from its beginning. -/
theorem onDecoder_next {k : Nat} {c o : Buffer} {go : Decoder → Memory → DecFlow} {s t : State}
    (h : onDecoder k c o go s = .next t) :
    ∃ d, s.decs[k]? = some d ∧ objection d.call.isSome c o s = none ∧
      t = putDec k (go (decBegun c o d) s.mem) s := by
  unfold onDecoder at h
  split at h
  · cases h
  · next d hd =>
    split at h
    · cases h
    · next ho => exact ⟨d, hd, ho, by simpa using h.symm⟩

/-- A control operation that answers a next state found its instance idle. -/
theorem onIdleInstance_next {k : Nat} {go : Decoder → State} {s t : State}
    (h : onIdleInstance k go s = .next t) : ∃ d, s.decs[k]? = some d ∧ d.call = none ∧ t = go d := by
  unfold onIdleInstance at h
  split at h
  · cases h
  · next d hd =>
    split at h
    · cases h
    · next hc => exact ⟨d, hd, by simpa using hc, by simpa using h.symm⟩

/-- Resetting an instance that answers a next state found it idle and cleared its `esc` alone (42_control R120, R121). -/
theorem resetInstance_next {k : Nat} {s t : State} (h : resetInstance k s = .next t) :
    ∃ d, s.decs[k]? = some d ∧ d.call = none ∧ t = { s with decs := s.decs.set k (clearEsc d) } :=
  onIdleInstance_next h

/-- Resetting an idle instance completes (42_control R120: it "cannot fail"). -/
theorem resetInstance_of_idle {k : Nat} {s : State} {d : Decoder} (hd : s.decs[k]? = some d) (hc : d.call = none) :
    resetInstance k s = .next { s with decs := s.decs.set k (clearEsc d) } := by
  simp [resetInstance, onIdleInstance, hd, hc]

/-- Two windows share a byte exactly when some address is a byte of both (20_memory R44). -/
theorem sharesByte_iff {a b : Buffer} : a.sharesByte b = true ↔ ∃ x, holds a x = true ∧ holds b x = true := by
  simp only [Buffer.sharesByte, holds, decide_eq_true_eq, Bool.and_eq_true]
  constructor
  · intro h
    exact ⟨max a.base b.base, by omega, by omega⟩
  · rintro ⟨x, ⟨h1, h2⟩, h3, h4⟩
    omega

/-- Filling an abandoned window with any values leaves every byte outside it alone (70 R171). -/
theorem scramble_read_of_outside (draw : Nat) (m : Memory) {a b n : Nat} (h : b < a ∨ a + n ≤ b) :
    (scramble draw m a n).read b = m.read b := by
  induction n generalizing m a with
  | zero => rfl
  | succ n ih => rw [scramble, ih _ (by omega), Memory.read_write_of_ne _ _ (by omega)]

theorem scramble_wf (draw : Nat) {m : Memory} (a n : Nat) (hm : m.wf = true) : (scramble draw m a n).wf = true := by
  induction n generalizing m a with
  | zero => exact hm
  | succ n ih => exact ih (a + 1) (Memory.wf_write _ _ hm)

end Sys2Proof.Machine
end

