-- ==== Sys2Proof/Laws/Bodies.lean ====
section
/-! SUPPORT. What each byte operation does to its unit and the memory, by how much room the output has. -/

namespace Sys2Proof.Machine

/-- E.LIT with room (40_encoder R73). -/
theorem eLitBody_of_room {o : Buffer} {e : Encoder} {m : Memory} (h : e.en < o.len) :
    eLitBody o e m = .goOn { e with ei := e.ei + 1, en := e.en + 1 } (m.write (o.base + e.en) e.b) := by
  simp [eLitBody, emit_of_room h, stepEi]

/-- E.LIT with the output full (40_encoder R73). -/
theorem eLitBody_of_full {o : Buffer} {e : Encoder} {m : Memory} (h : o.len ≤ e.en) :
    eLitBody o e m = .ended .capacityExceeded m := by
  simp [eLitBody, emit_of_full h]

/-- E.END with room for two bytes (40_encoder R74). -/
theorem eEndBody_of_room {o : Buffer} {e : Encoder} {m : Memory} (h : e.en + 1 < o.len) :
    eEndBody o e m = .goOn { e with ei := e.ei + 1, en := e.en + 2 }
      ((m.write (o.base + e.en) ESC).write (o.base + (e.en + 1)) ESC_END) := by
  have h1 : e.en < o.len := by omega
  rw [eEndBody, emit_of_room h1, EncFlow.goOn_andThen, emit_of_room (by exact h)]
  rfl

/-- E.END with room for one byte: the ESC is written (40_encoder R74). -/
theorem eEndBody_of_one {o : Buffer} {e : Encoder} {m : Memory} (h : e.en + 1 = o.len) :
    eEndBody o e m = .ended .capacityExceeded (m.write (o.base + e.en) ESC) := by
  have h1 : e.en < o.len := by omega
  rw [eEndBody, emit_of_room h1, EncFlow.goOn_andThen, emit_of_full (by exact Nat.le_of_eq h.symm)]
  rfl

/-- E.END with the output full (40_encoder R74). -/
theorem eEndBody_of_full {o : Buffer} {e : Encoder} {m : Memory} (h : o.len ≤ e.en) :
    eEndBody o e m = .ended .capacityExceeded m := by
  simp [eEndBody, emit_of_full h]

/-- E.ESC with room for two bytes (40_encoder R75). -/
theorem eEscBody_of_room {o : Buffer} {e : Encoder} {m : Memory} (h : e.en + 1 < o.len) :
    eEscBody o e m = .goOn { e with ei := e.ei + 1, en := e.en + 2 }
      ((m.write (o.base + e.en) ESC).write (o.base + (e.en + 1)) ESC_ESC) := by
  have h1 : e.en < o.len := by omega
  rw [eEscBody, emit_of_room h1, EncFlow.goOn_andThen, emit_of_room (by exact h)]
  rfl

/-- E.ESC with room for one byte: the ESC is written (40_encoder R75). -/
theorem eEscBody_of_one {o : Buffer} {e : Encoder} {m : Memory} (h : e.en + 1 = o.len) :
    eEscBody o e m = .ended .capacityExceeded (m.write (o.base + e.en) ESC) := by
  have h1 : e.en < o.len := by omega
  rw [eEscBody, emit_of_room h1, EncFlow.goOn_andThen, emit_of_full (by exact Nat.le_of_eq h.symm)]
  rfl

/-- E.ESC with the output full (40_encoder R75). -/
theorem eEscBody_of_full {o : Buffer} {e : Encoder} {m : Memory} (h : o.len ≤ e.en) :
    eEscBody o e m = .ended .capacityExceeded m := by
  simp [eEscBody, emit_of_full h]

/-- E.FIN with room (40_encoder R76). -/
theorem eFinBody_of_room {o : Buffer} {e : Encoder} {m : Memory} (h : e.en < o.len) :
    eFinBody o e m = .ended (.ok (e.en + 1)) (m.write (o.base + e.en) END) := by
  simp [eFinBody, emit_of_room h]

/-- E.FIN with the output full (40_encoder R76). -/
theorem eFinBody_of_full {o : Buffer} {e : Encoder} {m : Memory} (h : o.len ≤ e.en) :
    eFinBody o e m = .ended .capacityExceeded m := by
  simp [eFinBody, emit_of_full h]

/-- D.LIT with room (41_decoder R94). -/
theorem dLitBody_of_room {o : Buffer} {d : Decoder} {m : Memory} (h : d.dn < o.len) :
    dLitBody o d m = .goOn { d with di := d.di + 1, dn := d.dn + 1 } (m.write (o.base + d.dn) d.b) := by
  simp [dLitBody, demit_of_room h, stepDi]

/-- D.LIT with the output full (41_decoder R94). -/
theorem dLitBody_of_full {o : Buffer} {d : Decoder} {m : Memory} (h : o.len ≤ d.dn) :
    dLitBody o d m = .ended (.err .capacityExceeded d.di d.dn) d.esc m := by
  simp [dLitBody, demit_of_full h]

/-- D.END (41_decoder R95). -/
theorem dEndBody_eq (o : Buffer) (d : Decoder) (m : Memory) :
    dEndBody o d m = .ended (.frameComplete (d.di + 1) d.dn) d.esc m := rfl

/-- D.ESC (41_decoder R96). -/
theorem dEscBody_eq (o : Buffer) (d : Decoder) (m : Memory) :
    dEscBody o d m = .goOn { d with esc := true, di := d.di + 1 } m := rfl

/-- D.XEND with room (41_decoder R97). -/
theorem dXendBody_of_room {o : Buffer} {d : Decoder} {m : Memory} (h : d.dn < o.len) :
    dXendBody o d m = .goOn { d with esc := false, di := d.di + 1, dn := d.dn + 1 } (m.write (o.base + d.dn) END) := by
  simp [dXendBody, demit_of_room h, stepDi, clearEsc]

/-- D.XEND with the output full: `esc` stays 1 (41_decoder R97). -/
theorem dXendBody_of_full {o : Buffer} {d : Decoder} {m : Memory} (h : o.len ≤ d.dn) :
    dXendBody o d m = .ended (.err .capacityExceeded d.di d.dn) d.esc m := by
  simp [dXendBody, demit_of_full h]

/-- D.XESC with room (41_decoder R98). -/
theorem dXescBody_of_room {o : Buffer} {d : Decoder} {m : Memory} (h : d.dn < o.len) :
    dXescBody o d m = .goOn { d with esc := false, di := d.di + 1, dn := d.dn + 1 } (m.write (o.base + d.dn) ESC) := by
  simp [dXescBody, demit_of_room h, stepDi, clearEsc]

/-- D.XESC with the output full: `esc` stays 1 (41_decoder R98). -/
theorem dXescBody_of_full {o : Buffer} {d : Decoder} {m : Memory} (h : o.len ≤ d.dn) :
    dXescBody o d m = .ended (.err .capacityExceeded d.di d.dn) d.esc m := by
  simp [dXescBody, demit_of_full h]

/-- D.XBAD for either value of XBAD_CONSUMES (41_decoder R99). -/
theorem dXbadBody_eq (x : Bool) (o : Buffer) (d : Decoder) (m : Memory) :
    dXbadBody x o d m = .ended (.err .invalidEscapeSequence (if x then d.di + 1 else d.di) d.dn) false m := by
  cases x <;> rfl

/-- D.EOC (41_decoder R100). -/
theorem dEocBody_eq (d : Decoder) (m : Memory) :
    dEocBody d m = .ended (.frameIncomplete d.di d.dn) d.esc m := rfl

end Sys2Proof.Machine
end

