-- ==== Sys2Proof/Laws/PerInstr.lean ====
section
/-! SUPPORT. A statement made per instruction: a well-formed operation's selector has the format of the operation's row in
spec/opcode_table.json, and the table's reading rule (30_encoding R58) picks that row. -/

namespace Sys2Proof.Laws.EncodedRow

/-- The byte of a selector that has one. -/
def selectorByte : Selector → Option Byte
  | .payload8 v => some v
  | .wire8 _ _ v => some v
  | .endOfPayload | .endOfChunk _ | .call _ => none

/-- The selector of a well-formed operation finds the operation's row. -/
def Statement (i : Instr) : Prop :=
  i.wf = true →
    match selectorByte (encodeOp i) with
    | some v => (tableRow (encodeOp i).format v).map Row.op = some i.op
    | none => (i.op, (encodeOp i).format) ∈ bitlessRows

theorem plain_rows :
    ∀ v : Byte, isPlain v = true →
      (tableRow .payload8 v).map Row.op = some .E_LIT ∧ (tableRow .wire8esc0 v).map Row.op = some .D_LIT := by
  decide

theorem bad_second_rows :
    ∀ v : Byte, isBadSecond v = true → (tableRow .wire8esc1 v).map Row.op = some .D_XBAD := by
  decide

theorem eLit (v : Byte) : Statement (.eLit v) := fun h => (plain_rows v h).1
theorem eEnd : Statement .eEnd := fun _ => rfl
theorem eEsc : Statement .eEsc := fun _ => rfl
theorem eFin : Statement .eFin := fun _ => by simp [selectorByte, encodeOp, bitlessRows, Instr.op, Selector.format]
theorem dLit (k : Nat) (v : Byte) : Statement (.dLit k v) := fun h => (plain_rows v h).2
theorem dEnd (k : Nat) : Statement (.dEnd k) := fun _ => rfl
theorem dEsc (k : Nat) : Statement (.dEsc k) := fun _ => rfl
theorem dXend (k : Nat) : Statement (.dXend k) := fun _ => rfl
theorem dXesc (k : Nat) : Statement (.dXesc k) := fun _ => rfl
theorem dXbad (k : Nat) (v : Byte) : Statement (.dXbad k v) := fun h => bad_second_rows v h
theorem dEoc (k : Nat) : Statement (.dEoc k) := fun _ => by simp [selectorByte, encodeOp, bitlessRows, Instr.op, Selector.format]
theorem encode (p o : Buffer) : Statement (.encode p o) := fun _ => by
  simp [selectorByte, encodeOp, bitlessRows, Instr.op, Selector.format]
theorem decode (k : Nat) (c o : Buffer) : Statement (.decode k c o) := fun _ => by
  simp [selectorByte, encodeOp, bitlessRows, Instr.op, Selector.format]
theorem dreset (k : Nat) : Statement (.dreset k) := fun _ => by
  simp [selectorByte, encodeOp, bitlessRows, Instr.op, Selector.format]
theorem dnew (t : Option Nat) : Statement (.dnew t) := fun _ => by
  simp [selectorByte, encodeOp, bitlessRows, Instr.op, Selector.format]

end Sys2Proof.Laws.EncodedRow
end

