-- ==== Sys2Proof/Laws/Step.lean ====
section
/-! SUPPORT. Everything a unit's turn and a step can do, said once. -/

namespace Sys2Proof.Machine

/-- A turn that answers a next state ran the operation it fetched, or had none to run. -/
theorem turn_cases {e : Engine} {s t : State} (h : turn e s = .next t) :
    (fetch e s = none ∧ t = s) ∨ ∃ i, fetch e s = some i ∧ exec i s = .next t := by
  unfold turn at h
  split at h
  · next i hi => exact .inr ⟨i, hi, h⟩
  · next hi => exact .inl ⟨hi, by simpa using h.symm⟩

/-- An instance that runs a DECODE while none before it does is the first that runs. -/
theorem firstRunning_of_first {ds : List Decoder} {n k : Nat} {d : Decoder} (hd : ds[k]? = some d)
    (hc : d.call.isSome = true) (hb : ∀ j d', j < k → ds[j]? = some d' → d'.call = none) :
    firstRunning n ds = some (n + k) := by
  induction ds generalizing n k with
  | nil => simp at hd
  | cons d0 ds ih =>
    cases k with
    | zero =>
      obtain rfl : d0 = d := by simpa using hd
      simp [firstRunning, hc]
    | succ k =>
      have h0 : d0.call = none := hb 0 d0 (by omega) rfl
      have := ih (n := n + 1) (by simpa using hd) fun j d' hj hj' => hb (j + 1) d' (by omega) (by simpa using hj')
      simpa [firstRunning, h0, Nat.add_right_comm, Nat.add_assoc] using this

/-- Everything a step that answers a next state can have done, once a pending host action is off the list: nothing, one
operation, a command begun, a host write outside the lent windows, or a hardware reset. -/
theorem step_cases {s t : State} (h : step s = .next t) :
    ∃ hs, let s' := { s with host := hs }
      t = s' ∨ (∃ i, exec i s' = .next t) ∨ (∃ p o, onEncoder p o EncFlow.goOn s' = .next t) ∨
      (∃ k c o, onDecoder k c o DecFlow.goOn s' = .next t) ∨
      (∃ a v, (∀ b ∈ lent s, holds b a = false) ∧ t = { s' with mem := s.mem.write a v }) ∨ t = hardReset s' := by
  unfold step at h
  split at h
  · next x rest hx =>
    refine ⟨rest, ?_⟩
    cases x with
    | issue c => exact .inr (.inl ⟨_, h⟩)
    | start c =>
      cases c with
      | encode p o => exact .inr (.inr (.inl ⟨p, o, h⟩))
      | decode k c o => exact .inr (.inr (.inr (.inl ⟨k, c, o, h⟩)))
      | dreset k => exact .inr (.inl ⟨.dreset k, h⟩)
      | dnew x => exact .inr (.inl ⟨.dnew x, h⟩)
    | tick e =>
      rcases turn_cases h with ⟨-, h⟩ | ⟨i, -, h⟩
      · exact .inl h
      · exact .inr (.inl ⟨i, h⟩)
    | store a v =>
      simp only [act, hostStore] at h
      split at h
      · cases h
      · next hl =>
        refine .inr (.inr (.inr (.inr (.inl ⟨a, v, fun b hb => ?_, by simpa using h.symm⟩))))
        exact Bool.eq_false_iff.mpr fun hh => hl (List.any_eq_true.mpr ⟨b, hb, hh⟩)
    | reset => exact .inr (.inr (.inr (.inr (.inr (by simpa [act] using h.symm)))))
  · next hs =>
    refine ⟨s.host, ?_⟩
    split at h
    · rcases turn_cases h with ⟨-, h⟩ | ⟨i, -, h⟩
      · exact .inl h
      · exact .inr (.inl ⟨i, h⟩)
    · exact .inl (by simpa using h.symm)

end Sys2Proof.Machine
end

