-- ==== Sys2Proof/Laws/Wire.lean ====
section
/-! SUPPORT. The markers are distinct (10_state R11); the rows of dstep (41_decoder R103), one lemma each; the symbols of
payload bytes (40_encoder R78). -/

namespace Sys2Proof

@[simp] theorem ESC_ne_END : ESC ≠ END := by decide
@[simp] theorem END_ne_ESC : END ≠ ESC := by decide
@[simp] theorem ESC_END_ne_END : ESC_END ≠ END := by decide
@[simp] theorem END_ne_ESC_END : END ≠ ESC_END := by decide
@[simp] theorem ESC_END_ne_ESC : ESC_END ≠ ESC := by decide
@[simp] theorem ESC_ne_ESC_END : ESC ≠ ESC_END := by decide
@[simp] theorem ESC_ESC_ne_END : ESC_ESC ≠ END := by decide
@[simp] theorem END_ne_ESC_ESC : END ≠ ESC_ESC := by decide
@[simp] theorem ESC_ESC_ne_ESC : ESC_ESC ≠ ESC := by decide
@[simp] theorem ESC_ne_ESC_ESC : ESC ≠ ESC_ESC := by decide
@[simp] theorem ESC_ESC_ne_ESC_END : ESC_ESC ≠ ESC_END := by decide
@[simp] theorem ESC_END_ne_ESC_ESC : ESC_END ≠ ESC_ESC := by decide

namespace Machine

@[simp] theorem dstep_end (full : Bool) : dstep false END full = ⟨false, none, true, .frameComplete⟩ := by
  cases full <;> rfl

@[simp] theorem dstep_esc (full : Bool) : dstep false ESC full = ⟨true, none, true, .nextByte⟩ := by
  cases full <;> rfl

theorem dstep_lit {b : Byte} (h1 : b ≠ END) (h2 : b ≠ ESC) :
    dstep false b false = ⟨false, some b, true, .nextByte⟩ := by
  simp [dstep, h1, h2]

theorem dstep_lit_full {b : Byte} (h1 : b ≠ END) (h2 : b ≠ ESC) :
    dstep false b true = ⟨false, none, false, .error .capacityExceeded⟩ := by
  simp [dstep, h1, h2]

@[simp] theorem dstep_xend : dstep true ESC_END false = ⟨false, some END, true, .nextByte⟩ := rfl

@[simp] theorem dstep_xend_full : dstep true ESC_END true = ⟨true, none, false, .error .capacityExceeded⟩ := rfl

@[simp] theorem dstep_xesc : dstep true ESC_ESC false = ⟨false, some ESC, true, .nextByte⟩ := rfl

@[simp] theorem dstep_xesc_full : dstep true ESC_ESC true = ⟨true, none, false, .error .capacityExceeded⟩ := rfl

theorem dstep_xbad {b : Byte} (full : Bool) (h1 : b ≠ ESC_END) (h2 : b ≠ ESC_ESC) :
    dstep true b full = ⟨false, none, false, .error .invalidEscapeSequence⟩ := by
  cases full <;> simp [dstep, h1, h2]

@[simp] theorem stuff_end : stuff END = [ESC, ESC_END] := rfl

@[simp] theorem stuff_esc : stuff ESC = [ESC, ESC_ESC] := rfl

theorem stuff_plain {b : Byte} (h1 : b ≠ END) (h2 : b ≠ ESC) : stuff b = [b] := by
  simp [stuff, h1, h2]

end Machine

end Sys2Proof
end

