-- ==== Sys2Proof/Tests/Slice0.lean ====
section
/-! SUPPORT. Tests of the model against the vectors of spec/95_test_vectors.md (E, V, Q, K, S), words written out from
30_encoding, and for every statement with hypotheses a concrete state and operands that meet them. -/

namespace Sys2Proof.Tests

open Sys2Proof.Machine

/-! ## Small states: the input at address 0, the output window at address 16 -/

/-- An ENCODE of `payload` in progress, with `ei` and `en` as given and capacity `cap`. -/
def encoding (payload : List Byte) (ei en cap : Nat) : State :=
  { State.reset with
    enc := { Encoder.reset with call := some ⟨⟨0, payload.length⟩, ⟨16, cap⟩⟩, ei := ei, en := en }
    mem := Memory.fill [] 0 payload }

/-- A DECODE of `chunk` in progress on instance 0, with `esc`, `di` and `dn` as given and capacity `cap`. -/
def decoding (esc : Bool) (chunk : List Byte) (di dn cap : Nat) : State :=
  { State.reset with
    decs := [{ Decoder.reset with
      esc := esc, call := some ⟨⟨0, chunk.length⟩, ⟨16, cap⟩⟩, di := di, dn := dn }]
    mem := Memory.fill [] 0 chunk }

/-- No command in progress, `esc` of instance 0 as given, the input in place. -/
def ready (esc : Bool) (input : List Byte) : State :=
  { State.reset with decs := [{ Decoder.reset with esc := esc }], mem := Memory.fill [] 0 input }

/-- Instance 0 of `ready`. -/
def idleDec (esc : Bool) : Decoder := { Decoder.reset with esc := esc }

/-- Instance 0 of `decoding`. -/
def busyDec (esc : Bool) (len di dn cap : Nat) : Decoder :=
  { Decoder.reset with esc := esc, call := some ⟨⟨0, len⟩, ⟨16, cap⟩⟩, di := di, dn := dn }

/-- The state an outcome is, if it is a next state. -/
def stateOf : Result → Option State
  | .next s => some s
  | .fault _ => none
  | .refused _ => none

/-- Why an outcome is a refusal, if it is one. -/
def whyOf : Result → Option Refusal
  | .next _ => none
  | .fault _ => none
  | .refused r => some r

/-- ENC_RESULT and `ENC_OUT[0 .. n)`. -/
def encSees (n : Nat) (r : Result) : Option (EncResult × List Byte) :=
  (stateOf r).map fun s => (s.enc.result, s.mem.slice 16 n)

/-- DEC_RESULT, `esc` and `DEC_OUT[0 .. n)` of instance 0. -/
def decSees (n : Nat) (r : Result) : Option (Option (DecResult × Bool) × List Byte) :=
  (stateOf r).map fun s => (s.decs[0]?.map fun d => (d.result, d.esc), s.mem.slice 16 n)

/-- `ei`, `en` and `ENC_OUT[0 .. n)` of an ENCODE that goes on. -/
def encMoves (n : Nat) (r : Result) : Option (Nat × Nat × List Byte) :=
  (stateOf r).map fun s => (s.enc.ei, s.enc.en, s.mem.slice 16 n)

/-- `esc`, `di`, `dn` and `DEC_OUT[0 .. n)` of a DECODE that goes on. -/
def decMoves (n : Nat) (r : Result) : Option (Option (Bool × Nat × Nat) × List Byte) :=
  (stateOf r).map fun s => (s.decs[0]?.map fun d => (d.esc, d.di, d.dn), s.mem.slice 16 n)

/-! ## Well-formedness -/

theorem test_wf_eLit_refuses_END : (Instr.eLit 0xC0#8).wf = false := by decide
theorem test_wf_eLit_refuses_ESC : (Instr.eLit 0xDB#8).wf = false := by decide
theorem test_wf_dLit_refuses_END : (Instr.dLit 0 0xC0#8).wf = false := by decide
theorem test_wf_dLit_refuses_ESC : (Instr.dLit 0 0xDB#8).wf = false := by decide
theorem test_wf_dXbad_refuses_ESC_END : (Instr.dXbad 0 0xDC#8).wf = false := by decide
theorem test_wf_dXbad_refuses_ESC_ESC : (Instr.dXbad 0 0xDD#8).wf = false := by decide
theorem test_wf_encode_refuses_overlap : (Instr.encode ⟨0, 4⟩ ⟨3, 8⟩).wf = false := by decide
theorem test_wf_decode_refuses_overlap : (Instr.decode 0 ⟨8, 4⟩ ⟨4, 5⟩).wf = false := by decide
theorem test_wf_adjacent_windows : (Instr.encode ⟨0, 4⟩ ⟨4, 8⟩).wf = true := by decide

/-! ## Decoding: words written out bit by bit (30_encoding R56, R57; 95 part 2.5) -/

theorem test_word_eEnd : decodeTableWord 8 0b11000000 = some .eEnd := by decide
theorem test_word_eEsc : decodeTableWord 8 0b11011011 = some .eEsc := by decide
theorem test_word_eLit : decodeTableWord 8 0b01000001 = some (.eLit 0x41#8) := by decide
theorem test_word_eFin : decodeTableWord 0 0 = some .eFin := by decide
theorem test_word_dEnd : decodeOp (.wire8 0 false 0b11000000#8) = .dEnd 0 := by decide
theorem test_word_dEsc : decodeOp (.wire8 0 false 0b11011011#8) = .dEsc 0 := by decide
theorem test_word_dLit : decodeOp (.wire8 0 false 0b11011100#8) = .dLit 0 0xDC#8 := by decide
theorem test_word_dXend : decodeOp (.wire8 0 true 0b11011100#8) = .dXend 0 := by decide
theorem test_word_dXesc : decodeOp (.wire8 0 true 0b11011101#8) = .dXesc 0 := by decide
theorem test_word_dXbad_END : decodeOp (.wire8 0 true 0b11000000#8) = .dXbad 0 0xC0#8 := by decide
theorem test_word_dXbad_ESC : decodeOp (.wire8 0 true 0b11011011#8) = .dXbad 0 0xDB#8 := by decide
theorem test_word_dEoc : decodeOp (.endOfChunk 3) = .dEoc 3 := by decide
theorem test_word_encode : decodeOp (.call (.encode ⟨0, 1⟩ ⟨1, 3⟩)) = .encode ⟨0, 1⟩ ⟨1, 3⟩ := by decide
theorem test_word_decode : decodeOp (.call (.decode 1 ⟨0, 1⟩ ⟨1, 3⟩)) = .decode 1 ⟨0, 1⟩ ⟨1, 3⟩ := by decide
theorem test_word_dreset : decodeOp (.call (.dreset 2)) = .dreset 2 := by decide
theorem test_word_dnew : decodeOp (.call (.dnew none)) = .dnew none := by decide
/-- "Counts: E.LIT 254 values" (95 part 2.5). -/
theorem test_literal_count : ((List.range 256).filter fun v => isPlain (BitVec.ofNat 8 v)).length = 254 := by
  set_option maxRecDepth 4000 in decide
theorem test_payload_bytes : decodePayloadBytes [0xC0#8, 0x41#8] = (.eEnd, [0x41#8]) := by decide
theorem test_wire_bytes : decodeWireBytes 0 true [0xDD#8, 0xC0#8] = (.dXesc 0, [0xC0#8]) := by decide
theorem test_no_bytes : decodeWireBytes 0 true [] = (.dEoc 0, []) := by decide

/-! ## Byte operations of the encoder -/

/-- E4, first operation. -/
theorem test_eLit : encMoves 2 (exec (.eLit 0x41#8) (encoding [0x41#8] 0 0 2)) = some (1, 1, [0x41#8, 0x00#8]) := by decide
/-- E8. -/
theorem test_eLit_full :
    encSees 1 (exec (.eLit 0x41#8) (encoding [0x41#8] 0 0 0)) = some (.capacityExceeded, [0x00#8]) := by decide
/-- E9, first operation. -/
theorem test_eEnd : encMoves 3 (exec .eEnd (encoding [0xC0#8] 0 0 3)) = some (1, 2, [0xDB#8, 0xDC#8, 0x00#8]) := by decide
/-- E11: "one byte of room: ESC written, second `emit` fails". -/
theorem test_eEnd_one : encSees 2 (exec .eEnd (encoding [0xC0#8] 0 0 1)) = some (.capacityExceeded, [0xDB#8, 0x00#8]) := by
  decide
/-- E13, first operation. -/
theorem test_eEsc : encMoves 3 (exec .eEsc (encoding [0xDB#8] 0 0 3)) = some (1, 2, [0xDB#8, 0xDD#8, 0x00#8]) := by decide
/-- E14. -/
theorem test_eEsc_one : encSees 2 (exec .eEsc (encoding [0xDB#8] 0 0 1)) = some (.capacityExceeded, [0xDB#8, 0x00#8]) := by
  decide
/-- E3: the tail is untouched. -/
theorem test_eFin : encSees 3 (exec .eFin (encoding [] 0 0 3)) = some (.ok 1, [0xC0#8, 0x00#8, 0x00#8]) := by decide
/-- E2. -/
theorem test_eFin_full : encSees 1 (exec .eFin (encoding [] 0 0 0)) = some (.capacityExceeded, [0x00#8]) := by decide

/-! ## Byte operations of a decoder -/

/-- V28, first operation. -/
theorem test_dLit : decMoves 2 (exec (.dLit 0 0x41#8) (decoding false [0x41#8, 0xC0#8] 0 0 5)) =
    some (some (false, 1, 1), [0x41#8, 0x00#8]) := by decide
/-- V22, last operation. -/
theorem test_dLit_full : decSees 0 (exec (.dLit 0 0x43#8) (decoding false [0x41#8, 0x42#8, 0x43#8, 0xC0#8] 2 2 2)) =
    some (some (.err .capacityExceeded 2 2, false), []) := by decide
/-- V1: END needs no room. -/
theorem test_dEnd : decSees 1 (exec (.dEnd 0) (decoding false [0xC0#8] 0 0 0)) =
    some (some (.frameComplete 1 0, false), [0x00#8]) := by decide
/-- V19, first operation. -/
theorem test_dEsc : decMoves 1 (exec (.dEsc 0) (decoding false [0xDB#8] 0 0 0)) = some (some (true, 1, 0), [0x00#8]) := by
  decide
/-- V2, second operation. -/
theorem test_dXend : decMoves 1 (exec (.dXend 0) (decoding true [0xDB#8, 0xDC#8, 0xC0#8] 1 0 1)) =
    some (some (false, 2, 1), [0xC0#8]) := by decide
/-- V23, last operation: `consumed = 2`, `esc = 1`. -/
theorem test_dXend_full : decSees 0 (exec (.dXend 0) (decoding true [0x41#8, 0xDB#8, 0xDC#8, 0xC0#8] 2 1 1)) =
    some (some (.err .capacityExceeded 2 1, true), []) := by decide
/-- V3, second operation. -/
theorem test_dXesc : decMoves 1 (exec (.dXesc 0) (decoding true [0xDB#8, 0xDD#8, 0xC0#8] 1 0 1)) =
    some (some (false, 2, 1), [0xDB#8]) := by decide
/-- V13, last operation: 0x05 is not consumed. -/
theorem test_dXbad : decSees 0 (exec (.dXbad 0 0x05#8) (decoding true [0xDB#8, 0x05#8, 0xC0#8] 1 0 4)) =
    some (some (.err .invalidEscapeSequence 1 0, false), []) := by decide
/-- V17: with no room it is still InvalidEscapeSequence. -/
theorem test_dXbad_full : decSees 0 (exec (.dXbad 0 0x00#8) (decoding true [0x00#8] 0 0 0)) =
    some (some (.err .invalidEscapeSequence 0 0, false), []) := by decide
/-- V8: an empty chunk keeps `esc = 1`. -/
theorem test_dEoc : decSees 0 (exec (.dEoc 0) (decoding true [] 0 0 4)) =
    some (some (.frameIncomplete 0 0, true), []) := by decide
/-- V10, last operation. -/
theorem test_dEoc_inside_pair : decSees 0 (exec (.dEoc 0) (decoding true [0x01#8, 0xDB#8] 2 1 4)) =
    some (some (.frameIncomplete 2 1, true), []) := by decide

/-! ## Commands -/

/-- E5, S3. -/
theorem test_encode : encSees 7 (exec (.encode ⟨0, 4⟩ ⟨16, 7⟩) (ready false [0x01#8, 0xC0#8, 0xDB#8, 0x02#8])) =
    some (.ok 7, [0x01#8, 0xDB#8, 0xDC#8, 0xDB#8, 0xDD#8, 0x02#8, 0xC0#8]) := by decide
/-- E25: ESC written at the last index, then failure. -/
theorem test_encode_short : encSees 3 (exec (.encode ⟨0, 2⟩ ⟨16, 2⟩) (ready false [0x41#8, 0xC0#8])) =
    some (.capacityExceeded, [0x41#8, 0xDB#8, 0x00#8]) := by decide
/-- V4, inverse of S3. -/
theorem test_decode :
    decSees 4 (exec (.decode 0 ⟨0, 7⟩ ⟨16, 4⟩)
      (ready false [0x01#8, 0xDB#8, 0xDC#8, 0xDB#8, 0xDD#8, 0x02#8, 0xC0#8])) =
    some (some (.frameComplete 7 4, false), [0x01#8, 0xC0#8, 0xDB#8, 0x02#8]) := by decide
/-- V20: `esc` stays 1. -/
theorem test_decode_full : decSees 0 (exec (.decode 0 ⟨0, 2⟩ ⟨16, 0⟩) (ready false [0xDB#8, 0xDC#8])) =
    some (some (.err .capacityExceeded 1 0, true), []) := by decide
/-- K1. -/
theorem test_dreset : decSees 0 (exec (.dreset 0) (ready true [])) =
    some (some (.frameIncomplete 0 0, false), []) := by decide
/-- K3: one more instance, with `esc = 0`. -/
theorem test_dnew : (stateOf (exec (.dnew none) (ready true []))).map (fun s => s.decs.map fun d => d.esc) =
    some [true, false] := by decide
/-- "In hardware with a fixed number of instances DNEW on an existing instance has the same effect as DRESET" (R121). -/
theorem test_dnew_existing : decSees 0 (exec (.dnew (some 0)) (ready true [])) =
    some (some (.frameIncomplete 0 0, false), []) := by decide

/-! ## Steps -/

/-- A word placed after reset runs as the first operation: 0xC0 is E.END (S1). -/
theorem test_fetch_eEnd : encMoves 0 (step (State.reset.withFetchWord 8 0xC0)) = some (1, 2, []) := by decide
/-- 0xDC is read as D.XEND (log 11), which writes END. -/
theorem test_fetch_dXend : (stateOf (step (State.reset.withFetchWord 8 0xDC))).map (fun s => s.mem.read 1) =
    some 0xC0#8 := by decide
/-- No bits is E.FIN. -/
theorem test_fetch_eFin : (stateOf (step (State.reset.withFetchWord 0 0))).map (fun s => s.enc.result) = some (.ok 1) := by
  decide
/-- K4: after reset `DECODE([0x07, 0xC0], 1)`, issued as the host's action. -/
theorem test_step_issue :
    decSees 1 (step { ready false [0x07#8, 0xC0#8] with host := [.issue (.decode 0 ⟨0, 2⟩ ⟨16, 1⟩)] }) =
    some (some (.frameComplete 2 1, false), [0x07#8]) := by decide
/-- A host write (R32). -/
theorem test_step_store : (stateOf (step { State.reset with host := [.store 3 0x41#8] })).map (fun s => s.mem) =
    some [(3, 0x41#8)] := by decide
/-- Reset during a command leaves `esc = 0` and no command (R171). -/
theorem test_step_reset :
    (stateOf (step { decoding true [0xDC#8] 0 0 4 with host := [.reset] })).map
      (fun s => s.decs.map fun d => (d.esc, d.call)) = some [(false, none)] := by decide
/-- A byte operation the maps do not select has no meaning. -/
theorem test_not_selected : whyOf (exec (.dXend 0) (decoding false [0xDC#8] 0 0 4)) = some .notSelected := by decide
/-- A command to an instance that does not exist has no meaning. -/
theorem test_no_such_instance : whyOf (exec (.dreset 1) State.reset) = some .noSuchInstance := by decide

/-! ## The host's loop (43_host_protocol R134) -/

/-- P2: two frames in one chunk are both delivered. -/
theorem test_decodeAll_two_frames :
    (match decodeAll 0 ⟨0, 4⟩ ⟨16, 4⟩ (ready false [0x01#8, 0xC0#8, 0x02#8, 0xC0#8]) (HostStream.start false) with
      | .next (_, h) => h.delivered
      | .fault _ => []
      | .refused _ => []) = [[0x01#8], [0x02#8]] := by decide
/-- With `cap = 0` a literal never finds room, and the loop does not end (R134, R184; log 15). -/
theorem test_decodeAll_no_room :
    (match decodeAll 0 ⟨0, 2⟩ ⟨16, 0⟩ (ready false [0xC0#8, 0x07#8]) (HostStream.start false) with
      | .next _ => none
      | .fault _ => none
      | .refused r => some r) = some .noProgress := by decide
/-- S4: after a bad escape the next frame decodes. -/
theorem test_decodeAll_resynchronises :
    (match decodeAll 0 ⟨0, 5⟩ ⟨16, 4⟩ (ready false [0xDB#8, 0x05#8, 0xC0#8, 0x07#8, 0xC0#8]) (HostStream.start false) with
      | .next (_, h) => h.delivered
      | .fault _ => []
      | .refused _ => []) = [[0x07#8]] := by decide

/-! ## Witnesses: for every statement with hypotheses, a state and operands that meet them all, clause by clause -/

/-- A result that is an error. -/
def isErr : DecResult → Bool
  | .frameComplete _ _ => false
  | .frameIncomplete _ _ => false
  | .err _ _ _ => true

/-- An instance whose DECODE runs on windows at 32 and 48, for two commands at once. -/
def otherDec (chunkLen cap : Nat) : Decoder :=
  { Decoder.reset with call := some ⟨⟨32, chunkLen⟩, ⟨48, cap⟩⟩ }

/-- An ENCODE and a DECODE in progress at once, on disjoint windows. -/
def twoRunning : State :=
  { encoding [0x41#8, 0xC0#8] 0 0 4 with decs := [otherDec 2 3] }

/-- The parameters with LEN_BITS = 3. -/
def threeBits : Config.Params := { Config.specParams with lenBits := some 3 }

theorem test_witness_DecodeOfEncodeIsTheInstruction :
    (Instr.eLit 0xBF#8).wf = true ∧ (Instr.dLit 5 0xC1#8).wf = true ∧ (Instr.dXbad 5 0xDE#8).wf = true ∧
    (Instr.decode 5 ⟨0, 3⟩ ⟨3, 1⟩).wf = true := by decide
theorem test_witness_EncodeOfDecodeIsTheSelector : ∀ c, Selector.wire8 0 true 0xDE#8 ≠ .call c := by simp
theorem test_witness_StepRunsTheSelectedOperation_encoder :
    (encoding [0x41#8] 0 0 2).host = [] ∧ (encoding [0x41#8] 0 0 2).enc.call = some ⟨⟨0, 1⟩, ⟨16, 2⟩⟩ := by decide
/-- Instance 1 is the first that runs. -/
theorem test_witness_StepRunsTheSelectedOperation_instance :
    let s := { decoding true [0xDC#8] 0 0 2 with decs := [idleDec false, busyDec true 1 0 0 2] }
    s.host = [] ∧ s.enc.call = none ∧ s.decs[1]? = some (busyDec true 1 0 0 2) ∧
      (busyDec true 1 0 0 2).call = some ⟨⟨0, 1⟩, ⟨16, 2⟩⟩ ∧
      ∀ j d', j < 1 → s.decs[j]? = some d' → d'.call = none := by
  refine ⟨rfl, rfl, rfl, rfl, ?_⟩
  intro j d' hj hd
  obtain rfl : j = 0 := by omega
  exact (Option.some.inj hd) ▸ rfl
theorem test_witness_StepRunsTheSelectedOperation_tick :
    let s := { encoding [0x41#8] 1 1 2 with host := [.tick .encoder] }
    s.host = .tick .encoder :: [] ∧ s.enc.call = some ⟨⟨0, 1⟩, ⟨16, 2⟩⟩ := by decide
theorem test_witness_StepRunsTheSelectedOperation_decoder :
    let s := { decoding true [0xDC#8] 0 0 2 with host := [.tick (.decoder 0)] }
    s.host = .tick (.decoder 0) :: [] ∧ s.decs[0]? = some (busyDec true 1 0 0 2) ∧
      (busyDec true 1 0 0 2).call = some ⟨⟨0, 1⟩, ⟨16, 2⟩⟩ := by decide
theorem test_witness_StepRunsTheIssuedCommand :
    ({ State.reset with host := [.issue (.dnew none), .reset] } : State).host = .issue (.dnew none) :: [.reset] := by decide
theorem test_witness_IdleBlockDoesNothing : State.reset.host = [] ∧ allIdle State.reset = true := by decide
theorem test_witness_SelectedOperationCompletes :
    fetch .encoder (encoding [0xC0#8] 0 0 2) = some .eEnd ∧ fetch (.decoder 0) (decoding true [] 0 0 2) = some (.dEoc 0) := by
  decide
theorem test_witness_StepWithoutHostCompletes : twoRunning.host = [] := by decide

theorem test_witness_ELit_room :
    let s := encoding [0x41#8] 0 0 1
    let c : EncCall := ⟨⟨0, 1⟩, ⟨16, 1⟩⟩
    s.enc.call = some c ∧ s.enc.ei < c.payload.len ∧ (0x41#8 : Byte) ≠ 0xC0#8 ∧ (0x41#8 : Byte) ≠ 0xDB#8 ∧
      s.enc.en < c.encOut.len := by decide
theorem test_witness_ELit_full :
    let s := encoding [0x41#8, 0xDC#8] 1 1 1
    let c : EncCall := ⟨⟨0, 2⟩, ⟨16, 1⟩⟩
    s.enc.call = some c ∧ s.enc.ei < c.payload.len ∧ (0xDC#8 : Byte) ≠ 0xC0#8 ∧ (0xDC#8 : Byte) ≠ 0xDB#8 ∧
      c.encOut.len ≤ s.enc.en := by decide
/-- E.END and E.ESC ask the same of the state: here with room for two bytes. -/
theorem test_witness_EEnd_EEsc_room :
    let s := encoding [0xC0#8] 0 0 2
    let c : EncCall := ⟨⟨0, 1⟩, ⟨16, 2⟩⟩
    s.enc.call = some c ∧ s.enc.ei < c.payload.len ∧ s.enc.en + 1 < c.encOut.len := by decide
theorem test_witness_EEnd_EEsc_one :
    let s := encoding [0xDB#8] 0 0 1
    let c : EncCall := ⟨⟨0, 1⟩, ⟨16, 1⟩⟩
    s.enc.call = some c ∧ s.enc.ei < c.payload.len ∧ s.enc.en + 1 = c.encOut.len := by decide
theorem test_witness_EEnd_EEsc_full :
    let s := encoding [0xDB#8] 0 0 0
    let c : EncCall := ⟨⟨0, 1⟩, ⟨16, 0⟩⟩
    s.enc.call = some c ∧ s.enc.ei < c.payload.len ∧ c.encOut.len ≤ s.enc.en := by decide
theorem test_witness_EFin_room :
    let s := encoding [0x41#8] 1 1 2
    let c : EncCall := ⟨⟨0, 1⟩, ⟨16, 2⟩⟩
    s.enc.call = some c ∧ s.enc.ei = c.payload.len ∧ s.enc.en < c.encOut.len := by decide
theorem test_witness_EFin_full :
    let s := encoding [0x41#8] 1 1 1
    let c : EncCall := ⟨⟨0, 1⟩, ⟨16, 1⟩⟩
    s.enc.call = some c ∧ s.enc.ei = c.payload.len ∧ c.encOut.len ≤ s.enc.en := by decide
theorem test_witness_EncoderByteOperationsFrame : ∃ t, exec .eEnd (encoding [0xC0#8] 0 0 2) = .next t := ⟨_, rfl⟩
theorem test_witness_EncoderByteOperationsFrame_eLit : ∃ t, exec (.eLit 0x41#8) (encoding [0x41#8] 0 0 1) = .next t :=
  ⟨_, rfl⟩
theorem test_witness_EncoderByteOperationsFrame_eEsc : ∃ t, exec .eEsc (encoding [0xDB#8] 0 0 1) = .next t := ⟨_, rfl⟩
theorem test_witness_EncoderByteOperationsFrame_eFin : ∃ t, exec .eFin (encoding [] 0 0 1) = .next t := ⟨_, rfl⟩

theorem test_witness_DLit_room :
    let s := decoding false [0x41#8] 0 0 1
    let d := busyDec false 1 0 0 1
    let c : DecCall := ⟨⟨0, 1⟩, ⟨16, 1⟩⟩
    s.decs[0]? = some d ∧ d.call = some c ∧ d.di < c.chunk.len ∧ d.esc = false ∧ (0x41#8 : Byte) ≠ 0xC0#8 ∧
      (0x41#8 : Byte) ≠ 0xDB#8 ∧ d.dn < c.decOut.len := by decide
theorem test_witness_DLit_full :
    let s := decoding false [0x41#8, 0xDD#8] 1 1 1
    let d := busyDec false 2 1 1 1
    let c : DecCall := ⟨⟨0, 2⟩, ⟨16, 1⟩⟩
    s.decs[0]? = some d ∧ d.call = some c ∧ d.di < c.chunk.len ∧ d.esc = false ∧ (0xDD#8 : Byte) ≠ 0xC0#8 ∧
      (0xDD#8 : Byte) ≠ 0xDB#8 ∧ c.decOut.len ≤ d.dn := by decide
/-- D.END and D.ESC ask the same of the state; here with no room at all. -/
theorem test_witness_DEnd_DEsc :
    let s := decoding false [0xC0#8] 0 0 0
    let d := busyDec false 1 0 0 0
    let c : DecCall := ⟨⟨0, 1⟩, ⟨16, 0⟩⟩
    s.decs[0]? = some d ∧ d.call = some c ∧ d.di < c.chunk.len ∧ d.esc = false := by decide
/-- D.XEND and D.XESC ask the same of the state. -/
theorem test_witness_DXend_DXesc_room :
    let s := decoding true [0xDC#8] 0 0 1
    let d := busyDec true 1 0 0 1
    let c : DecCall := ⟨⟨0, 1⟩, ⟨16, 1⟩⟩
    s.decs[0]? = some d ∧ d.call = some c ∧ d.di < c.chunk.len ∧ d.esc = true ∧ d.dn < c.decOut.len := by decide
theorem test_witness_DXend_DXesc_full :
    let s := decoding true [0xDD#8] 0 0 0
    let d := busyDec true 1 0 0 0
    let c : DecCall := ⟨⟨0, 1⟩, ⟨16, 0⟩⟩
    s.decs[0]? = some d ∧ d.call = some c ∧ d.di < c.chunk.len ∧ d.esc = true ∧ c.decOut.len ≤ d.dn := by decide
theorem test_witness_DXbadRaisesInvalidEscape :
    let s := decoding true [0xC0#8] 0 0 0
    let d := busyDec true 1 0 0 0
    let c : DecCall := ⟨⟨0, 1⟩, ⟨16, 0⟩⟩
    s.decs[0]? = some d ∧ d.call = some c ∧ d.di < c.chunk.len ∧ d.esc = true ∧ (0xC0#8 : Byte) ≠ 0xDC#8 ∧
      (0xC0#8 : Byte) ≠ 0xDD#8 := by decide
theorem test_witness_DEocReturnsFrameIncomplete :
    let s := decoding true [0xDB#8] 1 0 0
    let d := busyDec true 1 1 0 0
    let c : DecCall := ⟨⟨0, 1⟩, ⟨16, 0⟩⟩
    s.decs[0]? = some d ∧ d.call = some c ∧ d.di = c.chunk.len := by decide
theorem test_witness_DecoderTurnIsDstep :
    let s := decoding true [0xDC#8] 0 0 0
    let d := busyDec true 1 0 0 0
    let c : DecCall := ⟨⟨0, 1⟩, ⟨16, 0⟩⟩
    s.params.xbadConsumes = false ∧ s.decs[0]? = some d ∧ d.call = some c ∧ d.di < c.chunk.len ∧
      s.mem.read (c.chunk.base + d.di) = 0xDC#8 := by decide
theorem test_witness_DecoderStoringOperationsFrame_dLit : ∃ t, exec (.dLit 0 0x41#8) (decoding false [0x41#8] 0 0 1) = .next t :=
  ⟨_, rfl⟩
theorem test_witness_DecoderStoringOperationsFrame_dXend : ∃ t, exec (.dXend 0) (decoding true [0xDC#8] 0 0 1) = .next t :=
  ⟨_, rfl⟩
theorem test_witness_DecoderStoringOperationsFrame_dXesc : ∃ t, exec (.dXesc 0) (decoding true [0xDD#8] 0 0 0) = .next t :=
  ⟨_, rfl⟩

theorem test_witness_NonStoringOperationsFrame_dEnd : ∃ t, exec (.dEnd 0) (decoding false [0xC0#8] 0 0 0) = .next t := ⟨_, rfl⟩
theorem test_witness_NonStoringOperationsFrame_dEsc : ∃ t, exec (.dEsc 0) (decoding false [0xDB#8] 0 0 0) = .next t := ⟨_, rfl⟩
theorem test_witness_NonStoringOperationsFrame_dXbad : ∃ t, exec (.dXbad 0 0xDB#8) (decoding true [0xDB#8] 0 0 0) = .next t :=
  ⟨_, rfl⟩
theorem test_witness_NonStoringOperationsFrame_dEoc : ∃ t, exec (.dEoc 0) (decoding true [] 0 0 0) = .next t := ⟨_, rfl⟩
theorem test_witness_NonStoringOperationsFrame_dreset : ∃ t, exec (.dreset 0) (ready true []) = .next t := ⟨_, rfl⟩
theorem test_witness_NonStoringOperationsFrame_dnew_some : ∃ t, exec (.dnew (some 0)) (ready true []) = .next t := ⟨_, rfl⟩
theorem test_witness_NonStoringOperationsFrame_dnew_none : ∃ t, exec (.dnew none) (ready true []) = .next t := ⟨_, rfl⟩

theorem test_witness_EncodeWritesTheFrame : EncodeAllowed ⟨0, 2⟩ ⟨2, 3⟩ (ready false [0x41#8, 0xC0#8]) := by
  unfold EncodeAllowed
  decide
/-- E24 and the exact room beside it: `L = 4`. -/
theorem test_witness_EncodeCapacityLaw :
    EncodeAllowed ⟨0, 2⟩ ⟨2, 4⟩ (ready false [0x41#8, 0xC0#8]) ∧ EncodeAllowed ⟨0, 2⟩ ⟨2, 3⟩ (ready false [0x41#8, 0xC0#8]) ∧
    frameLen ((ready false [0x41#8, 0xC0#8]).mem.slice 0 2) = 4 := by
  unfold EncodeAllowed
  decide
theorem test_witness_EncodeCapacityLaw_bounds :
    (∀ b ∈ [0x41#8, 0xDC#8], b ≠ END ∧ b ≠ ESC) ∧ (∀ b ∈ [0xC0#8, 0xDB#8], b = END ∨ b = ESC) := by decide
theorem test_witness_EncodeOutputReadsBack :
    (ready false [0xC0#8]).mem.wf = true ∧ EncodeAllowed ⟨0, 1⟩ ⟨1, 3⟩ (ready false [0xC0#8]) ∧
    EncodeAllowed ⟨0, 1⟩ ⟨1, 2⟩ (ready false [0xC0#8]) ∧ frameLen ((ready false [0xC0#8]).mem.slice 0 1) = 3 := by
  unfold EncodeAllowed
  decide
theorem test_witness_EncodeDependsOnPayloadAndCapacityOnly :
    let s := ready false [0xC0#8]
    let s' := ready true [0x41#8, 0xC0#8]
    EncodeAllowed ⟨0, 1⟩ ⟨8, 3⟩ s ∧ EncodeAllowed ⟨1, 1⟩ ⟨2, 3⟩ s' ∧ s.mem.slice 0 1 = s'.mem.slice 1 1 := by
  unfold EncodeAllowed
  decide
theorem test_witness_CommandsWriteOnlyTheirOutput_encode :
    ∃ t, exec (.encode ⟨0, 1⟩ ⟨1, 2⟩) (ready false [0xC0#8]) = .next t := ⟨_, rfl⟩
theorem test_witness_CommandsWriteOnlyTheirOutput_decode :
    ∃ t, exec (.decode 0 ⟨0, 1⟩ ⟨1, 0⟩) (ready false [0xC0#8]) = .next t := ⟨_, rfl⟩

theorem test_witness_DecodeIsRepeatedDstep :
    DecodeAllowed 0 ⟨0, 2⟩ ⟨2, 1⟩ (idleDec true) (ready true [0xDC#8, 0xDB#8]) := by
  unfold DecodeAllowed
  decide
theorem test_witness_DecodeOfAFrameIsThePayload :
    let s := ready false [0xDB#8, 0xDC#8, 0xC0#8]
    s.mem.wf = true ∧ DecodeAllowed 0 ⟨0, 3⟩ ⟨3, 1⟩ (idleDec false) s ∧ (idleDec false).esc = false ∧
      s.mem.slice 0 3 = frame [0xC0#8] ∧ [0xC0#8].length ≤ 1 := by
  unfold DecodeAllowed
  decide
theorem test_witness_EncodeThenDecodeIsThePayload :
    let s := ready false [0xC0#8]
    s.mem.wf = true ∧ EncodeAllowed ⟨0, 1⟩ ⟨1, 3⟩ s ∧ frameLen (s.mem.slice 0 1) ≤ 3 ∧
      DecodeAllowed 0 ⟨1, frameLen (s.mem.slice 0 1)⟩ ⟨4, 1⟩ (idleDec false) s ∧ (idleDec false).esc = false := by
  unfold EncodeAllowed DecodeAllowed
  decide
theorem test_witness_DecodeStopsAtTheFirstFrame :
    let s := ready false [0x01#8, 0xC0#8, 0x02#8, 0xC0#8]
    s.mem.wf = true ∧ DecodeAllowed 0 ⟨0, 4⟩ ⟨4, 1⟩ (idleDec false) s ∧ (idleDec false).esc = false ∧
      s.mem.slice 0 4 = frame [0x01#8] ++ [0x02#8, 0xC0#8] ∧ [0x01#8].length ≤ 1 := by
  unfold DecodeAllowed
  decide
/-- Exact room (V2). -/
theorem test_witness_DecodeCapacityLaw_room :
    let s := ready false [0xDB#8, 0xDC#8, 0xC0#8]
    s.mem.wf = true ∧ DecodeAllowed 0 ⟨0, 3⟩ ⟨3, 1⟩ (idleDec false) s ∧ (idleDec false).esc = false ∧
      s.mem.slice 0 3 = frame [0xC0#8] ∧ [0xC0#8].length ≤ 1 := by
  unfold DecodeAllowed
  decide
/-- V23: the byte without room is an escape pair; V22: it is a literal. -/
theorem test_witness_DecodeCapacityLaw :
    let s := ready false [0x41#8, 0xDB#8, 0xDC#8, 0xC0#8]
    let s' := ready false [0x41#8, 0x42#8, 0x43#8, 0xC0#8]
    s.mem.wf = true ∧ DecodeAllowed 0 ⟨0, 4⟩ ⟨4, 1⟩ (idleDec false) s ∧ (idleDec false).esc = false ∧
      s.mem.slice 0 4 = frame [0x41#8, 0xC0#8] ∧ [0x41#8, 0xC0#8][1]? = some 0xC0#8 ∧
      s'.mem.wf = true ∧ DecodeAllowed 0 ⟨0, 4⟩ ⟨4, 2⟩ (idleDec false) s' ∧
      s'.mem.slice 0 4 = frame [0x41#8, 0x42#8, 0x43#8] ∧ [0x41#8, 0x42#8, 0x43#8][2]? = some 0x43#8 := by
  unfold DecodeAllowed
  decide
/-- The frame of S3 in one call into a window at 16, and cut inside both of its escape pairs (Q2), the pieces' outputs
elsewhere; the last piece's window is smaller than its chunk. -/
theorem test_witness_IncrementalDecodingAgrees :
    let s := ready false [0x01#8, 0xDB#8, 0xDC#8, 0xDB#8, 0xDD#8, 0x02#8, 0xC0#8]
    let init : List (Buffer × Buffer) := [(⟨0, 2⟩, ⟨32, 2⟩), (⟨2, 2⟩, ⟨40, 4⟩)]
    let last : Buffer × Buffer := (⟨4, 3⟩, ⟨32, 2⟩)
    ∃ t d', s.mem.wf = true ∧ DecodeAllowed 0 ⟨0, 7⟩ ⟨16, 4⟩ (idleDec false) s ∧
      exec (.decode 0 ⟨0, 7⟩ ⟨16, 4⟩) s = .next t ∧ t.decs[0]? = some d' ∧
      (∀ e x y, d'.result ≠ .err e x y) ∧ d'.result.consumed = 7 ∧
      (∀ q ∈ init ++ [last], DecodeAllowed 0 q.1 q.2 (idleDec false) s) ∧
      (∀ q ∈ init ++ [last], ∀ q' ∈ init ++ [last], q.1.sharesByte q'.2 = false) ∧ last.1.len ≠ 0 ∧
      ((init ++ [last]).flatMap fun q => s.mem.slice q.1.base q.1.len) = s.mem.slice 0 7 :=
  ⟨_, _, by decide, by unfold DecodeAllowed; decide, rfl, rfl, fun _ _ _ h => Bool.false_ne_true (congrArg isErr h),
    by decide, by unfold DecodeAllowed; decide, by decide, by decide, by decide⟩
/-- V20: `cap = 0`, and CapacityExceeded with a byte consumed. -/
theorem test_witness_DecodeMakesProgress_full :
    ∃ t d', exec (.decode 0 ⟨0, 2⟩ ⟨2, 0⟩) (ready false [0xDB#8, 0xDC#8]) = .next t ∧ t.decs[0]? = some d' ∧
      d'.result = .err .capacityExceeded 1 0 := ⟨_, _, rfl, rfl, rfl⟩
theorem test_witness_DecodeMakesProgress :
    let s := ready true [0xC0#8]
    DecodeAllowed 0 ⟨0, 1⟩ ⟨1, 0⟩ (idleDec true) s ∧ (1 : Nat) ≠ 0 := by
  unfold DecodeAllowed
  decide
theorem test_witness_CompletedFrameLeavesIdle_frameComplete :
    ∃ t d', exec (.decode 0 ⟨0, 1⟩ ⟨1, 0⟩) (ready false [0xC0#8]) = .next t ∧ t.decs[0]? = some d' ∧
      ∃ x y, d'.result = .frameComplete x y := ⟨_, _, rfl, rfl, 1, 0, rfl⟩
theorem test_witness_CompletedFrameLeavesIdle_invalidEscape :
    ∃ t d', exec (.decode 0 ⟨0, 1⟩ ⟨1, 0⟩) (ready true [0xC0#8]) = .next t ∧ t.decs[0]? = some d' ∧
      ∃ x y, d'.result = .err .invalidEscapeSequence x y := ⟨_, _, rfl, rfl, 0, 0, rfl⟩
theorem test_witness_DecodeDependsOnItsInstanceOnly :
    let s := ready true [0xDC#8]
    let s' := { ready false [0x41#8, 0xDC#8] with decs := [idleDec false, idleDec true] }
    s.params.xbadConsumes = s'.params.xbadConsumes ∧ DecodeAllowed 0 ⟨0, 1⟩ ⟨1, 1⟩ (idleDec true) s ∧
      DecodeAllowed 1 ⟨1, 1⟩ ⟨2, 1⟩ (idleDec true) s' ∧ s.mem.slice 0 1 = s'.mem.slice 1 1 := by
  unfold DecodeAllowed
  decide
theorem test_witness_OnlyTheListedOperationsWriteEsc_set :
    ∃ t d d', exec (.dEsc 0) (decoding false [0xDB#8] 0 0 0) = .next t ∧
      (decoding false [0xDB#8] 0 0 0).decs[0]? = some d ∧ t.decs[0]? = some d' ∧ d.esc = false ∧ d'.esc = true :=
  ⟨_, _, _, rfl, rfl, rfl, rfl, rfl⟩
theorem test_witness_OnlyTheListedOperationsWriteEsc_clear :
    ∃ t d d', exec (.dXend 0) (decoding true [0xDC#8] 0 0 1) = .next t ∧
      (decoding true [0xDC#8] 0 0 1).decs[0]? = some d ∧ t.decs[0]? = some d' ∧ d.esc = true ∧ d'.esc = false :=
  ⟨_, _, _, rfl, rfl, rfl, rfl, rfl⟩

theorem test_witness_DresetClearsEscOnly :
    (ready true []).decs[0]? = some (idleDec true) ∧ (idleDec true).call = none ∧
    (decoding true [0xDC#8] 0 0 1).decs[0]? = some (busyDec true 1 0 0 1) ∧ (busyDec true 1 0 0 1).call ≠ none := by decide
theorem test_witness_DnewMakesAnIdleInstance :
    (ready true []).decs[0]? = some (idleDec true) ∧ (idleDec true).call = none := by decide
theorem test_witness_HardwareResetAbandonsCommands :
    let s := { decoding true [0xDC#8] 0 0 4 with host := [.reset, .issue (.dnew none)] }
    s.host = .reset :: [.issue (.dnew none)] ∧ (∀ c, s.enc.call = some c → holds c.encOut 15 = false) ∧
      ∀ d ∈ s.decs, ∀ c, d.call = some c → holds c.decOut 15 = false := by
  refine ⟨rfl, by simp [decoding, State.reset, State.resetWith, Encoder.reset], ?_⟩
  simp [decoding, holds]

theorem test_witness_BusyUnitTakesNoCommand :
    (encoding [0x41#8] 0 0 2).enc.call ≠ none ∧ (decoding true [0xDC#8] 0 0 1).decs[0]? = some (busyDec true 1 0 0 1) ∧
    (busyDec true 1 0 0 1).call ≠ none := by decide
/-- Eight bytes do not fit three bits, seven do. -/
theorem test_witness_LengthsThatDoNotFitAreRefused :
    let s := { ready false [] with params := threeBits }
    s.params.lenBits = some 3 ∧ s.enc.call = none ∧ s.decs[0]? = some (idleDec false) ∧ (idleDec false).call = none ∧
      2 ^ 3 ≤ (⟨0, 8⟩ : Buffer).len ∧ fits s.params 7 = true := by decide
theorem test_witness_OverlappingWindowsAreRefused_own :
    let s := ready false []
    s.enc.call = none ∧ s.decs[0]? = some (idleDec false) ∧ (idleDec false).call = none ∧ fits s.params 4 = true ∧
      fits s.params 1 = true ∧ holds ⟨0, 4⟩ 3 = true ∧ holds ⟨3, 1⟩ 3 = true := by decide
theorem test_witness_OverlappingWindowsAreRefused_lent :
    let s := { decoding false [0x41#8] 0 0 2 with decs := [busyDec false 1 0 0 2, idleDec false] }
    s.enc.call = none ∧ s.decs[1]? = some (idleDec false) ∧ (idleDec false).call = none ∧ fits s.params 1 = true ∧
      ∃ b ∈ lent s, holds b 17 = true ∧ (holds ⟨17, 1⟩ 17 = true ∨ holds ⟨40, 1⟩ 17 = true) := by decide
theorem test_witness_HostWritesOnlyItsOwnBuffers :
    let s := { decoding false [0x41#8] 0 0 2 with host := [.store 17 0x05#8] }
    let s' := { decoding false [0x41#8] 0 0 2 with host := [.store 18 0x05#8] }
    s.host = .store 17 0x05#8 :: [] ∧ (∃ b ∈ lent s, holds b 17 = true) ∧
      s'.host = .store 18 0x05#8 :: [] ∧ ∀ b ∈ lent s', holds b 18 = false := by decide

theorem test_witness_StepKeepsMemoryCanonical :
    let s := encoding [0x41#8] 0 0 2
    s.mem.wf = true ∧ ∃ t, step s = .next t := ⟨by decide, _, rfl⟩
theorem test_witness_StepKeepsRegistersInRange : registersInRange twoRunning = true ∧ ∃ t, step twoRunning = .next t :=
  ⟨by decide, _, rfl⟩
theorem test_witness_StepKeepsWindowsDisjoint :
    lentOnce twoRunning ∧ lentFits twoRunning = true ∧ ∃ t, step twoRunning = .next t :=
  ⟨by unfold lentOnce; decide, by decide, _, rfl⟩
theorem test_witness_StepKeepsParameters : ∃ t, step { State.reset with params := threeBits } = .next t := ⟨_, rfl⟩

theorem test_witness_AtomicEncodeIsItsByteSteps :
    EncodeAllowed ⟨0, 1⟩ ⟨1, 3⟩ { ready false [0xC0#8] with host := [.issue (.dnew none)] } := by
  unfold EncodeAllowed
  decide
theorem test_witness_AtomicDecodeIsItsByteSteps :
    DecodeAllowed 0 ⟨0, 1⟩ ⟨1, 1⟩ (idleDec true) { ready true [0xDC#8] with host := [.issue (.dnew none)] } := by
  unfold DecodeAllowed
  decide
theorem test_witness_UnitsDoNotDisturbEachOther :
    Engine.encoder ≠ .decoder 0 ∧ twoRunning.mem.wf = true ∧ lentOnce twoRunning := by
  unfold lentOnce
  decide

theorem test_witness_DecodeAllDeliversEveryFrame :
    let s := ready false [0xDB#8, 0xDC#8, 0xC0#8, 0xC0#8]
    let h := HostStream.start false
    s.mem.wf = true ∧ DecodeAllowed 0 ⟨0, 4⟩ ⟨4, 1⟩ (idleDec false) s ∧ (idleDec false).esc = false ∧ 1 ≤ 1 ∧
      h.frame = [] ∧ h.discard = false ∧ s.mem.slice 0 4 = [[0xC0#8], []].flatMap frame := by
  unfold DecodeAllowed
  decide
/-- P6 case a: the sender uses FLUSH. -/
theorem test_witness_DecodeAllDeliversEveryFrame_flush :
    let s := ready false [0xC0#8, 0x33#8, 0xC0#8]
    let h := HostStream.start true
    s.mem.wf = true ∧ DecodeAllowed 0 ⟨0, 3⟩ ⟨4, 1⟩ (idleDec false) s ∧ (idleDec false).esc = false ∧
      h.frame = [] ∧ h.discard = false ∧ h.dropEmpty = true ∧
      s.mem.slice 0 3 = [[0x33#8]].flatMap fun p => flush (frame p) := by
  unfold DecodeAllowed
  decide
theorem test_witness_DamagedFrameIsDiscarded :
    let s := ready false [0x09#8, 0xDB#8, 0x05#8, 0x42#8, 0xC0#8, 0x07#8, 0xC0#8]
    s.mem.wf = true ∧ DecodeAllowed 0 ⟨0, 7⟩ ⟨16, 1⟩ (idleDec false) s ∧ (idleDec false).esc = false ∧
      isPlain 0x05#8 = true ∧ isBadSecond 0x05#8 = true ∧
      s.mem.slice 0 7 = [0x09#8].flatMap stuff ++ [ESC, 0x05#8] ++ frame [0x42#8] ++ [[0x07#8]].flatMap frame := by
  unfold DecodeAllowed
  decide
/-- Q6: the offending byte is END. -/
theorem test_witness_DamagedFrameIsDiscarded_END :
    let s := ready false [0x09#8, 0xDB#8, 0xC0#8, 0x07#8, 0xC0#8]
    s.mem.wf = true ∧ DecodeAllowed 0 ⟨0, 5⟩ ⟨16, 1⟩ (idleDec false) s ∧ s.params.xbadConsumes = false ∧
      escapesAreBad [[0x09#8]] [] = true ∧ (idleDec false).esc = false ∧ [[0x09#8]] ≠ [] ∧
      s.mem.slice 0 5 = damagedFrame [[0x09#8]] [] ++ [[0x07#8]].flatMap frame := by
  unfold DecodeAllowed
  decide
/-- Q7: the offending byte is ESC. -/
theorem test_witness_DamagedFrameIsDiscarded_ESC :
    let s := ready false [0xDB#8, 0xDB#8, 0xDC#8, 0xC0#8]
    s.mem.wf = true ∧ DecodeAllowed 0 ⟨0, 4⟩ ⟨16, 1⟩ (idleDec false) s ∧ s.params.xbadConsumes = false ∧
      escapesAreBad [[]] [0xC0#8] = true ∧ (idleDec false).esc = false ∧ [([] : List Byte)] ≠ [] ∧
      s.mem.slice 0 4 = damagedFrame [[]] [0xC0#8] ++ [].flatMap frame := by
  unfold DecodeAllowed
  decide
/-- P6 case b: the receiver is in InEscape when the flush END arrives. -/
theorem test_witness_DamagedFrameIsDiscarded_InEscape :
    let s := ready true [0xC0#8, 0x33#8, 0xC0#8]
    s.mem.wf = true ∧ DecodeAllowed 0 ⟨0, 3⟩ ⟨16, 2⟩ (idleDec true) s ∧ s.params.xbadConsumes = false ∧
      escapesAreBad [] [] = true ∧ (idleDec true).esc = true ∧ beginsBad (damagedFrame [] []) = true ∧
      s.mem.slice 0 3 = damagedFrame [] [] ++ [[0x33#8]].flatMap frame := by
  unfold DecodeAllowed
  decide
theorem test_witness_StatusPortTellsResultsApart :
    oneToOne Config.specParams.statusEnc = true ∧ oneToOne ⟨4, 3, 2, 1, 0⟩ = true ∧
    decStatus ⟨4, 3, 2, 1, 0⟩ (.frameComplete 1 0) = decStatus ⟨4, 3, 2, 1, 0⟩ (.frameComplete 2 1) ∧
    encStatus Config.specParams.statusEnc (.ok 1) = decStatus Config.specParams.statusEnc (.frameComplete 1 0) := by decide
theorem test_oneToOne_refuses_shared :
    oneToOne ⟨1, 0, 1, 2, 3⟩ = false ∧ oneToOne ⟨0, 0, 1, 1, 3⟩ = false := by decide

end Sys2Proof.Tests
end

section
/-! SUPPORT and PROOFS. The windows a step leaves lent (20_memory R44, 70 R176) and the parameters (00_scope R6). -/

namespace Sys2Proof.Machine

/-! ## A byte operation keeps the arguments of its command -/

/-- A flow that goes on has the Encoder run the command `call` (00_scope R8). -/
def EncFlow.KeepsCall (call : Option EncCall) : EncFlow → Prop
  | .goOn e _ => e.call = call
  | .ended _ _ => True

/-- A flow that goes on has the instance run the command `call` (00_scope R8). -/
def DecFlow.KeepsCall (call : Option DecCall) : DecFlow → Prop
  | .goOn d _ => d.call = call
  | .ended _ _ _ => True

theorem EncFlow.KeepsCall.andThen {f : EncFlow} {g : Encoder → Memory → EncFlow} {call : Option EncCall}
    (hf : f.KeepsCall call) (hg : ∀ e m, (g e m).KeepsCall e.call) : (f.andThen g).KeepsCall call := by
  cases f with
  | goOn e m =>
    obtain rfl : e.call = call := hf
    exact hg e m
  | ended r m => trivial

theorem DecFlow.KeepsCall.andThen {f : DecFlow} {g : Decoder → Memory → DecFlow} {call : Option DecCall}
    (hf : f.KeepsCall call) (hg : ∀ d m, (g d m).KeepsCall d.call) : (f.andThen g).KeepsCall call := by
  cases f with
  | goOn d m =>
    obtain rfl : d.call = call := hf
    exact hg d m
  | ended r esc m => trivial

theorem emit_keepsCall (o : Buffer) (v : Byte) (e : Encoder) (m : Memory) : (emit o v e m).KeepsCall e.call := by
  unfold emit
  split
  · trivial
  · rfl

theorem demit_keepsCall (o : Buffer) (v : Byte) (d : Decoder) (m : Memory) : (demit o v d m).KeepsCall d.call := by
  unfold demit
  split
  · trivial
  · rfl

theorem stepEi_keepsCall (e : Encoder) (m : Memory) : (stepEi e m).KeepsCall e.call := rfl

theorem stepDi_keepsCall (d : Decoder) (m : Memory) : (stepDi d m).KeepsCall d.call := rfl

theorem eLitBody_keepsCall (o : Buffer) (e : Encoder) (m : Memory) : (eLitBody o e m).KeepsCall e.call :=
  (emit_keepsCall o e.b e m).andThen stepEi_keepsCall

theorem eEndBody_keepsCall (o : Buffer) (e : Encoder) (m : Memory) : (eEndBody o e m).KeepsCall e.call :=
  ((emit_keepsCall o ESC e m).andThen (emit_keepsCall o ESC_END)).andThen stepEi_keepsCall

theorem eEscBody_keepsCall (o : Buffer) (e : Encoder) (m : Memory) : (eEscBody o e m).KeepsCall e.call :=
  ((emit_keepsCall o ESC e m).andThen (emit_keepsCall o ESC_ESC)).andThen stepEi_keepsCall

theorem eFinBody_keepsCall (o : Buffer) (e : Encoder) (m : Memory) : (eFinBody o e m).KeepsCall e.call :=
  (emit_keepsCall o END e m).andThen fun _ _ => trivial

theorem dLitBody_keepsCall (o : Buffer) (d : Decoder) (m : Memory) : (dLitBody o d m).KeepsCall d.call :=
  (demit_keepsCall o d.b d m).andThen stepDi_keepsCall

theorem dEndBody_keepsCall (o : Buffer) (d : Decoder) (m : Memory) : (dEndBody o d m).KeepsCall d.call := trivial

theorem dEscBody_keepsCall (o : Buffer) (d : Decoder) (m : Memory) : (dEscBody o d m).KeepsCall d.call := rfl

theorem dXendBody_keepsCall (o : Buffer) (d : Decoder) (m : Memory) : (dXendBody o d m).KeepsCall d.call :=
  (demit_keepsCall o END d m).andThen fun _ _ => rfl

theorem dXescBody_keepsCall (o : Buffer) (d : Decoder) (m : Memory) : (dXescBody o d m).KeepsCall d.call :=
  (demit_keepsCall o ESC d m).andThen fun _ _ => rfl

theorem dXbadBody_keepsCall (x : Bool) (o : Buffer) (d : Decoder) (m : Memory) :
    (dXbadBody x o d m).KeepsCall d.call := by
  rw [dXbadBody_eq]
  trivial

theorem dEocBody_keepsCall (d : Decoder) (m : Memory) : (dEocBody d m).KeepsCall d.call := trivial

/-! ## The body a byte selects -/

/-- What the operation a payload byte selects does (30_encoding R56). -/
def encBody (b : Byte) : Buffer → Encoder → Memory → EncFlow :=
  if b = END then eEndBody else if b = ESC then eEscBody else eLitBody

/-- What the operation a wire byte selects does (30_encoding R57). -/
def decBody (xbadConsumes esc : Bool) (b : Byte) : Buffer → Decoder → Memory → DecFlow :=
  if esc then if b = ESC_END then dXendBody else if b = ESC_ESC then dXescBody else dXbadBody xbadConsumes
  else if b = END then dEndBody else if b = ESC then dEscBody else dLitBody

theorem exec_decodePayload8 (b : Byte) (s : State) :
    exec (decodePayload8 b) s = onPayloadByte true b (encBody b) s := by
  unfold decodePayload8 encBody
  split
  · next h => subst h; rfl
  · next hend =>
    split
    · next h => subst h; rfl
    · next hesc =>
      have hplain : isPlain b = true := by simp [isPlain, hend, hesc]
      exact congrArg (onPayloadByte · b eLitBody s) hplain

theorem exec_decodeWire8 (k : Nat) (esc : Bool) (b : Byte) (s : State) :
    exec (decodeWire8 k esc b) s = onWireByte k esc true b (decBody s.params.xbadConsumes esc b) s := by
  unfold decodeWire8 decBody
  cases esc with
  | true =>
    simp only [if_true]
    split
    · next h => subst h; rfl
    · next hxend =>
      split
      · next h => subst h; rfl
      · next hxesc =>
        have hbad : isBadSecond b = true := by simp [isBadSecond, hxend, hxesc]
        exact congrArg (onWireByte k true · b (dXbadBody s.params.xbadConsumes) s) hbad
  | false =>
    simp only [Bool.false_eq_true, if_false]
    split
    · next h => subst h; rfl
    · next hend =>
      split
      · next h => subst h; rfl
      · next hesc =>
        have hplain : isPlain b = true := by simp [isPlain, hend, hesc]
        exact congrArg (onWireByte k false · b dLitBody s) hplain

/-- ENCODE's loop at a payload byte (40_encoder R70). -/
theorem encStep_of_lt {c : EncCall} {e : Encoder} (m : Memory) (h : e.ei < c.payload.len) :
    encStep c e m = encBody (memRead m c.payload e.ei) c.encOut { e with b := memRead m c.payload e.ei } m := by
  simp only [encStep, h, if_true, encBody]
  split_ifs <;> rfl

/-- ENCODE's loop at the end of the payload (40_encoder R70). -/
theorem encStep_of_le {c : EncCall} {e : Encoder} (m : Memory) (h : c.payload.len ≤ e.ei) :
    encStep c e m = eFinBody c.encOut e m :=
  if_neg (Nat.not_lt.mpr h)

/-- DECODE's loop at a chunk byte (41_decoder R90). -/
theorem decStep_of_lt (p : Config.Params) {c : DecCall} {d : Decoder} (m : Memory) (h : d.di < c.chunk.len) :
    decStep p c d m = decBody p.xbadConsumes d.esc (memRead m c.chunk d.di) c.decOut
      { d with b := memRead m c.chunk d.di } m := by
  simp only [decStep, h, if_true, decBody]
  split_ifs <;> rfl

/-- DECODE's loop at the end of the chunk (41_decoder R90). -/
theorem decStep_of_le (p : Config.Params) {c : DecCall} {d : Decoder} (m : Memory) (h : c.chunk.len ≤ d.di) :
    decStep p c d m = dEocBody d m :=
  if_neg (Nat.not_lt.mpr h)

theorem encBody_keepsCall (b : Byte) (o : Buffer) (e : Encoder) (m : Memory) : (encBody b o e m).KeepsCall e.call := by
  unfold encBody
  split
  · exact eEndBody_keepsCall o e m
  · split
    · exact eEscBody_keepsCall o e m
    · exact eLitBody_keepsCall o e m

theorem decBody_keepsCall (x esc : Bool) (b : Byte) (o : Buffer) (d : Decoder) (m : Memory) :
    (decBody x esc b o d m).KeepsCall d.call := by
  unfold decBody
  split
  · split
    · exact dXendBody_keepsCall o d m
    · split
      · exact dXescBody_keepsCall o d m
      · exact dXbadBody_keepsCall x o d m
  · split
    · exact dEndBody_keepsCall o d m
    · split
      · exact dEscBody_keepsCall o d m
      · exact dLitBody_keepsCall o d m

theorem encStep_keepsCall (c : EncCall) (e : Encoder) (m : Memory) : (encStep c e m).KeepsCall e.call := by
  rcases Nat.lt_or_ge e.ei c.payload.len with h | h
  · rw [encStep_of_lt m h]
    exact encBody_keepsCall _ c.encOut { e with b := _ } m
  · rw [encStep_of_le m h]
    exact eFinBody_keepsCall c.encOut e m

theorem decStep_keepsCall (p : Config.Params) (c : DecCall) (d : Decoder) (m : Memory) :
    (decStep p c d m).KeepsCall d.call := by
  rcases Nat.lt_or_ge d.di c.chunk.len with h | h
  · rw [decStep_of_lt p m h]
    exact decBody_keepsCall _ _ _ c.decOut { d with b := _ } m
  · rw [decStep_of_le p m h]
    exact dEocBody_keepsCall d m

theorem encRun_keepsCall (c : EncCall) (n : Nat) (e : Encoder) (m : Memory) : (encRun c n e m).KeepsCall e.call := by
  induction n generalizing e m with
  | zero => rfl
  | succ n ih => exact (encStep_keepsCall c e m).andThen ih

theorem decRun_keepsCall (p : Config.Params) (c : DecCall) (n : Nat) (d : Decoder) (m : Memory) :
    (decRun p c n d m).KeepsCall d.call := by
  induction n generalizing d m with
  | zero => rfl
  | succ n ih => exact (decStep_keepsCall p c d m).andThen ih

/-! ## The lent windows after an action of a unit -/

theorem encLent_congr {e e' : Encoder} (h : e.call = e'.call) : encLent e = encLent e' := by
  unfold encLent
  rw [h]

theorem decLent_congr {d d' : Decoder} (h : d.call = d'.call) : decLent d = decLent d' := by
  unfold decLent
  rw [h]

theorem encLent_of_idle {e : Encoder} (h : e.call = none) : encLent e = [] := by
  unfold encLent
  rw [h]

theorem decLent_of_idle {d : Decoder} (h : d.call = none) : decLent d = [] := by
  unfold decLent
  rw [h]

/-- The windows lent by all instances once instance `k` is `d'`: those of `d'` and those of the others. -/
theorem flatMap_decLent_set_perm {ds : List Decoder} {k : Nat} (d' : Decoder) (hk : k < ds.length) :
    ((ds.set k d').flatMap decLent).Perm (decLent d' ++ (ds.eraseIdx k).flatMap decLent) := by
  have hk' : k < (ds.set k d').length := by simpa using hk
  have h := (List.getElem_cons_eraseIdx_perm hk').symm.flatMap_right decLent
  simpa [List.eraseIdx_set_eq] using h

/-- If instance `k` comes to lend no more than `ws` besides what it lent, so do all instances. -/
theorem flatMap_decLent_set_subperm {ds : List Decoder} {k : Nat} {d d' : Decoder} {ws : List Buffer}
    (hd : ds[k]? = some d) (hw : (decLent d').Subperm (ws ++ decLent d)) :
    ((ds.set k d').flatMap decLent).Subperm (ws ++ ds.flatMap decLent) := by
  obtain ⟨hk, rfl⟩ := List.getElem?_eq_some_iff.mp hd
  have hnew := (flatMap_decLent_set_perm d' hk).subperm
  have hold : (decLent ds[k] ++ (ds.eraseIdx k).flatMap decLent).Perm (ds.flatMap decLent) := by
    have h := (flatMap_decLent_set_perm ds[k] hk).symm
    rwa [List.set_getElem_self hk] at h
  have hmid := hw.append (List.Subperm.refl ((ds.eraseIdx k).flatMap decLent))
  rw [List.append_assoc] at hmid
  exact (hnew.trans hmid).trans ((List.subperm_append_left ws).mpr hold.subperm)

/-- What an action of the Encoder leaves lent, when it went on from `e`, whose call lends `ws` at most besides what was
lent. -/
theorem lent_putEnc_subperm {s : State} {e : Encoder} {f : EncFlow} {ws : List Buffer} (hf : f.KeepsCall e.call)
    (hw : (encLent e).Subperm (ws ++ encLent s.enc)) : (lent (putEnc f s)).Subperm (ws ++ lent s) := by
  have henc : (encLent (putEnc f s).enc).Subperm (ws ++ encLent s.enc) := by
    cases f with
    | goOn e' m => exact encLent_congr hf ▸ hw
    | ended r m => exact List.nil_subperm
  rw [lent, lent, putEnc_decs, ← List.append_assoc]
  exact henc.append (List.Subperm.refl _)

/-- What an action of instance `k` leaves lent, when it went on from `d'`, whose call lends `ws` at most besides what was
lent. -/
theorem lent_putDec_subperm {s : State} {k : Nat} {d d' : Decoder} {f : DecFlow} {ws : List Buffer}
    (hd : s.decs[k]? = some d) (hf : f.KeepsCall d'.call) (hw : (decLent d').Subperm (ws ++ decLent d)) :
    (lent (putDec k f s)).Subperm (ws ++ lent s) := by
  have hdecs : ((putDec k f s).decs.flatMap decLent).Subperm (ws ++ s.decs.flatMap decLent) := by
    cases f with
    | goOn d'' m => exact flatMap_decLent_set_subperm hd (decLent_congr hf ▸ hw)
    | ended r esc m => exact flatMap_decLent_set_subperm hd List.nil_subperm
  rw [lent, lent, putDec_enc]
  exact ((List.subperm_append_left _).mpr hdecs).trans (List.perm_append_comm_assoc _ _ _).subperm

/-! ## The lent windows after a step -/

/-- From `s` to `t` the parameters stay, and `t` lends no window but those `s` lends and, at most, the two windows of one
command to which `s` has no objection (00_scope R6, 20_memory R44, 70 R176). -/
def LendsOnlyAllowed (s t : State) : Prop :=
  t.params = s.params ∧
    ((lent t).Subperm (lent s) ∨
      ∃ running i o, objection running i o s = none ∧ (lent t).Subperm (i :: o :: lent s))

theorem LendsOnlyAllowed.of_unchanged {s t : State} (hp : t.params = s.params) (hl : lent t = lent s) :
    LendsOnlyAllowed s t :=
  ⟨hp, .inl (hl ▸ List.Subperm.refl _)⟩

theorem onPayloadByte_lends {ok : Bool} {v : Byte} {body : Buffer → Encoder → Memory → EncFlow} {s t : State}
    (hb : ∀ o e m, (body o e m).KeepsCall e.call) (h : onPayloadByte ok v body s = .next t) : LendsOnlyAllowed s t := by
  obtain ⟨c, -, -, -, rfl⟩ := onPayloadByte_next h
  exact ⟨putEnc_params _ s, .inl (lent_putEnc_subperm (ws := []) (hb c.encOut _ s.mem) (List.Subperm.refl _))⟩

theorem onPayloadEnd_lends {body : Buffer → Encoder → Memory → EncFlow} {s t : State}
    (hb : ∀ o e m, (body o e m).KeepsCall e.call) (h : onPayloadEnd body s = .next t) : LendsOnlyAllowed s t := by
  obtain ⟨c, -, -, rfl⟩ := onPayloadEnd_next h
  exact ⟨putEnc_params _ s, .inl (lent_putEnc_subperm (ws := []) (hb c.encOut _ s.mem) (List.Subperm.refl _))⟩

theorem onWireByte_lends {k : Nat} {esc ok : Bool} {v : Byte} {body : Buffer → Decoder → Memory → DecFlow} {s t : State}
    (hb : ∀ o d m, (body o d m).KeepsCall d.call) (h : onWireByte k esc ok v body s = .next t) :
    LendsOnlyAllowed s t := by
  obtain ⟨d, c, hd, -, -, -, -, rfl⟩ := onWireByte_next h
  exact ⟨putDec_params k _ s, .inl (lent_putDec_subperm (ws := []) hd (hb c.decOut _ s.mem) (List.Subperm.refl _))⟩

theorem onChunkEnd_lends {k : Nat} {body : Decoder → Memory → DecFlow} {s t : State}
    (hb : ∀ d m, (body d m).KeepsCall d.call) (h : onChunkEnd k body s = .next t) : LendsOnlyAllowed s t := by
  obtain ⟨d, c, hd, -, -, rfl⟩ := onChunkEnd_next h
  exact ⟨putDec_params k _ s, .inl (lent_putDec_subperm (ws := []) hd (hb d s.mem) (List.Subperm.refl _))⟩

theorem onEncoder_lends {p o : Buffer} {go : Encoder → Memory → EncFlow} {s t : State}
    (hg : ∀ e m, (go e m).KeepsCall e.call) (h : onEncoder p o go s = .next t) : LendsOnlyAllowed s t := by
  obtain ⟨hno, rfl⟩ := onEncoder_next h
  have hw : (encLent (encBegun p o s.enc)).Subperm ([p, o] ++ encLent s.enc) :=
    (List.sublist_append_left [p, o] (encLent s.enc)).subperm
  exact ⟨putEnc_params _ s, .inr ⟨_, p, o, hno, lent_putEnc_subperm (hg _ s.mem) hw⟩⟩

theorem onDecoder_lends {k : Nat} {c o : Buffer} {go : Decoder → Memory → DecFlow} {s t : State}
    (hg : ∀ d m, (go d m).KeepsCall d.call) (h : onDecoder k c o go s = .next t) : LendsOnlyAllowed s t := by
  obtain ⟨d, hd, hno, rfl⟩ := onDecoder_next h
  have hw : (decLent (decBegun c o d)).Subperm ([c, o] ++ decLent d) :=
    (List.sublist_append_left [c, o] (decLent d)).subperm
  exact ⟨putDec_params k _ s, .inr ⟨_, c, o, hno, lent_putDec_subperm hd (hg _ s.mem) hw⟩⟩

theorem resetInstance_lends {k : Nat} {s t : State} (h : resetInstance k s = .next t) : LendsOnlyAllowed s t := by
  obtain ⟨d, hd, -, rfl⟩ := resetInstance_next h
  exact ⟨rfl, .inl (lent_putDec_subperm (ws := []) (f := .goOn (clearEsc d) s.mem) hd rfl (List.Subperm.refl (decLent d)))⟩

theorem execDnew_lends {x : Option Nat} {s t : State} (h : execDnew x s = .next t) : LendsOnlyAllowed s t := by
  cases x with
  | none =>
    obtain rfl : _ = t := Host.Outcome.next.inj h
    refine .of_unchanged rfl ?_
    simp [lent, decLent_of_idle (decFresh_call s.draws)]
  | some k => exact resetInstance_lends h

/-- What an operation may leave lent, by the shared operation it is made of. -/
theorem exec_lends {i : Instr} {s t : State} (h : exec i s = .next t) : LendsOnlyAllowed s t := by
  cases i with
  | eLit v => exact onPayloadByte_lends eLitBody_keepsCall h
  | eEnd => exact onPayloadByte_lends eEndBody_keepsCall h
  | eEsc => exact onPayloadByte_lends eEscBody_keepsCall h
  | eFin => exact onPayloadEnd_lends eFinBody_keepsCall h
  | dLit k v => exact onWireByte_lends dLitBody_keepsCall h
  | dEnd k => exact onWireByte_lends dEndBody_keepsCall h
  | dEsc k => exact onWireByte_lends dEscBody_keepsCall h
  | dXend k => exact onWireByte_lends dXendBody_keepsCall h
  | dXesc k => exact onWireByte_lends dXescBody_keepsCall h
  | dXbad k v => exact onWireByte_lends (dXbadBody_keepsCall s.params.xbadConsumes) h
  | dEoc k => exact onChunkEnd_lends dEocBody_keepsCall h
  | encode p o => exact onEncoder_lends (encRun_keepsCall ⟨p, o⟩ (p.len + 1)) h
  | decode k c o => exact onDecoder_lends (decRun_keepsCall s.params ⟨c, o⟩ (c.len + 1)) h
  | dreset k => exact resetInstance_lends h
  | dnew x => exact execDnew_lends h

theorem flatMap_decLent_freshDecs (n : Nat) (ds : List Decoder) : (freshDecs n ds).flatMap decLent = [] := by
  induction ds generalizing n with
  | nil => rfl
  | cons d ds ih => simp [freshDecs, decLent_of_idle (decFresh_call n), ih]

/-- A hardware reset ends every loan (70 R171). -/
theorem lent_hardReset (s : State) : lent (hardReset s) = [] :=
  flatMap_decLent_freshDecs (s.draws + 1) s.decs

/-- What a state lends and objects to does not depend on the host's list. -/
theorem LendsOnlyAllowed.of_host {s t : State} {hs : List HostAction} (h : LendsOnlyAllowed { s with host := hs } t) :
    LendsOnlyAllowed s t := h

/-- What a step may leave lent. -/
theorem step_lends {s t : State} (h : step s = .next t) : LendsOnlyAllowed s t := by
  obtain ⟨hs, hcases⟩ := step_cases h
  refine .of_host (hs := hs) ?_
  rcases hcases with rfl | ⟨i, hi⟩ | ⟨p, o, he⟩ | ⟨k, c, o, hd⟩ | ⟨a, v, -, rfl⟩ | rfl
  · exact .of_unchanged rfl rfl
  · exact exec_lends hi
  · exact onEncoder_lends (go := .goOn) (fun _ _ => rfl) he
  · exact onDecoder_lends (go := .goOn) (fun _ _ => rfl) hd
  · exact .of_unchanged rfl rfl
  · exact ⟨rfl, .inl (lent_hardReset _ ▸ List.nil_subperm)⟩

/-! ## The invariants of the lent windows -/

theorem sharesByte_comm (a b : Buffer) : a.sharesByte b = b.sharesByte a := by
  simp only [Buffer.sharesByte, max_comm, min_comm]

/-- Windows that share no byte with each other in a list share none in any part of it, in any order. -/
theorem pairwise_apart_of_subperm {l l' : List Buffer} (h : l'.Subperm l)
    (hl : l.Pairwise fun a b => a.sharesByte b = false) : l'.Pairwise fun a b => a.sharesByte b = false := by
  obtain ⟨m, hperm, hsub⟩ := h
  exact (hperm.pairwise_iff fun {a b} hab => (sharesByte_comm b a).trans hab).mp (hl.sublist hsub)

/-- Two windows to which there is no objection may be lent besides the windows lent once (20_memory R44, 70 R176). -/
theorem pairwise_apart_cons_cons {running : Bool} {i o : Buffer} {s : State} (hs : lentOnce s)
    (hno : objection running i o s = none) : (i :: o :: lent s).Pairwise fun a b => a.sharesByte b = false := by
  obtain ⟨-, -, -, hdis⟩ := objection_eq_none.mp hno
  simp only [disjointWindows, Bool.and_eq_true, List.all_eq_true, Bool.not_eq_true'] at hdis
  obtain ⟨hio, hlent⟩ := hdis
  have hi : ∀ b ∈ o :: lent s, i.sharesByte b = false := by
    rintro b (_ | ⟨_, hb⟩)
    · exact hio
    · exact (sharesByte_comm i b).trans (hlent b hb).1
  have ho : ∀ b ∈ lent s, o.sharesByte b = false := fun b hb => (sharesByte_comm o b).trans (hlent b hb).2
  exact .cons hi (.cons ho hs)

theorem LendsOnlyAllowed.keeps_lentOnce {s t : State} (h : LendsOnlyAllowed s t) (hs : lentOnce s) : lentOnce t := by
  obtain ⟨-, hsub | ⟨running, i, o, hno, hsub⟩⟩ := h
  · exact pairwise_apart_of_subperm hsub hs
  · exact pairwise_apart_of_subperm hsub (pairwise_apart_cons_cons hs hno)

theorem LendsOnlyAllowed.keeps_lentFits {s t : State} (h : LendsOnlyAllowed s t) (hs : lentFits s = true) :
    lentFits t = true := by
  obtain ⟨hp, hl⟩ := h
  simp only [lentFits, List.all_eq_true, hp] at hs ⊢
  intro b hb
  rcases hl with hsub | ⟨running, i, o, hno, hsub⟩
  · exact hs b (hsub.subset hb)
  · obtain ⟨-, hi, ho, -⟩ := objection_eq_none.mp hno
    obtain rfl | rfl | hb' : b = i ∨ b = o ∨ b ∈ lent s := by simpa using hsub.subset hb
    · exact hi
    · exact ho
    · exact hs b hb'

/-- Settles O52: a step lends no window but those already lent and the two of a command without objection. -/
theorem stepKeepsWindowsDisjoint : Obligations.StepKeepsWindowsDisjoint := by
  intro s t honce hfits h
  exact ⟨(step_lends h).keeps_lentOnce honce, (step_lends h).keeps_lentFits hfits⟩

/-- Settles O53, by the cases of what a step can do. -/
theorem stepKeepsParameters : Obligations.StepKeepsParameters := by
  intro s t h
  obtain ⟨hp, -⟩ := step_lends h
  exact hp

end Sys2Proof.Machine
end

section
/-! SUPPORT and PROOFS. A command executed whole is its byte steps one after another (00_scope R7, 40_encoder R71, 41_decoder
R92, 70 R185). -/

namespace Sys2Proof.Machine

/-! ## A unit's turn is one step of its command's loop -/

/-- The turn of an Encoder that runs an ENCODE is one step of ENCODE's loop (40_encoder R70). -/
theorem turn_encoder_of_running {s : State} {c : EncCall} (hc : s.enc.call = some c) :
    turn .encoder s = .next (putEnc (encStep c s.enc s.mem) s) := by
  rcases Nat.lt_or_ge s.enc.ei c.payload.len with hi | hi
  · have hf : fetch .encoder s = some (decodePayload8 (memRead s.mem c.payload s.enc.ei)) := by
      simp [fetch, fetchEnc, hc, hi, decodeOp]
    simp only [turn, hf, exec_decodePayload8, encStep_of_lt s.mem hi, onPayloadByte_of_selected hc hi]
  · have hf : fetch .encoder s = some .eFin := by simp [fetch, fetchEnc, hc, Nat.not_lt.mpr hi, decodeOp]
    simp only [turn, hf, exec, execEFin, encStep_of_le s.mem hi, onPayloadEnd, hc, hi, if_true]

/-- The turn of an instance that runs a DECODE is one step of DECODE's loop (41_decoder R90). -/
theorem turn_decoder_of_running {s : State} {k : Nat} {d : Decoder} {c : DecCall} (hd : s.decs[k]? = some d)
    (hc : d.call = some c) : turn (.decoder k) s = .next (putDec k (decStep s.params c d s.mem) s) := by
  rcases Nat.lt_or_ge d.di c.chunk.len with hi | hi
  · have hf : fetch (.decoder k) s = some (decodeWire8 k d.esc (memRead s.mem c.chunk d.di)) := by
      simp [fetch, fetchDec, hd, hc, hi, decodeOp]
    simp only [turn, hf, exec_decodeWire8, decStep_of_lt s.params s.mem hi, onWireByte_of_selected hd hc hi rfl]
  · have hf : fetch (.decoder k) s = some (.dEoc k) := by simp [fetch, fetchDec, hd, hc, Nat.not_lt.mpr hi, decodeOp]
    simp only [turn, hf, exec, execDEoc, decStep_of_le s.params s.mem hi, onChunkEnd, hd, hc, hi, if_true]

/-! ## Runs of a unit's turns -/

theorem core_run_succ {n : Nat} {s t : State} (h : step s = .next t) : core.run (n + 1) s = core.run n t := by
  have h' : core.step s = .next t := h
  simp only [Host.Core.run, h']

theorem step_tick (e : Engine) (hs : List HostAction) (s : State) :
    step { s with host := .tick e :: hs } = turn e { s with host := hs } := rfl

theorem step_start (c : Command) (hs : List HostAction) (s : State) :
    step { s with host := .start c :: hs } = startCommand c { s with host := hs } := rfl

/-- The turns of a unit with no command in progress change nothing (70 R172). -/
theorem core_run_ticks_of_idle {e : Engine} {s : State} (h : fetch e s = none) (n : Nat) (rest : List HostAction) :
    core.run n { s with host := List.replicate n (.tick e) ++ rest } = .next { s with host := rest } := by
  have hturn (hs : List HostAction) : turn e { s with host := hs } = .next { s with host := hs } := by
    have hf : fetch e { s with host := hs } = none := by cases e <;> exact h
    simp only [turn, hf]
  induction n with
  | zero => rfl
  | succ n ih =>
    have hstep := (step_tick e (List.replicate n (.tick e) ++ rest) s).trans (hturn _)
    exact (core_run_succ hstep).trans ih

theorem putEnc_putEnc_goOn (f : EncFlow) (e : Encoder) (m : Memory) (s : State) :
    putEnc f (putEnc (.goOn e m) s) = putEnc f s := by
  cases f <;> rfl

theorem putDec_putDec_goOn (k : Nat) (f : DecFlow) (d : Decoder) (m : Memory) (s : State) :
    putDec k f (putDec k (.goOn d m) s) = putDec k f s := by
  cases f <;> simp [putDec]

/-- The turns of an Encoder that runs an ENCODE are as many steps of ENCODE's loop; those after its end do nothing. -/
theorem core_run_ticks_encoder {s : State} {c : EncCall} (hc : s.enc.call = some c) (n : Nat) (rest : List HostAction) :
    core.run n { s with host := List.replicate n (.tick .encoder) ++ rest } =
      .next (putEnc (encRun c n s.enc s.mem) { s with host := rest }) := by
  induction n generalizing s with
  | zero => rfl
  | succ n ih =>
    have hstep := (step_tick .encoder (List.replicate n (.tick .encoder) ++ rest) s).trans (turn_encoder_of_running hc)
    refine (core_run_succ hstep).trans ?_
    have hkeep := encStep_keepsCall c s.enc s.mem
    rw [encRun]
    dsimp only
    cases hflow : encStep c s.enc s.mem with
    | goOn e m =>
      rw [hflow] at hkeep
      have hc' : (putEnc (.goOn e m) s).enc.call = some c := Eq.trans hkeep hc
      exact (ih hc').trans (congrArg _ (putEnc_putEnc_goOn _ e m { s with host := rest }))
    | ended r m => exact core_run_ticks_of_idle (e := .encoder) (s := putEnc (.ended r m) s) rfl n rest

/-- The turns of an instance that runs a DECODE are as many steps of DECODE's loop; those after its end do nothing. -/
theorem core_run_ticks_decoder {s : State} {k : Nat} {d : Decoder} {c : DecCall} (hd : s.decs[k]? = some d)
    (hc : d.call = some c) (n : Nat) (rest : List HostAction) :
    core.run n { s with host := List.replicate n (.tick (.decoder k)) ++ rest } =
      .next (putDec k (decRun s.params c n d s.mem) { s with host := rest }) := by
  obtain ⟨hk, -⟩ := List.getElem?_eq_some_iff.mp hd
  induction n generalizing s d with
  | zero =>
    obtain ⟨-, rfl⟩ := List.getElem?_eq_some_iff.mp hd
    simp [decRun, putDec, Host.Core.run]
  | succ n ih =>
    have hstep := (step_tick (.decoder k) (List.replicate n (.tick (.decoder k)) ++ rest) s).trans
      (turn_decoder_of_running hd hc)
    refine (core_run_succ hstep).trans ?_
    have hkeep := decStep_keepsCall s.params c d s.mem
    rw [decRun]
    dsimp only
    cases hflow : decStep s.params c d s.mem with
    | goOn d' m =>
      rw [hflow] at hkeep
      have hd' : (putDec k (.goOn d' m) s).decs[k]? = some d' := by simp [hk]
      exact (ih hd' (Eq.trans hkeep hc) (by simpa using hk)).trans
        (congrArg _ (putDec_putDec_goOn k _ d' m { s with host := rest }))
    | ended r esc m =>
      have hidle : fetch (.decoder k) (putDec k (.ended r esc m) s) = none := by simp [fetch, fetchDec, hk]
      exact core_run_ticks_of_idle hidle n rest

/-! ## How many steps a command takes -/

/-- A payload byte's operation advances `ei` by one, or ends the ENCODE for lack of room (40_encoder R73 to R75). -/
theorem encBody_cases (b : Byte) (o : Buffer) (e : Encoder) (m : Memory) :
    (∃ e' m', encBody b o e m = .goOn e' m' ∧ e'.ei = e.ei + 1) ∨
      ∃ m', encBody b o e m = .ended .capacityExceeded m' := by
  unfold encBody
  split
  · rcases Nat.lt_trichotomy (e.en + 1) o.len with h | h | h
    · exact .inl ⟨_, _, eEndBody_of_room h, rfl⟩
    · exact .inr ⟨_, eEndBody_of_one h⟩
    · exact .inr ⟨_, eEndBody_of_full (Nat.le_of_lt_succ h)⟩
  · split
    · rcases Nat.lt_trichotomy (e.en + 1) o.len with h | h | h
      · exact .inl ⟨_, _, eEscBody_of_room h, rfl⟩
      · exact .inr ⟨_, eEscBody_of_one h⟩
      · exact .inr ⟨_, eEscBody_of_full (Nat.le_of_lt_succ h)⟩
    · rcases Nat.lt_or_ge e.en o.len with h | h
      · exact .inl ⟨_, _, eLitBody_of_room h, rfl⟩
      · exact .inr ⟨_, eLitBody_of_full h⟩

/-- A wire byte's operation advances `di` by one, or ends the DECODE (41_decoder R94 to R99). -/
theorem decBody_cases (x esc : Bool) (b : Byte) (o : Buffer) (d : Decoder) (m : Memory) :
    (∃ d' m', decBody x esc b o d m = .goOn d' m' ∧ d'.di = d.di + 1) ∨
      ∃ r esc' m', decBody x esc b o d m = .ended r esc' m' := by
  unfold decBody
  split
  · split
    · rcases Nat.lt_or_ge d.dn o.len with h | h
      · exact .inl ⟨_, _, dXendBody_of_room h, rfl⟩
      · exact .inr ⟨_, _, _, dXendBody_of_full h⟩
    · split
      · rcases Nat.lt_or_ge d.dn o.len with h | h
        · exact .inl ⟨_, _, dXescBody_of_room h, rfl⟩
        · exact .inr ⟨_, _, _, dXescBody_of_full h⟩
      · exact .inr ⟨_, _, _, dXbadBody_eq x o d m⟩
  · split
    · exact .inr ⟨_, _, _, dEndBody_eq o d m⟩
    · split
      · exact .inl ⟨_, _, dEscBody_eq o d m, rfl⟩
      · rcases Nat.lt_or_ge d.dn o.len with h | h
        · exact .inl ⟨_, _, dLitBody_of_room h, rfl⟩
        · exact .inr ⟨_, _, _, dLitBody_of_full h⟩

/-- With `j` payload bytes left ENCODE's loop ends after at most `j + 1` steps and goes on after fewer than it takes; it
takes all `j + 1` unless it runs out of room (40_encoder R71). -/
theorem encRun_ends {c : EncCall} {j : Nat} {e : Encoder} (m : Memory) (hj : e.ei + j = c.payload.len) :
    ∃ n r m', n ≤ j + 1 ∧ encRun c n e m = .ended r m' ∧ (r ≠ .capacityExceeded → n = j + 1) ∧
      ∀ i, i < n → ∃ e' m', encRun c i e m = .goOn e' m' := by
  induction j generalizing e m with
  | zero =>
    have hstep := encStep_of_le (c := c) (e := e) m (by omega)
    obtain ⟨r, m', hfin⟩ : ∃ r m', eFinBody c.encOut e m = .ended r m' := by
      rcases Nat.lt_or_ge e.en c.encOut.len with h | h
      · exact ⟨_, _, eFinBody_of_room h⟩
      · exact ⟨_, _, eFinBody_of_full h⟩
    refine ⟨1, r, m', by omega, by simp [encRun, hstep, hfin], fun _ => rfl, fun i hi => ?_⟩
    exact ⟨e, m, by rw [Nat.lt_one_iff.mp hi, encRun]⟩
  | succ j ih =>
    have hstep := encStep_of_lt (c := c) (e := e) m (by omega)
    rcases encBody_cases (memRead m c.payload e.ei) c.encOut { e with b := memRead m c.payload e.ei } m with
      ⟨e1, m1, hgo, hei⟩ | ⟨m1, hend⟩
    · obtain ⟨n, r, m', hn, hr, hok, hgoes⟩ := ih (e := e1) m1 (by simp only [hei]; omega)
      have hrun (i : Nat) : encRun c (i + 1) e m = encRun c i e1 m1 := by simp [encRun, hstep, hgo]
      refine ⟨n + 1, r, m', by omega, (hrun n).trans hr, fun h => by rw [hok h], fun i hi => ?_⟩
      cases i with
      | zero => exact ⟨e, m, rfl⟩
      | succ i => exact hrun i ▸ hgoes i (by omega)
    · refine ⟨1, _, m1, by omega, by simp [encRun, hstep, hend], fun h => absurd rfl h, fun i hi => ?_⟩
      exact ⟨e, m, by rw [Nat.lt_one_iff.mp hi, encRun]⟩

/-- With `j` chunk bytes left DECODE's loop ends after at most `j + 1` steps and goes on after fewer than it takes
(41_decoder R92). -/
theorem decRun_ends (p : Config.Params) {c : DecCall} {j : Nat} {d : Decoder} (m : Memory)
    (hj : d.di + j = c.chunk.len) :
    ∃ n r esc m', n ≤ j + 1 ∧ decRun p c n d m = .ended r esc m' ∧
      ∀ i, i < n → ∃ d' m', decRun p c i d m = .goOn d' m' := by
  induction j generalizing d m with
  | zero =>
    have hstep := decStep_of_le p (c := c) (d := d) m (by omega)
    refine ⟨1, .frameIncomplete d.di d.dn, d.esc, m, by omega, by simp [decRun, hstep, dEocBody_eq], fun i hi => ?_⟩
    exact ⟨d, m, by rw [Nat.lt_one_iff.mp hi, decRun]⟩
  | succ j ih =>
    have hstep := decStep_of_lt p (c := c) (d := d) m (by omega)
    rcases decBody_cases p.xbadConsumes d.esc (memRead m c.chunk d.di) c.decOut
      { d with b := memRead m c.chunk d.di } m with ⟨d1, m1, hgo, hdi⟩ | ⟨r, esc, m1, hend⟩
    · obtain ⟨n, r, esc, m', hn, hr, hgoes⟩ := ih (d := d1) m1 (by simp only [hdi]; omega)
      have hrun (i : Nat) : decRun p c (i + 1) d m = decRun p c i d1 m1 := by simp [decRun, hstep, hgo]
      refine ⟨n + 1, r, esc, m', by omega, (hrun n).trans hr, fun i hi => ?_⟩
      cases i with
      | zero => exact ⟨d, m, rfl⟩
      | succ i => exact hrun i ▸ hgoes i (by omega)
    · refine ⟨1, r, esc, m1, by omega, by simp [decRun, hstep, hend], fun i hi => ?_⟩
      exact ⟨d, m, by rw [Nat.lt_one_iff.mp hi, decRun]⟩

theorem EncFlow.andThen_assoc (f : EncFlow) (g h : Encoder → Memory → EncFlow) :
    (f.andThen g).andThen h = f.andThen fun e m => (g e m).andThen h := by
  cases f <;> rfl

theorem DecFlow.andThen_assoc (f : DecFlow) (g h : Decoder → Memory → DecFlow) :
    (f.andThen g).andThen h = f.andThen fun d m => (g d m).andThen h := by
  cases f <;> rfl

theorem encRun_add (c : EncCall) (n i : Nat) (e : Encoder) (m : Memory) :
    encRun c (n + i) e m = (encRun c n e m).andThen (encRun c i) := by
  induction n generalizing e m with
  | zero => simp [encRun]
  | succ n ih =>
    rw [Nat.succ_add, encRun, encRun, EncFlow.andThen_assoc]
    exact congrArg _ (funext₂ ih)

theorem decRun_add (p : Config.Params) (c : DecCall) (n i : Nat) (d : Decoder) (m : Memory) :
    decRun p c (n + i) d m = (decRun p c n d m).andThen (decRun p c i) := by
  induction n generalizing d m with
  | zero => simp [decRun]
  | succ n ih =>
    rw [Nat.succ_add, decRun, decRun, DecFlow.andThen_assoc]
    exact congrArg _ (funext₂ ih)

/-- More steps than ENCODE's loop takes change nothing. -/
theorem encRun_of_ended {c : EncCall} {n n' : Nat} {e : Encoder} {m m' : Memory} {r : EncResult}
    (h : encRun c n e m = .ended r m') (hle : n ≤ n') : encRun c n' e m = .ended r m' := by
  obtain ⟨i, rfl⟩ := Nat.exists_eq_add_of_le hle
  rw [encRun_add, h, EncFlow.ended_andThen]

/-- More steps than DECODE's loop takes change nothing. -/
theorem decRun_of_ended {p : Config.Params} {c : DecCall} {n n' : Nat} {d : Decoder} {m m' : Memory} {r : DecResult}
    {esc : Bool} (h : decRun p c n d m = .ended r esc m') (hle : n ≤ n') : decRun p c n' d m = .ended r esc m' := by
  obtain ⟨i, rfl⟩ := Nat.exists_eq_add_of_le hle
  rw [decRun_add, h, DecFlow.ended_andThen]

/-! ## The command whole and in byte steps -/

theorem onEncoder_of_allowed {p o : Buffer} {s : State} (go : Encoder → Memory → EncFlow) (h : EncodeAllowed p o s) :
    onEncoder p o go s = .next (putEnc (go (encBegun p o s.enc) s.mem) s) := by
  obtain ⟨hidle, hfits⟩ := h
  have hno : objection s.enc.call.isSome p o s = none := objection_eq_none.mpr ⟨by rw [hidle]; rfl, hfits⟩
  simp only [onEncoder, hno]

theorem onDecoder_of_allowed {k : Nat} {c o : Buffer} {d : Decoder} {s : State} (go : Decoder → Memory → DecFlow)
    (h : DecodeAllowed k c o d s) : onDecoder k c o go s = .next (putDec k (go (decBegun c o d) s.mem) s) := by
  obtain ⟨hd, hidle, hfits⟩ := h
  have hno : objection d.call.isSome c o s = none := objection_eq_none.mpr ⟨by rw [hidle]; rfl, hfits⟩
  simp only [onDecoder, hd, hno]

/-- An ENCODE begun and given `n` turns has made at most `n` steps of its loop. -/
theorem core_run_start_encode {p o : Buffer} {s : State} (h : EncodeAllowed p o s) (n : Nat) :
    core.run (n + 1) { s with host := .start (.encode p o) :: (List.replicate n (.tick .encoder) ++ s.host) } =
      .next (putEnc (encRun ⟨p, o⟩ n (encBegun p o s.enc) s.mem) s) := by
  have hstart := (step_start (.encode p o) (List.replicate n (.tick .encoder) ++ s.host) s).trans
    (onEncoder_of_allowed .goOn (s := { s with host := _ }) h)
  refine (core_run_succ hstart).trans ?_
  refine (core_run_ticks_encoder (s := putEnc (.goOn (encBegun p o s.enc) s.mem) s) rfl n s.host).trans ?_
  exact congrArg _ (putEnc_putEnc_goOn _ _ _ s)

theorem DecodeAllowed.lt_length {k : Nat} {c o : Buffer} {d : Decoder} {s : State} (h : DecodeAllowed k c o d s) :
    k < s.decs.length := by
  obtain ⟨hd, -⟩ := h
  obtain ⟨hk, -⟩ := List.getElem?_eq_some_iff.mp hd
  exact hk

/-- A DECODE begun and given `n` turns has made at most `n` steps of its loop. -/
theorem core_run_start_decode {k : Nat} {c o : Buffer} {d : Decoder} {s : State} (h : DecodeAllowed k c o d s) (n : Nat) :
    core.run (n + 1) { s with host := .start (.decode k c o) :: (List.replicate n (.tick (.decoder k)) ++ s.host) } =
      .next (putDec k (decRun s.params ⟨c, o⟩ n (decBegun c o d) s.mem) s) := by
  have hk := h.lt_length
  have hstart := (step_start (.decode k c o) (List.replicate n (.tick (.decoder k)) ++ s.host) s).trans
    (onDecoder_of_allowed .goOn (s := { s with host := _ }) h)
  refine (core_run_succ hstart).trans ?_
  have hd' : (putDec k (.goOn (decBegun c o d) s.mem) s).decs[k]? = some (decBegun c o d) := by simp [hk]
  refine (core_run_ticks_decoder hd' rfl n s.host).trans ?_
  exact congrArg _ (putDec_putDec_goOn k _ _ _ s)

/-- Settles O55: both ways make the steps of ENCODE's loop, and the loop's end is reached. -/
theorem atomicEncodeIsItsByteSteps : Obligations.AtomicEncodeIsItsByteSteps := by
  intro s p o h
  obtain ⟨n, r, m', hn, hend, hok, hgoes⟩ :=
    encRun_ends (c := ⟨p, o⟩) (j := p.len) (e := encBegun p o s.enc) s.mem (by simp)
  refine ⟨n, putEnc (.ended r m') s, hn, ?_, hok, ?_, fun i hi => ?_⟩
  · rw [← encRun_of_ended hend hn]
    exact onEncoder_of_allowed _ h
  · rw [← hend]
    exact core_run_start_encode h n
  · obtain ⟨e', m1, hgo⟩ := hgoes i hi
    have hkeep := encRun_keepsCall ⟨p, o⟩ i (encBegun p o s.enc) s.mem
    rw [hgo] at hkeep
    exact ⟨_, core_run_start_encode h i, by rw [hgo]; exact hkeep⟩

/-- Settles O56: both ways make the steps of DECODE's loop, and the loop's end is reached. -/
theorem atomicDecodeIsItsByteSteps : Obligations.AtomicDecodeIsItsByteSteps := by
  intro s k d c o h
  have hk := h.lt_length
  obtain ⟨n, r, esc, m', hn, hend, hgoes⟩ :=
    decRun_ends s.params (c := ⟨c, o⟩) (j := c.len) (d := decBegun c o d) s.mem (by simp)
  refine ⟨n, putDec k (.ended r esc m') s, hn, ?_, ?_, fun i hi => ?_⟩
  · rw [← decRun_of_ended hend hn]
    exact onDecoder_of_allowed _ h
  · rw [← hend]
    exact core_run_start_decode h n
  · obtain ⟨d', m1, hgo⟩ := hgoes i hi
    have hkeep := decRun_keepsCall s.params ⟨c, o⟩ i (decBegun c o d) s.mem
    rw [hgo] at hkeep
    exact ⟨_, d', core_run_start_decode h i, by rw [hgo]; simp [hk], hkeep⟩

end Sys2Proof.Machine
end

section
/-! SUPPORT and PROOFS. Issued commands, reset, and lengths that do not fit (00_scope R6, R7, 10_state R24, 70 R172). -/

namespace Sys2Proof.Machine

/-- Settles O6, by the equation of `step` on a pending action. -/
theorem stepRunsTheIssuedCommand : Obligations.StepRunsTheIssuedCommand := by
  intro s c rest h
  simp only [step, h, act]

/-- Settles O44: the instances after reset are copies of `Decoder.reset`. -/
theorem resetLeavesIdle : Obligations.ResetLeavesIdle := by
  refine ⟨fun d hd => ?_, rfl, rfl, rfl⟩
  obtain rfl : d = Decoder.reset := List.eq_of_mem_replicate hd
  rfl

theorem fits_eq_false {p : Config.Params} {n len : Nat} (hp : p.lenBits = some n) (h : 2 ^ n ≤ len) :
    fits p len = false := by
  simp [fits, hp, h]

/-- The lengths are looked at before the windows, and no unit but a busy one is looked at before the lengths. -/
theorem objection_of_not_fits {i o : Buffer} {s : State} {n : Nat} (hp : s.params.lenBits = some n)
    (h : 2 ^ n ≤ i.len ∨ 2 ^ n ≤ o.len) : objection false i o s = some .lengthsDoNotFit := by
  rcases h with h | h
  · simp [objection, fits_eq_false hp h]
  · simp [objection, fits_eq_false hp h]

/-- Settles O47: both commands begin with `objection`. -/
theorem lengthsThatDoNotFitAreRefused : Obligations.LengthsThatDoNotFitAreRefused := by
  refine ⟨fun s n p o hp hidle h => ?_, fun s n k d c o hp hd hidle h => ?_⟩
  · simp [exec, execEncode, onEncoder, hidle, objection_of_not_fits hp h]
  · simp [exec, execDecode, onDecoder, hd, hidle, objection_of_not_fits hp h]

end Sys2Proof.Machine
end

section
/-! SUPPORT and PROOFS. The unit and the memory a flow leaves; the registers of commands in progress stay in range (10_state
R15, R16); the state after reset and an instance DNEW adds (10_state R24, 42_control R121). -/

namespace Sys2Proof.Machine

/-! ## What a flow leaves -/

/-- The Encoder a flow leaves, `draw` being the counter of free values (10_state R24). -/
def EncFlow.unit (draw : Nat) : EncFlow → Encoder
  | .goOn e _ => e
  | .ended r _ => encIdle draw r

/-- The memory a flow leaves. -/
def EncFlow.mem : EncFlow → Memory
  | .goOn _ m => m
  | .ended _ m => m

/-- The instance a flow leaves, `draw` being the counter of free values (10_state R24). -/
def DecFlow.unit (draw : Nat) : DecFlow → Decoder
  | .goOn d _ => d
  | .ended r esc _ => decIdle draw esc r

/-- The memory a flow leaves. -/
def DecFlow.mem : DecFlow → Memory
  | .goOn _ m => m
  | .ended _ _ m => m

@[simp] theorem EncFlow.unit_goOn (n : Nat) (e : Encoder) (m : Memory) : (EncFlow.goOn e m).unit n = e := rfl
@[simp] theorem EncFlow.unit_ended (n : Nat) (r : EncResult) (m : Memory) : (EncFlow.ended r m).unit n = encIdle n r := rfl
@[simp] theorem EncFlow.mem_goOn (e : Encoder) (m : Memory) : (EncFlow.goOn e m).mem = m := rfl
@[simp] theorem EncFlow.mem_ended (r : EncResult) (m : Memory) : (EncFlow.ended r m).mem = m := rfl
@[simp] theorem DecFlow.unit_goOn (n : Nat) (d : Decoder) (m : Memory) : (DecFlow.goOn d m).unit n = d := rfl
@[simp] theorem DecFlow.unit_ended (n : Nat) (r : DecResult) (esc : Bool) (m : Memory) :
    (DecFlow.ended r esc m).unit n = decIdle n esc r := rfl
@[simp] theorem DecFlow.mem_goOn (d : Decoder) (m : Memory) : (DecFlow.goOn d m).mem = m := rfl
@[simp] theorem DecFlow.mem_ended (r : DecResult) (esc : Bool) (m : Memory) : (DecFlow.ended r esc m).mem = m := rfl

theorem putEnc_enc (f : EncFlow) (s : State) : (putEnc f s).enc = f.unit s.draws := by cases f <;> rfl
theorem putEnc_mem (f : EncFlow) (s : State) : (putEnc f s).mem = f.mem := by cases f <;> rfl
theorem putDec_decs (k : Nat) (f : DecFlow) (s : State) : (putDec k f s).decs = s.decs.set k (f.unit s.draws) := by
  cases f <;> rfl
theorem putDec_mem (k : Nat) (f : DecFlow) (s : State) : (putDec k f s).mem = f.mem := by cases f <;> rfl

theorem putDec_decs_self {k : Nat} {d : Decoder} {s : State} (f : DecFlow) (hd : s.decs[k]? = some d) :
    (putDec k f s).decs[k]? = some (f.unit s.draws) := by
  obtain ⟨hk, -⟩ := List.getElem?_eq_some_iff.mp hd
  rw [putDec_decs, List.getElem?_set_self hk]

/-! ## What the storing byte operations do -/

/-- What a payload byte's operation does: it stores the bytes `vs` at the output cursor and advances, or it stores those there
is room for and the ENCODE ends (40_encoder R73 to R75). -/
def encStores (o : Buffer) (vs : List Byte) (e : Encoder) (m : Memory) : EncFlow :=
  if e.en + vs.length ≤ o.len then
    .goOn { e with ei := e.ei + 1, en := e.en + vs.length } (m.fill (o.base + e.en) vs)
  else .ended .capacityExceeded (m.fill (o.base + e.en) (vs.take (o.len - e.en)))

/-- What D.LIT, D.XEND and D.XESC do: store `v` at the output cursor, leave `esc` and advance, or, with the output full, end
the DECODE with everything as it was (41_decoder R94, R97, R98). -/
def decStores (o : Buffer) (esc : Bool) (v : Byte) (d : Decoder) (m : Memory) : DecFlow :=
  if d.dn < o.len then .goOn { d with esc := esc, di := d.di + 1, dn := d.dn + 1 } (m.write (o.base + d.dn) v)
  else .ended (.err .capacityExceeded d.di d.dn) d.esc m

theorem encStores_of_room {o : Buffer} {vs : List Byte} {e : Encoder} {m : Memory} (h : e.en + vs.length ≤ o.len) :
    encStores o vs e m = .goOn { e with ei := e.ei + 1, en := e.en + vs.length } (m.fill (o.base + e.en) vs) :=
  if_pos h

theorem encStores_of_full {o : Buffer} {vs : List Byte} {e : Encoder} {m : Memory} (h : o.len < e.en + vs.length) :
    encStores o vs e m = .ended .capacityExceeded (m.fill (o.base + e.en) (vs.take (o.len - e.en))) :=
  if_neg (Nat.not_le.mpr h)

theorem decStores_of_room {o : Buffer} {esc : Bool} {v : Byte} {d : Decoder} {m : Memory} (h : d.dn < o.len) :
    decStores o esc v d m =
      .goOn { d with esc := esc, di := d.di + 1, dn := d.dn + 1 } (m.write (o.base + d.dn) v) :=
  if_pos h

theorem decStores_of_full {o : Buffer} {esc : Bool} {v : Byte} {d : Decoder} {m : Memory} (h : o.len ≤ d.dn) :
    decStores o esc v d m = .ended (.err .capacityExceeded d.di d.dn) d.esc m :=
  if_neg (Nat.not_lt.mpr h)

/-- E.LIT stores its byte (40_encoder R73). -/
theorem eLitBody_eq_stores (o : Buffer) (e : Encoder) (m : Memory) : eLitBody o e m = encStores o [e.b] e m := by
  rcases Nat.lt_or_ge e.en o.len with h | h
  · rw [eLitBody_of_room h, encStores_of_room (by exact h)]
    rfl
  · rw [eLitBody_of_full h, encStores_of_full (by exact Nat.lt_succ_of_le h), Nat.sub_eq_zero_of_le h]
    rfl

/-- E.END stores ESC and ESC_END (40_encoder R74). -/
theorem eEndBody_eq_stores (o : Buffer) (e : Encoder) (m : Memory) :
    eEndBody o e m = encStores o [ESC, ESC_END] e m := by
  rcases Nat.lt_trichotomy (e.en + 1) o.len with h | h | h
  · rw [eEndBody_of_room h, encStores_of_room (by exact h)]
    rfl
  · rw [eEndBody_of_one h, encStores_of_full (by exact h ▸ Nat.lt_succ_self _), ← h, Nat.add_sub_cancel_left]
    rfl
  · have hfull := Nat.le_of_lt_succ h
    rw [eEndBody_of_full hfull, encStores_of_full (by exact Nat.lt_succ_of_lt h), Nat.sub_eq_zero_of_le hfull]
    rfl

/-- E.ESC stores ESC and ESC_ESC (40_encoder R75). -/
theorem eEscBody_eq_stores (o : Buffer) (e : Encoder) (m : Memory) :
    eEscBody o e m = encStores o [ESC, ESC_ESC] e m := by
  rcases Nat.lt_trichotomy (e.en + 1) o.len with h | h | h
  · rw [eEscBody_of_room h, encStores_of_room (by exact h)]
    rfl
  · rw [eEscBody_of_one h, encStores_of_full (by exact h ▸ Nat.lt_succ_self _), ← h, Nat.add_sub_cancel_left]
    rfl
  · have hfull := Nat.le_of_lt_succ h
    rw [eEscBody_of_full hfull, encStores_of_full (by exact Nat.lt_succ_of_lt h), Nat.sub_eq_zero_of_le hfull]
    rfl

/-- D.LIT stores its byte and leaves `esc` (41_decoder R94). -/
theorem dLitBody_eq_stores (o : Buffer) (d : Decoder) (m : Memory) : dLitBody o d m = decStores o d.esc d.b d m := by
  rcases Nat.lt_or_ge d.dn o.len with h | h
  · rw [dLitBody_of_room h, decStores_of_room h]
  · rw [dLitBody_of_full h, decStores_of_full h]

/-- D.XEND stores END and clears `esc` (41_decoder R97). -/
theorem dXendBody_eq_stores (o : Buffer) (d : Decoder) (m : Memory) : dXendBody o d m = decStores o false END d m := by
  rcases Nat.lt_or_ge d.dn o.len with h | h
  · rw [dXendBody_of_room h, decStores_of_room h]
  · rw [dXendBody_of_full h, decStores_of_full h]

/-- D.XESC stores ESC and clears `esc` (41_decoder R98). -/
theorem dXescBody_eq_stores (o : Buffer) (d : Decoder) (m : Memory) : dXescBody o d m = decStores o false ESC d m := by
  rcases Nat.lt_or_ge d.dn o.len with h | h
  · rw [dXescBody_of_room h, decStores_of_room h]
  · rw [dXescBody_of_full h, decStores_of_full h]

/-! ## Registers in range -/

/-- The range of an ENCODE's registers (10_state R15). -/
theorem encInRange_of_running {e : Encoder} {c : EncCall} (hc : e.call = some c) :
    encInRange e = true ↔ e.ei ≤ c.payload.len ∧ e.en ≤ c.encOut.len ∧ e.ei ≤ e.en ∧ e.en ≤ 2 * e.ei := by
  simp [encInRange, hc, and_assoc]

/-- The range of a DECODE's registers (10_state R16). -/
theorem decInRange_of_running {d : Decoder} {c : DecCall} (hc : d.call = some c) :
    decInRange d = true ↔ d.dn ≤ d.di ∧ d.di ≤ c.chunk.len ∧ d.dn ≤ c.decOut.len := by
  simp [decInRange, hc, and_assoc]

theorem decInRange_of_idle {d : Decoder} (hc : d.call = none) : decInRange d = true := by
  simp [decInRange, hc]

/-- A body that keeps the registers of ENCODE in range while a payload byte is left. -/
def EncBodyKeepsRange (body : Buffer → Encoder → Memory → EncFlow) : Prop :=
  ∀ (c : EncCall) (e : Encoder) (m : Memory) (n : Nat), e.call = some c → e.ei < c.payload.len →
    encInRange e = true → encInRange ((body c.encOut e m).unit n) = true

/-- A body that keeps the registers of DECODE in range while a chunk byte is left. -/
def DecBodyKeepsRange (body : Buffer → Decoder → Memory → DecFlow) : Prop :=
  ∀ (c : DecCall) (d : Decoder) (m : Memory) (n : Nat), d.call = some c → d.di < c.chunk.len →
    decInRange d = true → decInRange ((body c.decOut d m).unit n) = true

/-- One payload byte read for one or two bytes written keeps the range (10_state R15). -/
theorem encStores_keepsRange {c : EncCall} {vs : List Byte} {e : Encoder} (m : Memory) (n : Nat) (hc : e.call = some c)
    (hi : e.ei < c.payload.len) (hr : encInRange e = true) (hlen : 1 ≤ vs.length ∧ vs.length ≤ 2) :
    encInRange ((encStores c.encOut vs e m).unit n) = true := by
  rcases Nat.lt_or_ge c.encOut.len (e.en + vs.length) with h | h
  · rw [encStores_of_full h]
    rfl
  · rw [encStores_of_room h]
    obtain ⟨-, -, hlow, hhigh⟩ := (encInRange_of_running hc).mp hr
    refine (encInRange_of_running (c := c) (by exact hc)).mpr ⟨hi, h, ?_, ?_⟩ <;> simp only [EncFlow.unit_goOn] <;> omega

/-- One chunk byte read for one byte written keeps the range, whatever `esc` (10_state R16). -/
theorem decStores_keepsRange {c : DecCall} {d : Decoder} (esc : Bool) (v : Byte) (m : Memory) (n : Nat)
    (hc : d.call = some c) (hi : d.di < c.chunk.len) (hr : decInRange d = true) :
    decInRange ((decStores c.decOut esc v d m).unit n) = true := by
  rcases Nat.lt_or_ge d.dn c.decOut.len with h | h
  · rw [decStores_of_room h]
    obtain ⟨hle, -, -⟩ := (decInRange_of_running hc).mp hr
    exact (decInRange_of_running (c := c) (by exact hc)).mpr ⟨Nat.succ_le_succ hle, hi, h⟩
  · rw [decStores_of_full h]
    rfl

theorem eLitBody_keepsRange : EncBodyKeepsRange eLitBody := fun c e m n hc hi hr =>
  eLitBody_eq_stores c.encOut e m ▸ encStores_keepsRange m n hc hi hr ⟨le_rfl, one_le_two⟩

theorem eEndBody_keepsRange : EncBodyKeepsRange eEndBody := fun c e m n hc hi hr =>
  eEndBody_eq_stores c.encOut e m ▸ encStores_keepsRange m n hc hi hr (by decide)

theorem eEscBody_keepsRange : EncBodyKeepsRange eEscBody := fun c e m n hc hi hr =>
  eEscBody_eq_stores c.encOut e m ▸ encStores_keepsRange m n hc hi hr (by decide)

/-- E.FIN always ends the ENCODE (40_encoder R76). -/
theorem eFinBody_ends (o : Buffer) (e : Encoder) (m : Memory) : ∃ r m', eFinBody o e m = .ended r m' := by
  rcases Nat.lt_or_ge e.en o.len with h | h
  · exact ⟨_, _, eFinBody_of_room h⟩
  · exact ⟨_, _, eFinBody_of_full h⟩

theorem dLitBody_keepsRange : DecBodyKeepsRange dLitBody := fun c d m n hc hi hr =>
  dLitBody_eq_stores c.decOut d m ▸ decStores_keepsRange d.esc d.b m n hc hi hr

theorem dEndBody_keepsRange : DecBodyKeepsRange dEndBody := fun _ _ _ _ _ _ _ => rfl

theorem dEscBody_keepsRange : DecBodyKeepsRange dEscBody := by
  intro c d m n hc hi hr
  obtain ⟨hle, -, hcap⟩ := (decInRange_of_running hc).mp hr
  exact (decInRange_of_running (c := c) (by exact hc)).mpr ⟨Nat.le_succ_of_le hle, hi, hcap⟩

theorem dXendBody_keepsRange : DecBodyKeepsRange dXendBody := fun c d m n hc hi hr =>
  dXendBody_eq_stores c.decOut d m ▸ decStores_keepsRange false END m n hc hi hr

theorem dXescBody_keepsRange : DecBodyKeepsRange dXescBody := fun c d m n hc hi hr =>
  dXescBody_eq_stores c.decOut d m ▸ decStores_keepsRange false ESC m n hc hi hr

theorem dXbadBody_keepsRange (x : Bool) : DecBodyKeepsRange (dXbadBody x) := by
  intro c d m n _ _ _
  rw [dXbadBody_eq]
  rfl

/-! ## The states a step leaves have their registers in range -/

theorem registersInRange_iff (s : State) :
    registersInRange s = true ↔ encInRange s.enc = true ∧ ∀ d ∈ s.decs, decInRange d = true := by
  simp [registersInRange]

theorem putEnc_keepsRange {s : State} {f : EncFlow} (hs : registersInRange s = true)
    (hf : encInRange (f.unit s.draws) = true) : registersInRange (putEnc f s) = true := by
  obtain ⟨-, hdecs⟩ := (registersInRange_iff s).mp hs
  exact (registersInRange_iff _).mpr ⟨putEnc_enc f s ▸ hf, putEnc_decs f s ▸ hdecs⟩

theorem forall_decInRange_set {ds : List Decoder} {d : Decoder} (k : Nat) (hds : ∀ x ∈ ds, decInRange x = true)
    (hd : decInRange d = true) : ∀ x ∈ ds.set k d, decInRange x = true := by
  intro x hx
  rcases List.mem_or_eq_of_mem_set hx with hx | rfl
  · exact hds x hx
  · exact hd

theorem putDec_keepsRange {s : State} {k : Nat} {f : DecFlow} (hs : registersInRange s = true)
    (hf : decInRange (f.unit s.draws) = true) : registersInRange (putDec k f s) = true := by
  obtain ⟨henc, hdecs⟩ := (registersInRange_iff s).mp hs
  exact (registersInRange_iff _).mpr ⟨putDec_enc k f s ▸ henc, putDec_decs k f s ▸ forall_decInRange_set k hdecs hf⟩

theorem decInRange_of_getElem? {s : State} {k : Nat} {d : Decoder} (hs : registersInRange s = true)
    (hd : s.decs[k]? = some d) : decInRange d = true := by
  obtain ⟨-, hdecs⟩ := (registersInRange_iff s).mp hs
  exact hdecs d (List.mem_of_getElem? hd)

theorem onPayloadByte_keepsRange {ok : Bool} {v : Byte} {body : Buffer → Encoder → Memory → EncFlow} {s t : State}
    (hb : EncBodyKeepsRange body) (hs : registersInRange s = true) (h : onPayloadByte ok v body s = .next t) :
    registersInRange t = true := by
  obtain ⟨c, hc, -, hi, rfl⟩ := onPayloadByte_next h
  obtain ⟨henc, -⟩ := (registersInRange_iff s).mp hs
  exact putEnc_keepsRange hs (hb c { s.enc with b := v } s.mem _ hc hi henc)

theorem execEFin_keepsRange {s t : State} (hs : registersInRange s = true) (h : execEFin s = .next t) :
    registersInRange t = true := by
  obtain ⟨c, -, -, rfl⟩ := onPayloadEnd_next h
  obtain ⟨r, m, hend⟩ := eFinBody_ends c.encOut s.enc s.mem
  exact putEnc_keepsRange hs (hend ▸ rfl)

theorem onWireByte_keepsRange {k : Nat} {esc ok : Bool} {v : Byte} {body : Buffer → Decoder → Memory → DecFlow}
    {s t : State} (hb : DecBodyKeepsRange body) (hs : registersInRange s = true)
    (h : onWireByte k esc ok v body s = .next t) : registersInRange t = true := by
  obtain ⟨d, c, hd, hc, -, -, hi, rfl⟩ := onWireByte_next h
  have hr : decInRange d = true := decInRange_of_getElem? hs hd
  exact putDec_keepsRange hs (hb c { d with b := v } s.mem _ hc hi hr)

theorem execDEoc_keepsRange {k : Nat} {s t : State} (hs : registersInRange s = true) (h : execDEoc k s = .next t) :
    registersInRange t = true := by
  obtain ⟨d, c, -, -, -, rfl⟩ := onChunkEnd_next h
  exact putDec_keepsRange hs rfl

/-- ENCODE executed whole leaves an idle Encoder, which has no registers to be in range (40_encoder R71). -/
theorem execEncode_keepsRange {p o : Buffer} {s t : State} (hs : registersInRange s = true)
    (h : execEncode p o s = .next t) : registersInRange t = true := by
  obtain ⟨-, rfl⟩ := onEncoder_next h
  obtain ⟨n, r, m, hn, hend, -⟩ := encRun_ends (c := ⟨p, o⟩) (j := p.len) (e := encBegun p o s.enc) s.mem (by simp)
  exact putEnc_keepsRange hs (encRun_of_ended hend hn ▸ rfl)

/-- DECODE executed whole leaves an idle instance, which has no registers to be in range (41_decoder R92). -/
theorem execDecode_keepsRange {k : Nat} {c o : Buffer} {s t : State} (hs : registersInRange s = true)
    (h : execDecode k c o s = .next t) : registersInRange t = true := by
  obtain ⟨d, -, -, rfl⟩ := onDecoder_next h
  obtain ⟨n, r, esc, m, hn, hend, -⟩ :=
    decRun_ends s.params (c := ⟨c, o⟩) (j := c.len) (d := decBegun c o d) s.mem (by simp)
  exact putDec_keepsRange hs (decRun_of_ended hend hn ▸ rfl)

theorem resetInstance_keepsRange {k : Nat} {s t : State} (hs : registersInRange s = true)
    (h : resetInstance k s = .next t) : registersInRange t = true := by
  obtain ⟨d, -, hc, rfl⟩ := resetInstance_next h
  exact putDec_keepsRange (f := .goOn (clearEsc d) s.mem) hs (decInRange_of_idle hc)

theorem execDnew_keepsRange {x : Option Nat} {s t : State} (hs : registersInRange s = true)
    (h : execDnew x s = .next t) : registersInRange t = true := by
  cases x with
  | none =>
    obtain rfl : _ = t := Host.Outcome.next.inj h
    obtain ⟨henc, hdecs⟩ := (registersInRange_iff s).mp hs
    refine (registersInRange_iff _).mpr ⟨henc, fun d hd => ?_⟩
    rcases List.mem_append.mp hd with hd | hd
    · exact hdecs d hd
    · exact List.mem_singleton.mp hd ▸ rfl
  | some k => exact resetInstance_keepsRange hs h

/-- Every operation keeps the range, by the shared operation it is made of. -/
theorem exec_keepsRange {i : Instr} {s t : State} (hs : registersInRange s = true) (h : exec i s = .next t) :
    registersInRange t = true := by
  cases i with
  | eLit v => exact onPayloadByte_keepsRange eLitBody_keepsRange hs h
  | eEnd => exact onPayloadByte_keepsRange eEndBody_keepsRange hs h
  | eEsc => exact onPayloadByte_keepsRange eEscBody_keepsRange hs h
  | eFin => exact execEFin_keepsRange hs h
  | dLit k v => exact onWireByte_keepsRange dLitBody_keepsRange hs h
  | dEnd k => exact onWireByte_keepsRange dEndBody_keepsRange hs h
  | dEsc k => exact onWireByte_keepsRange dEscBody_keepsRange hs h
  | dXend k => exact onWireByte_keepsRange dXendBody_keepsRange hs h
  | dXesc k => exact onWireByte_keepsRange dXescBody_keepsRange hs h
  | dXbad k v => exact onWireByte_keepsRange (dXbadBody_keepsRange s.params.xbadConsumes) hs h
  | dEoc k => exact execDEoc_keepsRange hs h
  | encode p o => exact execEncode_keepsRange hs h
  | decode k c o => exact execDecode_keepsRange hs h
  | dreset k => exact resetInstance_keepsRange hs h
  | dnew x => exact execDnew_keepsRange hs h

/-- A hardware reset leaves no instance running (70 R171). -/
theorem call_of_mem_freshDecs {n : Nat} {ds : List Decoder} {d : Decoder} (hd : d ∈ freshDecs n ds) :
    d.call = none := by
  induction ds generalizing n with
  | nil => cases hd
  | cons d0 ds ih =>
    rcases List.mem_cons.mp hd with rfl | hd
    · rfl
    · exact ih hd

theorem hardReset_registersInRange (s : State) : registersInRange (hardReset s) = true :=
  (registersInRange_iff _).mpr ⟨rfl, fun _ hd => decInRange_of_idle (call_of_mem_freshDecs hd)⟩

/-- Settles O51, by the cases of what a step can do: an operation keeps the range, a command begins at 0 and a reset ends
all. -/
theorem stepKeepsRegistersInRange : Obligations.StepKeepsRegistersInRange := by
  intro s t hs h
  obtain ⟨rest, hcases⟩ := step_cases h
  have hs' : registersInRange { s with host := rest } = true := hs
  rcases hcases with rfl | ⟨i, hi⟩ | ⟨p, o, he⟩ | ⟨k, c, o, hd⟩ | ⟨a, v, -, rfl⟩ | rfl
  · exact hs'
  · exact exec_keepsRange hs' hi
  · obtain ⟨-, rfl⟩ := onEncoder_next he
    exact putEnc_keepsRange hs' ((encInRange_of_running rfl).mpr (by simp))
  · obtain ⟨d, -, -, rfl⟩ := onDecoder_next hd
    exact putDec_keepsRange hs' ((decInRange_of_running rfl).mpr (by simp))
  · exact hs'
  · exact hardReset_registersInRange _

/-! ## The state after reset, and DNEW -/

/-- Settles O54: after reset no unit runs and memory lists nothing. -/
theorem resetMeetsTheInvariants : Obligations.ResetMeetsTheInvariants :=
  ⟨rfl, rfl, .nil, rfl⟩

/-- Settles O43: DNEW without operand appends `decFresh`; with one it is `resetInstance`, as DRESET is. -/
theorem dnewMakesAnIdleInstance : Obligations.DnewMakesAnIdleInstance :=
  ⟨fun s => ⟨_, decFresh s.draws, rfl, rfl, rfl, rfl, rfl, rfl, rfl, rfl⟩,
    fun _ _ _ hd hc => ⟨resetInstance_of_idle hd hc, rfl⟩⟩

end Sys2Proof.Machine
end

section
/-! SUPPORT and PROOFS. What the byte operations and the control operations leave unchanged (20_memory R34), and which
operations write an instance's `esc` (10_state R13, R23). -/

namespace Sys2Proof.Machine

/-! ## The byte operations of the Encoder -/

/-- A body of the Encoder that keeps the ENCODE's arguments and ENC_RESULT while it goes on, and every byte but the `w` at the
output cursor. -/
def EncBodyWritesAtMost (w : Nat) (body : Buffer → Encoder → Memory → EncFlow) : Prop :=
  ∀ (o : Buffer) (e : Encoder) (m : Memory) (n : Nat),
    ((((body o e m).unit n).call = e.call ∧ ((body o e m).unit n).result = e.result) ∨
      ((body o e m).unit n).call = none) ∧
    ∀ a, (a < o.base + e.en ∨ o.base + e.en + w ≤ a) → (body o e m).mem.read a = m.read a

theorem encStores_writesAtMost {w : Nat} {vs : Encoder → List Byte} (hlen : ∀ e, (vs e).length = w) :
    EncBodyWritesAtMost w fun o e m => encStores o (vs e) e m := by
  intro o e m n
  have hw := hlen e
  rcases Nat.lt_or_ge o.len (e.en + (vs e).length) with h | h
  · simp only [encStores_of_full h]
    refine ⟨.inr rfl, fun a ha => Memory.read_fill_of_outside m _ ?_⟩
    have := List.length_take_le' (o.len - e.en) (vs e)
    omega
  · simp only [encStores_of_room h]
    exact ⟨.inl ⟨rfl, rfl⟩, fun a ha => Memory.read_fill_of_outside m _ (by rwa [hw])⟩

theorem eLitBody_writesAtMost : EncBodyWritesAtMost 1 eLitBody := fun o e m n =>
  eLitBody_eq_stores o e m ▸ encStores_writesAtMost (vs := fun e => [e.b]) (fun _ => rfl) o e m n

theorem eEndBody_writesAtMost : EncBodyWritesAtMost 2 eEndBody := fun o e m n =>
  eEndBody_eq_stores o e m ▸ encStores_writesAtMost (vs := fun _ => [ESC, ESC_END]) (fun _ => rfl) o e m n

theorem eEscBody_writesAtMost : EncBodyWritesAtMost 2 eEscBody := fun o e m n =>
  eEscBody_eq_stores o e m ▸ encStores_writesAtMost (vs := fun _ => [ESC, ESC_ESC]) (fun _ => rfl) o e m n

theorem eFinBody_writesAtMost : EncBodyWritesAtMost 1 eFinBody := by
  intro o e m n
  rcases Nat.lt_or_ge e.en o.len with h | h
  · rw [eFinBody_of_room h]
    exact ⟨.inr rfl, fun a ha => Memory.read_write_of_ne m END (by omega)⟩
  · rw [eFinBody_of_full h]
    exact ⟨.inr rfl, fun _ _ => rfl⟩

/-- From `s` to `t` a byte operation of the Encoder has kept all but the Encoder's registers and the `w` bytes at the output
cursor. -/
def KeepsAllButEncOut (w : Nat) (s t : State) : Prop :=
  ∃ c, s.enc.call = some c ∧ t.params = s.params ∧ t.decs = s.decs ∧ t.host = s.host ∧
    ((t.enc.call = some c ∧ t.enc.result = s.enc.result) ∨ t.enc.call = none) ∧
    ∀ a, (a < c.encOut.base + s.enc.en ∨ c.encOut.base + s.enc.en + w ≤ a) → t.mem.read a = s.mem.read a

theorem putEnc_keepsAllButEncOut {w : Nat} {body : Buffer → Encoder → Memory → EncFlow} {s : State} {c : EncCall}
    {b : Byte} (hb : EncBodyWritesAtMost w body) (hc : s.enc.call = some c) :
    KeepsAllButEncOut w s (putEnc (body c.encOut { s.enc with b := b } s.mem) s) := by
  obtain ⟨hunit, hmem⟩ := hb c.encOut { s.enc with b := b } s.mem s.draws
  rw [← putEnc_enc, hc] at hunit
  rw [← putEnc_mem (s := s)] at hmem
  exact ⟨c, hc, putEnc_params _ s, putEnc_decs _ s, putEnc_host _ s, hunit, hmem⟩

theorem onPayloadByte_keepsAllButEncOut {w : Nat} {ok : Bool} {v : Byte} {body : Buffer → Encoder → Memory → EncFlow}
    {s t : State} (hb : EncBodyWritesAtMost w body) (h : onPayloadByte ok v body s = .next t) :
    KeepsAllButEncOut w s t := by
  obtain ⟨c, hc, -, -, rfl⟩ := onPayloadByte_next h
  exact putEnc_keepsAllButEncOut hb hc

theorem onPayloadEnd_keepsAllButEncOut {w : Nat} {body : Buffer → Encoder → Memory → EncFlow} {s t : State}
    (hb : EncBodyWritesAtMost w body) (h : onPayloadEnd body s = .next t) : KeepsAllButEncOut w s t := by
  obtain ⟨c, hc, -, rfl⟩ := onPayloadEnd_next h
  exact putEnc_keepsAllButEncOut (b := s.enc.b) hb hc

/-- Settles O14, by what each body writes at most. -/
theorem encoderByteOperationsFrame : Obligations.EncoderByteOperationsFrame := by
  rintro i s t (⟨v, rfl⟩ | rfl | rfl | rfl) h
  · obtain ⟨c, hc, hp, hd, hh, he, hm⟩ := onPayloadByte_keepsAllButEncOut eLitBody_writesAtMost h
    exact ⟨c, hc, hp, hd, hh, he, fun a ha _ => hm a (by omega)⟩
  · obtain ⟨c, hc, hp, hd, hh, he, hm⟩ := onPayloadByte_keepsAllButEncOut eEndBody_writesAtMost h
    refine ⟨c, hc, hp, hd, hh, he, fun a ha ha2 => hm a ?_⟩
    have := ha2 (.inl rfl)
    omega
  · obtain ⟨c, hc, hp, hd, hh, he, hm⟩ := onPayloadByte_keepsAllButEncOut eEscBody_writesAtMost h
    refine ⟨c, hc, hp, hd, hh, he, fun a ha ha2 => hm a ?_⟩
    have := ha2 (.inr rfl)
    omega
  · obtain ⟨c, hc, hp, hd, hh, he, hm⟩ := onPayloadEnd_keepsAllButEncOut eFinBody_writesAtMost h
    exact ⟨c, hc, hp, hd, hh, he, fun a ha _ => hm a (by omega)⟩

/-! ## The operations of an instance -/

/-- From `s` to `t` nothing has changed but instance `k`, memory and the counter of free values (10_state R23). -/
def KeepsAllButInstance (k : Nat) (s t : State) : Prop :=
  t.params = s.params ∧ t.enc = s.enc ∧ t.host = s.host ∧ t.decs.length = s.decs.length ∧
    ∀ j, j ≠ k → t.decs[j]? = s.decs[j]?

theorem putDec_keepsAllButInstance (k : Nat) (f : DecFlow) (s : State) : KeepsAllButInstance k s (putDec k f s) :=
  ⟨putDec_params k f s, putDec_enc k f s, putDec_host k f s, putDec_decs_length k f s, fun _ => putDec_decs_of_ne f s⟩

/-- A body of an instance that leaves `esc` as it is. -/
def DecBodyKeepsEsc (body : Buffer → Decoder → Memory → DecFlow) : Prop :=
  ∀ (o : Buffer) (d : Decoder) (m : Memory) (n : Nat), ((body o d m).unit n).esc = d.esc

theorem dLitBody_keepsEsc : DecBodyKeepsEsc dLitBody := by
  intro o d m n
  rcases Nat.lt_or_ge d.dn o.len with h | h
  · rw [dLitBody_of_room h, DecFlow.unit_goOn]
  · rw [dLitBody_of_full h, DecFlow.unit_ended, decIdle_esc]

theorem dEndBody_keepsEsc : DecBodyKeepsEsc dEndBody := fun _ _ _ _ => rfl

/-- A body of an instance that keeps the DECODE's arguments and DEC_RESULT while it goes on, and every byte but the one at
the output cursor. -/
def DecBodyWritesAtMostOne (body : Buffer → Decoder → Memory → DecFlow) : Prop :=
  ∀ (o : Buffer) (d : Decoder) (m : Memory) (n : Nat),
    ((((body o d m).unit n).call = d.call ∧ ((body o d m).unit n).result = d.result) ∨
      ((body o d m).unit n).call = none) ∧
    ∀ a, a ≠ o.base + d.dn → (body o d m).mem.read a = m.read a

theorem decStores_writesAtMostOne (esc : Decoder → Bool) (v : Decoder → Byte) :
    DecBodyWritesAtMostOne fun o d m => decStores o (esc d) (v d) d m := by
  intro o d m n
  rcases Nat.lt_or_ge d.dn o.len with h | h
  · simp only [decStores_of_room h]
    exact ⟨.inl ⟨rfl, rfl⟩, fun a ha => Memory.read_write_of_ne m _ ha⟩
  · simp only [decStores_of_full h]
    exact ⟨.inr rfl, fun _ _ => rfl⟩

theorem dLitBody_writesAtMostOne : DecBodyWritesAtMostOne dLitBody := fun o d m n =>
  dLitBody_eq_stores o d m ▸ decStores_writesAtMostOne Decoder.esc Decoder.b o d m n

theorem dXendBody_writesAtMostOne : DecBodyWritesAtMostOne dXendBody := fun o d m n =>
  dXendBody_eq_stores o d m ▸ decStores_writesAtMostOne (fun _ => false) (fun _ => END) o d m n

theorem dXescBody_writesAtMostOne : DecBodyWritesAtMostOne dXescBody := fun o d m n =>
  dXescBody_eq_stores o d m ▸ decStores_writesAtMostOne (fun _ => false) (fun _ => ESC) o d m n

/-- What a storing byte operation of an instance leaves unchanged. -/
theorem onWireByte_frame_of_writesAtMostOne {k : Nat} {esc ok : Bool} {v : Byte}
    {body : Buffer → Decoder → Memory → DecFlow} {s t : State} (hb : DecBodyWritesAtMostOne body)
    (h : onWireByte k esc ok v body s = .next t) :
    ∃ d d' c, s.decs[k]? = some d ∧ d.call = some c ∧ t.decs[k]? = some d' ∧ KeepsAllButInstance k s t ∧
      (DecBodyKeepsEsc body → d'.esc = d.esc) ∧ ((d'.call = some c ∧ d'.result = d.result) ∨ d'.call = none) ∧
      ∀ a, a ≠ c.decOut.base + d.dn → t.mem.read a = s.mem.read a := by
  obtain ⟨d, c, hd, hc, -, -, -, rfl⟩ := onWireByte_next h
  obtain ⟨hunit, hmem⟩ := hb c.decOut { d with b := v } s.mem s.draws
  rw [← putDec_mem k (s := s)] at hmem
  exact ⟨d, _, c, hd, hc, putDec_decs_self _ hd, putDec_keepsAllButInstance k _ s, fun he => he _ _ _ _,
    hunit.imp_left (And.imp_left (·.trans hc)), hmem⟩

/-- Settles O23: each of the three writes at most one byte, and D.LIT leaves `esc`. -/
theorem decoderStoringOperationsFrame : Obligations.DecoderStoringOperationsFrame := by
  rintro k i s t (⟨v, rfl⟩ | rfl | rfl) h
  · obtain ⟨d, d', c, hd, hc, hd', ⟨hp, he, hh, hl, ho⟩, hesc, hcall, hm⟩ :=
      onWireByte_frame_of_writesAtMostOne dLitBody_writesAtMostOne h
    exact ⟨d, d', c, hd, hc, hd', hp, he, hh, hl, ho, fun _ => hesc dLitBody_keepsEsc, hcall, hm⟩
  · obtain ⟨d, d', c, hd, hc, hd', ⟨hp, he, hh, hl, ho⟩, -, hcall, hm⟩ :=
      onWireByte_frame_of_writesAtMostOne dXendBody_writesAtMostOne h
    exact ⟨d, d', c, hd, hc, hd', hp, he, hh, hl, ho, by simp, hcall, hm⟩
  · obtain ⟨d, d', c, hd, hc, hd', ⟨hp, he, hh, hl, ho⟩, -, hcall, hm⟩ :=
      onWireByte_frame_of_writesAtMostOne dXescBody_writesAtMostOne h
    exact ⟨d, d', c, hd, hc, hd', hp, he, hh, hl, ho, by simp, hcall, hm⟩

/-- What an action of an instance that stores nothing leaves unchanged; `esc` too if `KeepsEsc` holds. -/
theorem putDec_frame_of_mem_eq {k : Nat} {s : State} {d : Decoder} {f : DecFlow} {KeepsEsc : Prop}
    (hd : s.decs[k]? = some d) (hm : f.mem = s.mem) (hesc : KeepsEsc → (f.unit s.draws).esc = d.esc) :
    ∃ d d', s.decs[k]? = some d ∧ (putDec k f s).decs[k]? = some d' ∧ (putDec k f s).params = s.params ∧
      (putDec k f s).enc = s.enc ∧ (putDec k f s).host = s.host ∧ (putDec k f s).decs.length = s.decs.length ∧
      (∀ j, j ≠ k → (putDec k f s).decs[j]? = s.decs[j]?) ∧ (KeepsEsc → d'.esc = d.esc) ∧
      ∀ a, (putDec k f s).mem.read a = s.mem.read a := by
  obtain ⟨hp, he, hh, hl, ho⟩ := putDec_keepsAllButInstance k f s
  exact ⟨d, _, hd, putDec_decs_self f hd, hp, he, hh, hl, ho, hesc, fun a => by rw [putDec_mem, hm]⟩

/-- Settles O24: none of these operations stores, and D.END and D.EOC end the DECODE with `esc` as it is. -/
theorem nonStoringOperationsFrame : Obligations.NonStoringOperationsFrame := by
  constructor
  · rintro k i s t (rfl | rfl | ⟨v, rfl⟩ | rfl | rfl | rfl) h
    · obtain ⟨d, c, hd, -, -, -, -, rfl⟩ := onWireByte_next h
      exact putDec_frame_of_mem_eq hd rfl fun _ => rfl
    · obtain ⟨d, c, hd, -, -, -, -, rfl⟩ := onWireByte_next h
      exact putDec_frame_of_mem_eq hd rfl (by simp)
    · obtain ⟨d, c, hd, -, -, -, -, rfl⟩ := onWireByte_next h
      exact putDec_frame_of_mem_eq hd (by rw [dXbadBody_eq, DecFlow.mem_ended]) (by simp)
    · obtain ⟨d, c, hd, -, -, rfl⟩ := onChunkEnd_next h
      exact putDec_frame_of_mem_eq hd rfl fun _ => rfl
    · obtain ⟨d, hd, -, rfl⟩ := resetInstance_next h
      exact putDec_frame_of_mem_eq (f := .goOn (clearEsc d) s.mem) hd rfl (by simp)
    · obtain ⟨d, hd, -, rfl⟩ := resetInstance_next h
      exact putDec_frame_of_mem_eq (f := .goOn (clearEsc d) s.mem) hd rfl (by simp)
  · intro s t h
    obtain rfl : _ = t := Host.Outcome.next.inj h
    exact ⟨rfl, rfl, rfl, fun j hj => List.getElem?_append_left hj, fun _ => rfl⟩

/-! ## Who writes `esc` -/

section
variable {s t : State} {j k : Nat} {d d' : Decoder}

/-- An action of instance `k` leaves every other instance's `esc`. -/
theorem putDec_esc_cases {f : DecFlow} (hd : s.decs[j]? = some d) (hd' : (putDec k f s).decs[j]? = some d') :
    d'.esc = d.esc ∨ (k = j ∧ d' = f.unit s.draws) := by
  by_cases hk : k = j
  · subst hk
    rw [putDec_decs_self f hd] at hd'
    exact .inr ⟨rfl, (Option.some.inj hd').symm⟩
  · rw [putDec_decs_of_ne f s (Ne.symm hk), hd] at hd'
    exact .inl (congrArg Decoder.esc (Option.some.inj hd').symm)

/-- A byte operation changes `esc` of its own instance only, and only from the value its format asks for (30_encoding R57). -/
theorem onWireByte_esc_cases {esc ok : Bool} {v : Byte} {body : Buffer → Decoder → Memory → DecFlow}
    (h : onWireByte k esc ok v body s = .next t) (hd : s.decs[j]? = some d) (hd' : t.decs[j]? = some d') :
    d'.esc = d.esc ∨ (k = j ∧ d.esc = esc) := by
  obtain ⟨d0, c, hd0, -, -, hesc, -, rfl⟩ := onWireByte_next h
  rcases putDec_esc_cases hd hd' with hkeep | ⟨rfl, -⟩
  · exact .inl hkeep
  · obtain rfl : d0 = d := Option.some.inj (hd0.symm.trans hd)
    exact .inr ⟨rfl, hesc⟩

theorem onWireByte_esc_of_keepsEsc {esc ok : Bool} {v : Byte} {body : Buffer → Decoder → Memory → DecFlow}
    (hb : DecBodyKeepsEsc body) (h : onWireByte k esc ok v body s = .next t) (hd : s.decs[j]? = some d)
    (hd' : t.decs[j]? = some d') : d'.esc = d.esc := by
  obtain ⟨d0, c, hd0, -, -, -, -, rfl⟩ := onWireByte_next h
  rcases putDec_esc_cases hd hd' with hkeep | ⟨rfl, rfl⟩
  · exact hkeep
  · obtain rfl : d0 = d := Option.some.inj (hd0.symm.trans hd)
    exact hb _ _ _ _

theorem execDEoc_esc (h : execDEoc k s = .next t) (hd : s.decs[j]? = some d) (hd' : t.decs[j]? = some d') :
    d'.esc = d.esc := by
  obtain ⟨d0, c, hd0, -, -, rfl⟩ := onChunkEnd_next h
  rcases putDec_esc_cases hd hd' with hkeep | ⟨rfl, rfl⟩
  · exact hkeep
  · obtain rfl : d0 = d := Option.some.inj (hd0.symm.trans hd)
    rfl

theorem execDecode_esc_cases {c o : Buffer} (h : execDecode k c o s = .next t) (hd : s.decs[j]? = some d)
    (hd' : t.decs[j]? = some d') : d'.esc = d.esc ∨ k = j := by
  obtain ⟨d0, -, -, rfl⟩ := onDecoder_next h
  exact (putDec_esc_cases hd hd').imp_right And.left

theorem resetInstance_esc_cases (h : resetInstance k s = .next t) (hd : s.decs[j]? = some d)
    (hd' : t.decs[j]? = some d') : d'.esc = d.esc ∨ (k = j ∧ d'.esc = false) := by
  obtain ⟨d0, -, -, rfl⟩ := resetInstance_next h
  rcases putDec_esc_cases (f := .goOn (clearEsc d0) s.mem) hd hd' with hkeep | ⟨rfl, rfl⟩
  · exact .inl hkeep
  · exact .inr ⟨rfl, rfl⟩

theorem esc_of_decs_eq (h : t.decs = s.decs) (hd : s.decs[j]? = some d) (hd' : t.decs[j]? = some d') :
    d'.esc = d.esc := by
  rw [h, hd] at hd'
  exact congrArg Decoder.esc (Option.some.inj hd').symm

/-- DNEW without operand leaves every instance there is. -/
theorem execDnew_none_esc (h : execDnew none s = .next t) (hd : s.decs[j]? = some d) (hd' : t.decs[j]? = some d') :
    d'.esc = d.esc := by
  obtain rfl : _ = t := Host.Outcome.next.inj h
  obtain ⟨hj, -⟩ := List.getElem?_eq_some_iff.mp hd
  rw [List.getElem?_append_left hj, hd] at hd'
  exact congrArg Decoder.esc (Option.some.inj hd').symm

theorem onPayloadByte_decs {ok : Bool} {v : Byte} {body : Buffer → Encoder → Memory → EncFlow}
    (h : onPayloadByte ok v body s = .next t) : t.decs = s.decs := by
  obtain ⟨c, -, -, -, rfl⟩ := onPayloadByte_next h
  exact putEnc_decs _ s

theorem onPayloadEnd_decs {body : Buffer → Encoder → Memory → EncFlow} (h : onPayloadEnd body s = .next t) :
    t.decs = s.decs := by
  obtain ⟨c, -, -, rfl⟩ := onPayloadEnd_next h
  exact putEnc_decs _ s

theorem onEncoder_decs {p o : Buffer} {go : Encoder → Memory → EncFlow} (h : onEncoder p o go s = .next t) :
    t.decs = s.decs := by
  obtain ⟨-, rfl⟩ := onEncoder_next h
  exact putEnc_decs _ s

/-- What an operation can do to `esc` of instance `j`: leave it, set it from 0 (D.ESC), clear it from 1 (D.XEND, D.XESC,
D.XBAD), clear it (DRESET, DNEW), or anything (DECODE), the last four on instance `j` only (10_state R13). -/
theorem exec_esc_cases {i : Instr} (h : exec i s = .next t) (hd : s.decs[j]? = some d) (hd' : t.decs[j]? = some d') :
    d'.esc = d.esc ∨ (i = .dEsc j ∧ d.esc = false) ∨
      ((i = .dXend j ∨ i = .dXesc j ∨ ∃ v, i = .dXbad j v) ∧ d.esc = true) ∨
      ((i = .dreset j ∨ i = .dnew (some j)) ∧ d'.esc = false) ∨ ∃ c o, i = .decode j c o := by
  cases i with
  | eLit v => exact .inl (esc_of_decs_eq (onPayloadByte_decs h) hd hd')
  | eEnd => exact .inl (esc_of_decs_eq (onPayloadByte_decs h) hd hd')
  | eEsc => exact .inl (esc_of_decs_eq (onPayloadByte_decs h) hd hd')
  | eFin => exact .inl (esc_of_decs_eq (onPayloadEnd_decs h) hd hd')
  | encode p o => exact .inl (esc_of_decs_eq (onEncoder_decs h) hd hd')
  | dLit k v => exact .inl (onWireByte_esc_of_keepsEsc dLitBody_keepsEsc h hd hd')
  | dEnd k => exact .inl (onWireByte_esc_of_keepsEsc dEndBody_keepsEsc h hd hd')
  | dEoc k => exact .inl (execDEoc_esc h hd hd')
  | dEsc k =>
    rcases onWireByte_esc_cases h hd hd' with hkeep | ⟨rfl, hesc⟩
    · exact .inl hkeep
    · exact .inr (.inl ⟨rfl, hesc⟩)
  | dXend k =>
    rcases onWireByte_esc_cases h hd hd' with hkeep | ⟨rfl, hesc⟩
    · exact .inl hkeep
    · exact .inr (.inr (.inl ⟨.inl rfl, hesc⟩))
  | dXesc k =>
    rcases onWireByte_esc_cases h hd hd' with hkeep | ⟨rfl, hesc⟩
    · exact .inl hkeep
    · exact .inr (.inr (.inl ⟨.inr (.inl rfl), hesc⟩))
  | dXbad k v =>
    rcases onWireByte_esc_cases h hd hd' with hkeep | ⟨rfl, hesc⟩
    · exact .inl hkeep
    · exact .inr (.inr (.inl ⟨.inr (.inr ⟨v, rfl⟩), hesc⟩))
  | decode k c o =>
    rcases execDecode_esc_cases h hd hd' with hkeep | rfl
    · exact .inl hkeep
    · exact .inr (.inr (.inr (.inr ⟨c, o, rfl⟩)))
  | dreset k =>
    rcases resetInstance_esc_cases h hd hd' with hkeep | ⟨rfl, hesc⟩
    · exact .inl hkeep
    · exact .inr (.inr (.inr (.inl ⟨.inl rfl, hesc⟩)))
  | dnew x =>
    cases x with
    | none => exact .inl (execDnew_none_esc h hd hd')
    | some k =>
      rcases resetInstance_esc_cases h hd hd' with hkeep | ⟨rfl, hesc⟩
      · exact .inl hkeep
      · exact .inr (.inr (.inr (.inl ⟨.inr rfl, hesc⟩)))

end

/-- Settles O41, by the cases of what an operation can do to `esc`. -/
theorem onlyTheListedOperationsWriteEsc : Obligations.OnlyTheListedOperationsWriteEsc := by
  intro i s t j d d' h hd hd'
  rcases exec_esc_cases h hd hd' with hkeep | ⟨hi, h0⟩ | ⟨hi, h1⟩ | ⟨hi, h0'⟩ | hi
  · exact ⟨fun h0 h1' => by simp [hkeep, h0] at h1', fun h1 h0' => by simp [hkeep, h1] at h0'⟩
  · exact ⟨fun _ _ => .inl hi, fun h1 _ => by simp [h1] at h0⟩
  · exact ⟨fun h0 _ => by simp [h0] at h1, fun _ _ => by tauto⟩
  · exact ⟨fun _ h1' => by simp [h0'] at h1', fun _ _ => by tauto⟩
  · exact ⟨fun _ _ => .inr hi, fun _ _ => by tauto⟩

end Sys2Proof.Machine
end

section
/-! SUPPORT and PROOFS. The commands executed whole: ENCODE stores the frame of its payload (40_encoder R78), DECODE is the
repeated `dstep` of its chunk (41_decoder R103); what they depend on (10_state R22, R23) and leave unchanged (20_memory
R34). -/

namespace Sys2Proof.Machine

/-! ## Windows apart -/

theorem sharesByte_of_disjointWindows {i o : Buffer} {s : State} (h : disjointWindows i o s = true) :
    i.sharesByte o = false := by
  simp only [disjointWindows, Bool.and_eq_true, Bool.not_eq_true'] at h
  exact h.1

/-- What is filled into an output window leaves the bytes of an input window apart from it alone. -/
theorem Memory.read_fill_of_apart (m : Memory) {i o : Buffer} {vs : List Byte} {n : Nat} (h : i.sharesByte o = false)
    (hn : n < i.len) (hvs : vs.length ≤ o.len) : (m.fill o.base vs).read (i.base + n) = m.read (i.base + n) := by
  simp only [Buffer.sharesByte, decide_eq_false_iff_not] at h
  exact Memory.read_fill_of_outside m vs (by omega)

theorem EncodeAllowed.windows_apart {p o : Buffer} {s : State} (h : EncodeAllowed p o s) : p.sharesByte o = false := by
  obtain ⟨-, -, -, hdis⟩ := h
  exact sharesByte_of_disjointWindows hdis

theorem DecodeAllowed.windows_apart {k : Nat} {c o : Buffer} {d : Decoder} {s : State} (h : DecodeAllowed k c o d s) :
    c.sharesByte o = false := by
  obtain ⟨-, -, -, -, hdis⟩ := h
  exact sharesByte_of_disjointWindows hdis

theorem DecodeAllowed.getElem?_decs {k : Nat} {c o : Buffer} {d : Decoder} {s : State} (h : DecodeAllowed k c o d s) :
    s.decs[k]? = some d := by
  obtain ⟨hd, -⟩ := h
  exact hd

/-! ## ENCODE -/

@[simp] theorem frame_nil : frame [] = [END] := rfl

theorem frame_cons (b : Byte) (p : List Byte) : frame (b :: p) = stuff b ++ frame p := by
  simp [frame]

/-- A payload byte's operation stores the byte's symbol (40_encoder R73 to R75, R78). -/
theorem encBody_eq_stores {b : Byte} {e : Encoder} (o : Buffer) (m : Memory) (hb : e.b = b) :
    encBody b o e m = encStores o (stuff b) e m := by
  unfold encBody stuff
  split
  · exact eEndBody_eq_stores o e m
  · split
    · exact eEscBody_eq_stores o e m
    · exact hb ▸ eLitBody_eq_stores o e m

/-- How an ENCODE ends whose wire bytes are `wire`: with their number, or for lack of room, the first of them stored
(40_encoder R70, R79; log 9). -/
def encEnds (o : Buffer) (wire : List Byte) (m : Memory) : EncFlow :=
  .ended (if wire.length ≤ o.len then .ok wire.length else .capacityExceeded) (m.fill o.base (wire.take o.len))

theorem encEnds_of_room {o : Buffer} {wire : List Byte} {m : Memory} (h : wire.length ≤ o.len) :
    encEnds o wire m = .ended (.ok wire.length) (m.fill o.base wire) := by
  rw [encEnds, if_pos h, List.take_of_length_le h]

theorem encEnds_of_full {o : Buffer} {wire : List Byte} {m : Memory} (h : o.len < wire.length) :
    encEnds o wire m = .ended .capacityExceeded (m.fill o.base (wire.take o.len)) := by
  rw [encEnds, if_neg (Nat.not_le.mpr h)]

/-- E.FIN with `out` written before. -/
theorem eFinBody_of_written {o : Buffer} {e : Encoder} {out : List Byte} (m : Memory) (hout : out.length = e.en)
    (hcap : e.en ≤ o.len) : eFinBody o e (m.fill o.base out) = encEnds o (out ++ [END]) m := by
  have hlen : (out ++ [END]).length = e.en + 1 := by rw [List.length_append, hout]; rfl
  rcases Nat.lt_or_ge e.en o.len with h | h
  · rw [eFinBody_of_room h, encEnds_of_room (by omega), hlen, Memory.fill_append, hout]
    rfl
  · rw [eFinBody_of_full h, encEnds_of_full (by omega), List.take_append_of_le_length (by omega),
      List.take_of_length_le (by omega)]

/-- A payload byte's operation with `out` written before and room for its bytes. -/
theorem encStores_of_written_room {o : Buffer} {e : Encoder} {out vs : List Byte} (m : Memory) (hout : out.length = e.en)
    (h : e.en + vs.length ≤ o.len) : encStores o vs e (m.fill o.base out) =
      .goOn { e with ei := e.ei + 1, en := e.en + vs.length } (m.fill o.base (out ++ vs)) := by
  rw [encStores_of_room h, Memory.fill_append, hout]

/-- A payload byte's operation with `out` written before and no room for its bytes: the wire bytes after them do not
matter. -/
theorem encStores_of_written_full {o : Buffer} {e : Encoder} {out vs : List Byte} (m : Memory) (rest : List Byte)
    (hout : out.length = e.en) (hcap : e.en ≤ o.len) (h : o.len < e.en + vs.length) :
    encStores o vs e (m.fill o.base out) = encEnds o (out ++ vs ++ rest) m := by
  have hlen : (out ++ vs).length = e.en + vs.length := by rw [List.length_append, hout]
  have htake : (out ++ vs ++ rest).take o.len = out ++ vs.take (o.len - e.en) := by
    rw [List.take_append_of_le_length (hlen ▸ h.le), List.take_append, List.take_of_length_le (hout ▸ hcap), hout]
  have hmore : o.len < (out ++ vs ++ rest).length := by
    rw [List.length_append, hlen]
    omega
  rw [encStores_of_full h, encEnds_of_full hmore, htake, Memory.fill_append, hout]

/-- With `out` written and `j` payload bytes left, ENCODE's loop ends as if `out` and the frame of these bytes were its wire
bytes. -/
theorem encRun_eq_encEnds {c : EncCall} {j : Nat} {e : Encoder} {out : List Byte} (m : Memory)
    (hap : c.payload.sharesByte c.encOut = false) (hj : e.ei + j = c.payload.len) (hout : out.length = e.en)
    (hcap : e.en ≤ c.encOut.len) :
    encRun c (j + 1) e (m.fill c.encOut.base out) =
      encEnds c.encOut (out ++ frame (m.slice (c.payload.base + e.ei) j)) m := by
  induction j generalizing e out with
  | zero =>
    have hfin := eFinBody_of_written m hout hcap
    rw [encRun, encStep_of_le _ (by omega), hfin]
    rfl
  | succ j ih =>
    have hread : memRead (m.fill c.encOut.base out) c.payload e.ei = m.read (c.payload.base + e.ei) :=
      Memory.read_fill_of_apart m hap (by omega) (by omega)
    rw [encRun, encStep_of_lt _ (by omega), hread, encBody_eq_stores _ _ (by rfl), Memory.slice, frame_cons,
      ← List.append_assoc]
    generalize m.read (c.payload.base + e.ei) = b
    rcases Nat.lt_or_ge c.encOut.len (e.en + (stuff b).length) with h | h
    · rw [encStores_of_written_full m (frame (m.slice (c.payload.base + e.ei + 1) j)) (by exact hout) (by exact hcap)
        (by exact h)]
      rfl
    · rw [encStores_of_written_room m (by exact hout) (by exact h)]
      exact ih (by dsimp only; omega) (by rw [List.length_append, hout]) h

/-- ENCODE executed whole, of a payload apart from its output (40_encoder R70, R78). -/
theorem exec_encode_of_allowed {p o : Buffer} {s : State} (h : EncodeAllowed p o s) :
    exec (.encode p o) s = .next (putEnc (encEnds o (frame (s.mem.slice p.base p.len)) s.mem) s) := by
  have hrun := encRun_eq_encEnds (c := ⟨p, o⟩) (j := p.len) (e := encBegun p o s.enc) (out := []) s.mem
    h.windows_apart (Nat.zero_add _) rfl (Nat.zero_le _)
  exact (onEncoder_of_allowed _ h).trans (congrArg (fun f => Host.Outcome.next (putEnc f s)) hrun)

theorem encodeAllowed_of_next {p o : Buffer} {s t : State} (h : exec (.encode p o) s = .next t) : EncodeAllowed p o s := by
  obtain ⟨hno, -⟩ := onEncoder_next h
  obtain ⟨hidle, hfits⟩ := objection_eq_none.mp hno
  exact ⟨by simpa using hidle, hfits⟩

/-- Settles O28: result and writes are those of `encEnds` for the payload's frame and the capacity. -/
theorem encodeDependsOnPayloadAndCapacityOnly : Obligations.EncodeDependsOnPayloadAndCapacityOnly := by
  intro s s' p o p' o' h h' hpay hcap
  refine ⟨_, _, (frame (s.mem.slice p.base p.len)).take o.len, exec_encode_of_allowed h,
    exec_encode_of_allowed h', ?_, rfl, ?_⟩
  · simp only [encEnds, putEnc_ended_enc, encIdle_result, hpay, hcap]
  · simp only [encEnds, putEnc_ended_mem, hpay, hcap]

/-! ## The rows of dstep -/

/-- A wire byte is one of six kinds, by `esc` (30_encoding R57). -/
theorem wireByte_cases {P : Bool → Byte → Prop} (hend : P false END) (hesc : P false ESC)
    (hlit : ∀ b, b ≠ END → b ≠ ESC → P false b) (hxend : P true ESC_END) (hxesc : P true ESC_ESC)
    (hxbad : ∀ b, b ≠ ESC_END → b ≠ ESC_ESC → P true b) (esc : Bool) (b : Byte) : P esc b := by
  cases esc with
  | false =>
    by_cases h1 : b = END
    · exact h1 ▸ hend
    · by_cases h2 : b = ESC
      · exact h2 ▸ hesc
      · exact hlit b h1 h2
  | true =>
    by_cases h1 : b = ESC_END
    · exact h1 ▸ hxend
    · by_cases h2 : b = ESC_ESC
      · exact h2 ▸ hxesc
      · exact hxbad b h1 h2

/-- A byte step after which the DECODE goes on has consumed its byte (41_decoder R103). -/
theorem dstep_consumed (esc : Bool) (b : Byte) (full : Bool) (h : (dstep esc b full).goesOn = .nextByte) :
    (dstep esc b full).consumed = true := by
  induction esc, b using wireByte_cases with
  | hend => simp at h
  | hesc => simp
  | hlit b h1 h2 => cases full <;> simp_all [dstep_lit, dstep_lit_full]
  | hxend => cases full <;> simp_all
  | hxesc => cases full <;> simp_all
  | hxbad b h1 h2 => simp [dstep_xbad full h1 h2] at h

/-- With the output full nothing is written (41_decoder R103). -/
theorem dstep_writes_of_full (esc : Bool) (b : Byte) : (dstep esc b true).writes = none := by
  induction esc, b using wireByte_cases with
  | hend => simp
  | hesc => simp
  | hlit b h1 h2 => simp [dstep_lit_full h1 h2]
  | hxend => simp
  | hxesc => simp
  | hxbad b h1 h2 => simp [dstep_xbad true h1 h2]

/-- What a byte step writes has room (41_decoder R93, R103). -/
theorem dstep_writes_room (esc : Bool) (b : Byte) {n cap : Nat} (hcap : n ≤ cap) :
    n + (dstep esc b (decide (cap ≤ n))).writes.toList.length ≤ cap := by
  rcases Nat.lt_or_ge n cap with h | h
  · have hone : (dstep esc b (decide (cap ≤ n))).writes.toList.length ≤ 1 := by
      cases (dstep esc b (decide (cap ≤ n))).writes <;> simp
    omega
  · rw [decide_eq_true h, dstep_writes_of_full]
    exact hcap

/-- A completed frame and a bad escape leave `esc = 0` (10_state R13, 41_decoder R99). -/
theorem dstep_esc_of_ends (esc : Bool) (b : Byte) (full : Bool)
    (h : (dstep esc b full).goesOn = .frameComplete ∨ (dstep esc b full).goesOn = .error .invalidEscapeSequence) :
    (dstep esc b full).esc = false := by
  induction esc, b using wireByte_cases with
  | hend => simp
  | hesc => simp at h
  | hlit b h1 h2 => cases full <;> simp_all [dstep_lit, dstep_lit_full]
  | hxend => cases full <;> simp_all
  | hxesc => cases full <;> simp_all
  | hxbad b h1 h2 => simp [dstep_xbad full h1 h2]

/-! ## DECODE -/

/-- How a DECODE goes on after a byte step with the outcome `r` (41_decoder R103; XBAD_CONSUMES, R99). -/
def DStep.flow (xbadConsumes : Bool) (r : DStep) (o : Buffer) (d : Decoder) (m : Memory) : DecFlow :=
  let di := if r.consumed then d.di + 1 else d.di
  let dn := d.dn + r.writes.toList.length
  let m' := m.fill (o.base + d.dn) r.writes.toList
  match r.goesOn with
  | .nextByte => .goOn { d with esc := r.esc, di := di, dn := dn } m'
  | .frameComplete => .ended (.frameComplete di dn) r.esc m'
  | .error .capacityExceeded => .ended (.err .capacityExceeded di dn) r.esc m'
  | .error .invalidEscapeSequence =>
    .ended (.err .invalidEscapeSequence (if xbadConsumes then di + 1 else di) dn) r.esc m'

/-- A storing operation is a row of `dstep` if its rows with room and without are (41_decoder R103). -/
theorem decStores_eq_flow {x esc : Bool} {v b : Byte} {o : Buffer} {d : Decoder} {m : Memory}
    (hroom : dstep d.esc b false = ⟨esc, some v, true, .nextByte⟩)
    (hfull : dstep d.esc b true = ⟨d.esc, none, false, .error .capacityExceeded⟩) :
    decStores o esc v d m = (dstep d.esc b (decide (o.len ≤ d.dn))).flow x o d m := by
  rcases Nat.lt_or_ge d.dn o.len with h | h
  · rw [decStores_of_room h, decide_eq_false (Nat.not_le.mpr h), hroom]
    rfl
  · rw [decStores_of_full h, decide_eq_true h, hfull]
    rfl

/-- A wire byte's operation is the row of `dstep` for `esc`, the byte and whether the output is full (41_decoder R103). -/
theorem decBody_eq_flow (x : Bool) {esc : Bool} {b : Byte} {d : Decoder} (o : Buffer) (m : Memory) (hb : d.b = b)
    (he : d.esc = esc) : decBody x esc b o d m = (dstep esc b (decide (o.len ≤ d.dn))).flow x o d m := by
  induction esc, b using wireByte_cases with
  | hend => rw [dstep_end]; exact (dEndBody_eq o d m).trans (he ▸ rfl)
  | hesc => rw [dstep_esc]; rfl
  | hlit b h1 h2 =>
    have hbody : decBody x false b = dLitBody := by simp [decBody, h1, h2]
    rw [hbody, dLitBody_eq_stores, hb, ← he]
    exact decStores_eq_flow (he ▸ dstep_lit h1 h2) (he ▸ dstep_lit_full h1 h2)
  | hxend =>
    have hbody : decBody x true ESC_END = dXendBody := rfl
    rw [hbody, dXendBody_eq_stores, ← he]
    exact decStores_eq_flow (he ▸ dstep_xend) (he ▸ dstep_xend_full)
  | hxesc =>
    have hbody : decBody x true ESC_ESC = dXescBody := rfl
    rw [hbody, dXescBody_eq_stores, ← he]
    exact decStores_eq_flow (he ▸ dstep_xesc) (he ▸ dstep_xesc_full)
  | hxbad b h1 h2 =>
    have hbody : decBody x true b = dXbadBody x := by simp [decBody, h1, h2]
    rw [hbody, dXbadBody_eq, dstep_xbad _ h1 h2]
    rfl

/-- How a DECODE ends that decoded its chunk as `r`. -/
def Decoded.flow (r : Decoded) (o : Buffer) (m : Memory) : DecFlow := .ended r.result r.esc (m.fill o.base r.out)

/-- With `out` written and `j` chunk bytes left, DECODE's loop ends as `decodeFrom` says of these bytes. -/
theorem decRun_eq_decodeFrom (p : Config.Params) {c : DecCall} {j : Nat} {d : Decoder} {out : List Byte} (m : Memory)
    (hap : c.chunk.sharesByte c.decOut = false) (hj : d.di + j = c.chunk.len) (hout : out.length = d.dn)
    (hcap : d.dn ≤ c.decOut.len) :
    decRun p c (j + 1) d (m.fill c.decOut.base out) =
      (decodeFrom p.xbadConsumes c.decOut.len d.esc d.di out (m.slice (c.chunk.base + d.di) j)).flow c.decOut m := by
  induction j generalizing d out with
  | zero =>
    rw [decRun, decStep_of_le p _ (by omega), dEocBody_eq, ← hout]
    rfl
  | succ j ih =>
    have hread : memRead (m.fill c.decOut.base out) c.chunk d.di = m.read (c.chunk.base + d.di) :=
      Memory.read_fill_of_apart m hap (by omega) (by omega)
    rw [decRun, decStep_of_lt p _ (by omega), hread, decBody_eq_flow _ _ _ (by rfl) (by rfl), Memory.slice, decodeFrom, hout]
    generalize m.read (c.chunk.base + d.di) = b
    have hconsumed := dstep_consumed d.esc b (decide (c.decOut.len ≤ d.dn))
    have hroom := dstep_writes_room d.esc b hcap
    generalize dstep d.esc b (decide (c.decOut.len ≤ d.dn)) = r at hconsumed hroom ⊢
    obtain ⟨esc, w, consumed, goesOn⟩ := r
    simp only [DStep.flow, ← hout, ← Memory.fill_append, ← List.length_append]
    match goesOn with
    | .nextByte =>
      obtain rfl : consumed = true := hconsumed rfl
      exact ih (by simp only [if_true]; omega) rfl (by simpa [hout] using hroom)
    | .frameComplete => rfl
    | .error .capacityExceeded => rfl
    | .error .invalidEscapeSequence => rfl

/-- DECODE executed whole, of a chunk apart from its output (41_decoder R90, R103). -/
theorem exec_decode_of_allowed {k : Nat} {c o : Buffer} {d : Decoder} {s : State} (h : DecodeAllowed k c o d s) :
    exec (.decode k c o) s = .next (putDec k
      ((decodeChunk s.params.xbadConsumes o.len d.esc (s.mem.slice c.base c.len)).flow o s.mem) s) := by
  have hrun := decRun_eq_decodeFrom s.params (c := ⟨c, o⟩) (j := c.len) (d := decBegun c o d) (out := []) s.mem
    h.windows_apart (Nat.zero_add _) rfl (Nat.zero_le _)
  exact (onDecoder_of_allowed _ h).trans (congrArg (fun f => Host.Outcome.next (putDec k f s)) hrun)

theorem decodeAllowed_of_next {k : Nat} {c o : Buffer} {s t : State} (h : exec (.decode k c o) s = .next t) :
    ∃ d, DecodeAllowed k c o d s := by
  obtain ⟨d, hd, hno, -⟩ := onDecoder_next h
  obtain ⟨hidle, hfits⟩ := objection_eq_none.mp hno
  exact ⟨d, hd, by simpa using hidle, hfits⟩

/-- A DECODE that answers a next state ended as `decodeChunk` says of its chunk. -/
theorem exec_decode_next {k : Nat} {c o : Buffer} {s t : State} (h : exec (.decode k c o) s = .next t) :
    ∃ d r, s.decs[k]? = some d ∧ r = decodeChunk s.params.xbadConsumes o.len d.esc (s.mem.slice c.base c.len) ∧
      t = putDec k (r.flow o s.mem) s := by
  obtain ⟨d, hallowed⟩ := decodeAllowed_of_next h
  exact ⟨d, _, hallowed.getElem?_decs, rfl, Host.Outcome.next.inj (h.symm.trans (exec_decode_of_allowed hallowed))⟩

/-- The result's count is the number of bytes written, which is at most the capacity (41_decoder R93, 10_state R19). -/
theorem decodeFrom_count {x esc : Bool} {cap di : Nat} {out bytes : List Byte} (hcap : out.length ≤ cap) :
    (decodeFrom x cap esc di out bytes).result.count = (decodeFrom x cap esc di out bytes).out.length ∧
      (decodeFrom x cap esc di out bytes).out.length ≤ cap := by
  induction bytes generalizing esc di out with
  | nil => exact ⟨rfl, hcap⟩
  | cons b rest ih =>
    have hcap' : (out ++ (dstep esc b (decide (cap ≤ out.length))).writes.toList).length ≤ cap :=
      List.length_append ▸ dstep_writes_room esc b hcap
    simp only [decodeFrom]
    split
    · exact ih hcap'
    · exact ⟨rfl, hcap'⟩
    · exact ⟨rfl, hcap'⟩
    · exact ⟨rfl, hcap'⟩

/-- Decoding that completes a frame or meets a bad escape leaves `esc = 0`. -/
theorem decodeFrom_esc_of_ends {x esc : Bool} {cap di : Nat} {out bytes : List Byte}
    (h : (∃ i n, (decodeFrom x cap esc di out bytes).result = .frameComplete i n) ∨
      ∃ i n, (decodeFrom x cap esc di out bytes).result = .err .invalidEscapeSequence i n) :
    (decodeFrom x cap esc di out bytes).esc = false := by
  induction bytes generalizing esc di out with
  | nil => simp [decodeFrom] at h
  | cons b rest ih =>
    simp only [decodeFrom] at h ⊢
    split at h
    · exact ih h
    · next hgo => exact dstep_esc_of_ends _ _ _ (.inl hgo)
    · simp at h
    · next hgo => exact dstep_esc_of_ends _ _ _ (.inr hgo)

/-- Settles O39: a DECODE ends as `decodeFrom` says. -/
theorem completedFrameLeavesIdle : Obligations.CompletedFrameLeavesIdle := by
  intro s t k c o d' h hd' hr
  obtain ⟨d, r, hd, rfl, rfl⟩ := exec_decode_next h
  obtain rfl : _ = d' := Option.some.inj ((putDec_decs_self _ hd).symm.trans hd')
  exact decodeFrom_esc_of_ends hr

/-- Settles O40: result, writes and `esc` are those of `decodeChunk` for `esc`, the chunk's bytes and the capacity. -/
theorem decodeDependsOnItsInstanceOnly : Obligations.DecodeDependsOnItsInstanceOnly := by
  intro s s' k k' d d' c o c' o' hx h h' hesc hchunk hcap
  have hexec' := exec_decode_of_allowed h'
  rw [← hx, ← hesc, ← hchunk, ← hcap] at hexec'
  exact ⟨_, _, _, _, _, exec_decode_of_allowed h, hexec', putDec_decs_self _ h.getElem?_decs,
    putDec_decs_self _ h'.getElem?_decs, rfl, rfl, rfl, rfl⟩

/-- Settles O29: both commands fill their output from its first byte, DECODE with as many bytes as the result counts. -/
theorem commandsWriteOnlyTheirOutput : Obligations.CommandsWriteOnlyTheirOutput := by
  constructor
  · intro s t p o h
    obtain rfl := Host.Outcome.next.inj (h.symm.trans (exec_encode_of_allowed (encodeAllowed_of_next h)))
    refine ⟨rfl, rfl, rfl, rfl, fun a ha => Memory.read_fill_of_outside _ _ ?_⟩
    generalize frame (s.mem.slice p.base p.len) = wire at ha ⊢
    rcases Nat.lt_or_ge o.len wire.length with hlen | hlen
    · rw [encEnds_of_full hlen] at ha
      exact ha.imp_right (Nat.le_trans (Nat.add_le_add_left (List.length_take_le _ _) _))
    · rw [encEnds_of_room hlen] at ha
      exact ha.imp_right (Nat.le_trans (Nat.add_le_add_left (List.length_take_le' _ _) _))
  · intro s t k c o h
    obtain ⟨d, r, hd, hr, rfl⟩ := exec_decode_next h
    obtain ⟨hcount, hcap⟩ : r.result.count = r.out.length ∧ r.out.length ≤ o.len :=
      hr ▸ decodeFrom_count (Nat.zero_le _)
    obtain ⟨hp, he, hh, hl, ho⟩ := putDec_keepsAllButInstance k (r.flow o s.mem) s
    exact ⟨_, putDec_decs_self _ hd, rfl, hcount ▸ hcap, hp, he, hh, hl, ho, fun a ha =>
      Memory.read_fill_of_outside _ _ (hcount ▸ ha)⟩

end Sys2Proof.Machine
end

section
/-! SUPPORT and PROOFS. What an operation stores is one run of bytes (20_memory R31, R34), so every step keeps the memory's
canonical form (log 3); and a busy unit takes no command (20_memory R42, 42_control R120, 70 R177). -/

namespace Sys2Proof.Machine

/-! ## What a body stores -/

/-- A payload byte's operation stores as many of its bytes as there is room for (40_encoder R72). -/
theorem encStores_mem (o : Buffer) (vs : List Byte) (e : Encoder) (m : Memory) :
    (encStores o vs e m).mem = m.fill (o.base + e.en) (vs.take (o.len - e.en)) := by
  rcases Nat.lt_or_ge o.len (e.en + vs.length) with h | h
  · rw [encStores_of_full h, EncFlow.mem_ended]
  · rw [encStores_of_room h, EncFlow.mem_goOn, List.take_of_length_le (by omega)]

/-- E.FIN stores END if there is room (40_encoder R76). -/
theorem eFinBody_mem (o : Buffer) (e : Encoder) (m : Memory) :
    (eFinBody o e m).mem = m.fill (o.base + e.en) ([END].take (o.len - e.en)) := by
  rcases Nat.lt_or_ge e.en o.len with h | h
  · rw [eFinBody_of_room h, List.take_of_length_le (by exact Nat.sub_pos_of_lt h)]
    rfl
  · rw [eFinBody_of_full h, Nat.sub_eq_zero_of_le h]
    rfl

/-- A storing operation of an instance stores its byte if there is room (41_decoder R93). -/
theorem decStores_mem (o : Buffer) (esc : Bool) (v : Byte) (d : Decoder) (m : Memory) :
    (decStores o esc v d m).mem = m.fill (o.base + d.dn) ([v].take (o.len - d.dn)) := by
  rcases Nat.lt_or_ge d.dn o.len with h | h
  · rw [decStores_of_room h, List.take_of_length_le (by exact Nat.sub_pos_of_lt h)]
    rfl
  · rw [decStores_of_full h, Nat.sub_eq_zero_of_le h]
    rfl

/-- From `m` to `m'` one run of consecutive bytes, which may be empty, has been stored. -/
def Memory.FilledTo (m m' : Memory) : Prop := ∃ a vs, m' = m.fill a vs

theorem Memory.FilledTo.refl (m : Memory) : m.FilledTo m := ⟨0, [], rfl⟩

theorem Memory.FilledTo.wf {m m' : Memory} (h : m.FilledTo m') (hm : m.wf = true) : m'.wf = true := by
  obtain ⟨a, vs, rfl⟩ := h
  exact Memory.wf_fill a vs hm

theorem eLitBody_fills (o : Buffer) (e : Encoder) (m : Memory) : m.FilledTo (eLitBody o e m).mem :=
  ⟨_, _, eLitBody_eq_stores o e m ▸ encStores_mem o [e.b] e m⟩

theorem eEndBody_fills (o : Buffer) (e : Encoder) (m : Memory) : m.FilledTo (eEndBody o e m).mem :=
  ⟨_, _, eEndBody_eq_stores o e m ▸ encStores_mem o [ESC, ESC_END] e m⟩

theorem eEscBody_fills (o : Buffer) (e : Encoder) (m : Memory) : m.FilledTo (eEscBody o e m).mem :=
  ⟨_, _, eEscBody_eq_stores o e m ▸ encStores_mem o [ESC, ESC_ESC] e m⟩

theorem eFinBody_fills (o : Buffer) (e : Encoder) (m : Memory) : m.FilledTo (eFinBody o e m).mem :=
  ⟨_, _, eFinBody_mem o e m⟩

theorem dLitBody_fills (o : Buffer) (d : Decoder) (m : Memory) : m.FilledTo (dLitBody o d m).mem :=
  ⟨_, _, dLitBody_eq_stores o d m ▸ decStores_mem o d.esc d.b d m⟩

theorem dXendBody_fills (o : Buffer) (d : Decoder) (m : Memory) : m.FilledTo (dXendBody o d m).mem :=
  ⟨_, _, dXendBody_eq_stores o d m ▸ decStores_mem o false END d m⟩

theorem dXescBody_fills (o : Buffer) (d : Decoder) (m : Memory) : m.FilledTo (dXescBody o d m).mem :=
  ⟨_, _, dXescBody_eq_stores o d m ▸ decStores_mem o false ESC d m⟩

theorem dXbadBody_fills (x : Bool) (o : Buffer) (d : Decoder) (m : Memory) : m.FilledTo (dXbadBody x o d m).mem := by
  rw [dXbadBody_eq]
  exact .refl m

/-! ## What an operation stores -/

theorem onPayloadByte_fills {ok : Bool} {v : Byte} {body : Buffer → Encoder → Memory → EncFlow} {s t : State}
    (hb : ∀ o e (m : Memory), m.FilledTo (body o e m).mem) (h : onPayloadByte ok v body s = .next t) :
    s.mem.FilledTo t.mem := by
  obtain ⟨c, -, -, -, rfl⟩ := onPayloadByte_next h
  exact putEnc_mem _ s ▸ hb c.encOut _ s.mem

theorem onWireByte_fills {k : Nat} {esc ok : Bool} {v : Byte} {body : Buffer → Decoder → Memory → DecFlow} {s t : State}
    (hb : ∀ o d (m : Memory), m.FilledTo (body o d m).mem) (h : onWireByte k esc ok v body s = .next t) :
    s.mem.FilledTo t.mem := by
  obtain ⟨d, c, -, -, -, -, -, rfl⟩ := onWireByte_next h
  exact putDec_mem k _ s ▸ hb c.decOut _ s.mem

theorem execEFin_fills {s t : State} (h : execEFin s = .next t) : s.mem.FilledTo t.mem := by
  obtain ⟨c, -, -, rfl⟩ := onPayloadEnd_next h
  exact putEnc_mem _ s ▸ eFinBody_fills c.encOut s.enc s.mem

theorem execDEoc_fills {k : Nat} {s t : State} (h : execDEoc k s = .next t) : s.mem.FilledTo t.mem := by
  obtain ⟨d, c, -, -, -, rfl⟩ := onChunkEnd_next h
  exact .refl s.mem

/-- ENCODE executed whole stores the first bytes of the frame (40_encoder R78). -/
theorem exec_encode_fills {p o : Buffer} {s t : State} (h : exec (.encode p o) s = .next t) : s.mem.FilledTo t.mem := by
  obtain rfl := Host.Outcome.next.inj (h.symm.trans (exec_encode_of_allowed (encodeAllowed_of_next h)))
  exact ⟨_, _, rfl⟩

/-- DECODE executed whole stores the decoded bytes (41_decoder R103). -/
theorem exec_decode_fills {k : Nat} {c o : Buffer} {s t : State} (h : exec (.decode k c o) s = .next t) :
    s.mem.FilledTo t.mem := by
  obtain ⟨d, r, -, -, rfl⟩ := exec_decode_next h
  exact ⟨_, _, rfl⟩

theorem resetInstance_fills {k : Nat} {s t : State} (h : resetInstance k s = .next t) : s.mem.FilledTo t.mem := by
  obtain ⟨d, -, -, rfl⟩ := resetInstance_next h
  exact .refl s.mem

theorem execDnew_fills {x : Option Nat} {s t : State} (h : execDnew x s = .next t) : s.mem.FilledTo t.mem := by
  cases x with
  | none =>
    obtain rfl : _ = t := Host.Outcome.next.inj h
    exact .refl s.mem
  | some k => exact resetInstance_fills h

/-- Every operation stores one run of bytes at most, by the shared operation it is made of. -/
theorem exec_fills {i : Instr} {s t : State} (h : exec i s = .next t) : s.mem.FilledTo t.mem := by
  cases i with
  | eLit v => exact onPayloadByte_fills eLitBody_fills h
  | eEnd => exact onPayloadByte_fills eEndBody_fills h
  | eEsc => exact onPayloadByte_fills eEscBody_fills h
  | eFin => exact execEFin_fills h
  | dLit k v => exact onWireByte_fills dLitBody_fills h
  | dEnd k => exact onWireByte_fills (body := dEndBody) (fun _ _ m => .refl m) h
  | dEsc k => exact onWireByte_fills (body := dEscBody) (fun _ _ m => .refl m) h
  | dXend k => exact onWireByte_fills dXendBody_fills h
  | dXesc k => exact onWireByte_fills dXescBody_fills h
  | dXbad k v => exact onWireByte_fills (dXbadBody_fills s.params.xbadConsumes) h
  | dEoc k => exact execDEoc_fills h
  | encode p o => exact exec_encode_fills h
  | decode k c o => exact exec_decode_fills h
  | dreset k => exact resetInstance_fills h
  | dnew x => exact execDnew_fills h

/-! ## The canonical form after a step -/

theorem abandonEnc_wf (draw : Nat) (e : Encoder) {m : Memory} (hm : m.wf = true) : (abandonEnc draw e m).wf = true := by
  unfold abandonEnc
  split
  · exact hm
  · exact scramble_wf draw _ _ hm

theorem abandonDec_wf (draw : Nat) (d : Decoder) {m : Memory} (hm : m.wf = true) : (abandonDec draw d m).wf = true := by
  unfold abandonDec
  split
  · exact hm
  · exact scramble_wf draw _ _ hm

theorem abandonDecs_wf (draw : Nat) (ds : List Decoder) {m : Memory} (hm : m.wf = true) :
    (abandonDecs draw ds m).wf = true := by
  induction ds generalizing draw m with
  | nil => exact hm
  | cons d ds ih => exact ih (draw + 1) (abandonDec_wf draw d hm)

/-- Any values a hardware reset leaves in the lent outputs are stored in canonical form (70 R171). -/
theorem hardReset_mem_wf {s : State} (hs : s.mem.wf = true) : (hardReset s).mem.wf = true :=
  abandonDecs_wf _ s.decs (abandonEnc_wf _ s.enc hs)

/-- Settles O50, by the cases of what a step can do: an operation fills, the host writes one byte, a reset scrambles, and
beginning a command stores nothing. -/
theorem stepKeepsMemoryCanonical : Obligations.StepKeepsMemoryCanonical := by
  intro s t hs h
  obtain ⟨rest, hcases⟩ := step_cases h
  have hs' : ({ s with host := rest } : State).mem.wf = true := hs
  rcases hcases with rfl | ⟨i, hi⟩ | ⟨p, o, he⟩ | ⟨k, c, o, hd⟩ | ⟨a, v, -, rfl⟩ | rfl
  · exact hs'
  · exact (exec_fills hi).wf hs'
  · obtain ⟨-, rfl⟩ := onEncoder_next he
    exact hs'
  · obtain ⟨d, -, -, rfl⟩ := onDecoder_next hd
    exact hs'
  · exact Memory.wf_write a v hs
  · exact hardReset_mem_wf hs'

/-! ## Commands to a busy unit -/

theorem objection_of_busy (i o : Buffer) (s : State) : objection true i o s = some .unitBusy := rfl

theorem resetInstance_of_busy {k : Nat} {s : State} {d : Decoder} (hd : s.decs[k]? = some d) (hc : d.call ≠ none) :
    resetInstance k s = .refused .unitBusy := by
  simp [resetInstance, onIdleInstance, hd, Option.isSome_iff_ne_none.mpr hc]

/-- Settles O46: every command looks first at whether its unit is busy. -/
theorem busyUnitTakesNoCommand : Obligations.BusyUnitTakesNoCommand := by
  refine ⟨fun s p o hc => ?_, fun s k d c o hd hc => ?_, fun s k d hd hc => ?_⟩
  · simp [exec, execEncode, onEncoder, Option.isSome_iff_ne_none.mpr hc, objection_of_busy]
  · simp [exec, execDecode, onDecoder, hd, Option.isSome_iff_ne_none.mpr hc, objection_of_busy]
  · exact ⟨resetInstance_of_busy hd hc, resetInstance_of_busy hd hc⟩

end Sys2Proof.Machine
end

section
/-! SUPPORT and PROOFS. Two units' byte steps in either order (20_memory R42): what a unit's turn stores and leaves of the
unit depends on the unit, the parameters and the windows lent to it alone, and no byte is lent twice (20_memory R44). -/

namespace Sys2Proof.Machine

/-! ## Two runs of bytes apart -/

theorem Memory.fill_write_comm {m : Memory} {a b : Nat} (v : Byte) (ws : List Byte) (hm : m.wf = true)
    (h : a < b ∨ b + ws.length ≤ a) : (m.write a v).fill b ws = (m.fill b ws).write a v := by
  induction ws generalizing m b with
  | nil => rfl
  | cons w ws ih =>
    simp only [List.length_cons] at h
    rw [Memory.fill, Memory.fill, Memory.write_comm v w hm (by omega), ih (Memory.wf_write b w hm) (by omega)]

/-- Runs of bytes that share no address can be stored in either order. -/
theorem Memory.fill_comm {m : Memory} {a b : Nat} {vs ws : List Byte} (hm : m.wf = true)
    (h : ∀ i, i < vs.length → a + i < b ∨ b + ws.length ≤ a + i) :
    (m.fill a vs).fill b ws = (m.fill b ws).fill a vs := by
  induction vs generalizing m a with
  | nil => rfl
  | cons v vs ih =>
    have htail : ∀ i, i < vs.length → a + 1 + i < b ∨ b + ws.length ≤ a + 1 + i := fun i hi => by
      have := h (i + 1) (Nat.succ_lt_succ hi)
      omega
    have hhead : a < b ∨ b + ws.length ≤ a := h 0 (Nat.zero_lt_succ _)
    rw [Memory.fill, Memory.fill, ih (Memory.wf_write a v hm) htail, Memory.fill_write_comm v ws hm hhead]

/-! ## A unit, what is observed of it and what is lent to it -/

/-- What `observed` has of an Encoder. -/
abbrev EncSeen := EncResult × Option (EncCall × Byte × Nat × Nat)

/-- What `observed` has of an instance. -/
abbrev DecSeen := Bool × DecResult × Option (DecCall × Byte × Nat × Nat)

def encSeen (e : Encoder) : EncSeen := (e.result, encProgress e)

def decSeen (d : Decoder) : DecSeen := (d.esc, d.result, decProgress d)

/-- The unit an engine is; an instance may not exist (10_state R23). -/
def unitAt (s : State) : Engine → Encoder ⊕ Option Decoder
  | .encoder => .inl s.enc
  | .decoder k => .inr s.decs[k]?

/-- What is observed of an engine. -/
def seenAt (s : State) (e : Engine) : EncSeen ⊕ Option DecSeen := (unitAt s e).map encSeen (Option.map decSeen)

/-- Address `x` is a byte of a window lent to the engine's command in progress (70 R175). -/
def LentTo (s : State) (e : Engine) (x : Nat) : Prop :=
  ∃ w ∈ (unitAt s e).elim encLent (Option.elim · [] decLent), holds w x = true

/-- States are observed alike if their memories are the same and every engine is observed alike. -/
theorem observed_eq_of_seenAt {s t : State} (hm : s.mem = t.mem) (h : ∀ e, seenAt s e = seenAt t e) :
    observed s = observed t := by
  have henc : encSeen s.enc = encSeen t.enc := Sum.inl.inj (h .encoder)
  have hdecs : s.decs.map decSeen = t.decs.map decSeen := List.ext_getElem? fun k => by
    simpa only [List.getElem?_map] using Sum.inr.inj (h (.decoder k))
  obtain ⟨hresult, hprogress⟩ := Prod.mk.inj henc
  exact Prod.ext hm (Prod.ext hresult (Prod.ext hprogress hdecs))

theorem unitAt_putEnc_of_ne (f : EncFlow) (s : State) {e : Engine} (h : e ≠ .encoder) :
    unitAt (putEnc f s) e = unitAt s e := by
  cases e with
  | encoder => exact absurd rfl h
  | decoder k => rw [unitAt, unitAt, putEnc_decs]

theorem unitAt_putDec_of_ne {k : Nat} (f : DecFlow) (s : State) {e : Engine} (h : e ≠ .decoder k) :
    unitAt (putDec k f s) e = unitAt s e := by
  cases e with
  | encoder => rw [unitAt, unitAt, putDec_enc]
  | decoder j => rw [unitAt, unitAt, putDec_decs_of_ne f s fun hj => h (congrArg _ hj)]

/-! ## No byte is lent to two engines -/

theorem not_holds_of_apart {a b : Buffer} {x : Nat} (h : a.sharesByte b = false) (ha : holds a x = true) :
    holds b x ≠ true := fun hb =>
  Bool.eq_false_iff.mp h (sharesByte_iff.mpr ⟨x, ha, hb⟩)

theorem holds_of_lt {b : Buffer} {i : Nat} (h : i < b.len) : holds b (b.base + i) = true := by
  simp [holds, h]

theorem lentTo_encoder {s : State} {x : Nat} : LentTo s .encoder x ↔ ∃ w ∈ encLent s.enc, holds w x = true := Iff.rfl

theorem lentTo_decoder {s : State} {k x : Nat} :
    LentTo s (.decoder k) x ↔ ∃ d, s.decs[k]? = some d ∧ ∃ w ∈ decLent d, holds w x = true := by
  simp only [LentTo, unitAt, Sum.elim_inr]
  cases s.decs[k]? with
  | none => simp
  | some d => simp

theorem not_lentTo_decoder_of_encoder {s : State} {k x : Nat} (hs : lentOnce s) (he : LentTo s .encoder x) :
    ¬ LentTo s (.decoder k) x := by
  intro hd
  obtain ⟨w, hw, hx⟩ := lentTo_encoder.mp he
  obtain ⟨d, hk, w', hw', hx'⟩ := lentTo_decoder.mp hd
  obtain ⟨-, -, hcross⟩ := List.pairwise_append.mp hs
  exact not_holds_of_apart (hcross w hw w' (List.mem_flatMap.mpr ⟨d, List.mem_of_getElem? hk, hw'⟩)) hx hx'

theorem not_lentTo_decoder_of_lt {s : State} {j k x : Nat} (hs : lentOnce s) (hjk : j < k)
    (hj : LentTo s (.decoder j) x) : ¬ LentTo s (.decoder k) x := by
  intro hk
  obtain ⟨d, hd, w, hw, hx⟩ := lentTo_decoder.mp hj
  obtain ⟨d', hd', w', hw', hx'⟩ := lentTo_decoder.mp hk
  obtain ⟨-, hdecs, -⟩ := List.pairwise_append.mp hs
  obtain ⟨-, hcross⟩ := List.pairwise_flatMap.mp hdecs
  obtain ⟨hj, rfl⟩ := List.getElem?_eq_some_iff.mp hd
  obtain ⟨hk, rfl⟩ := List.getElem?_eq_some_iff.mp hd'
  exact not_holds_of_apart (List.pairwise_iff_getElem.mp hcross j k hj hk hjk w hw w' hw') hx hx'

/-- A byte lent to one engine is lent to no other (20_memory R44). -/
theorem not_lentTo_of_ne {s : State} {e e' : Engine} {x : Nat} (hs : lentOnce s) (hne : e ≠ e') (h : LentTo s e x) :
    ¬ LentTo s e' x := by
  cases e with
  | encoder =>
    cases e' with
    | encoder => exact absurd rfl hne
    | decoder k => exact not_lentTo_decoder_of_encoder hs h
  | decoder j =>
    cases e' with
    | encoder => exact fun h' => not_lentTo_decoder_of_encoder hs h' h
    | decoder k =>
      rcases Nat.lt_trichotomy j k with hlt | rfl | hgt
      · exact not_lentTo_decoder_of_lt hs hlt h
      · exact absurd rfl hne
      · exact fun h' => not_lentTo_decoder_of_lt hs hgt h' h

/-! ## What a byte step depends on -/

/-- What is observed of the unit a payload byte's operation leaves depends neither on memory nor on the free values. -/
theorem encSeen_encStores (o : Buffer) (vs : List Byte) (e : Encoder) (m m' : Memory) (n n' : Nat) :
    encSeen ((encStores o vs e m').unit n') = encSeen ((encStores o vs e m).unit n) := by
  rcases Nat.lt_or_ge o.len (e.en + vs.length) with h | h
  · simp only [encStores_of_full h]
    rfl
  · simp only [encStores_of_room h, EncFlow.unit_goOn]

theorem encSeen_eFinBody (o : Buffer) (e : Encoder) (m m' : Memory) (n n' : Nat) :
    encSeen ((eFinBody o e m').unit n') = encSeen ((eFinBody o e m).unit n) := by
  rcases Nat.lt_or_ge e.en o.len with h | h
  · simp only [eFinBody_of_room h]
    rfl
  · simp only [eFinBody_of_full h]
    rfl

/-- A step of ENCODE's loop stores the same bytes, which there is room for, and leaves the Encoder observed alike, in every
memory with the same payload byte at `ei` (40_encoder R70, R72). -/
theorem encStep_local (c : EncCall) (e : Encoder) (m : Memory) :
    ∃ vs seen, vs.length ≤ c.encOut.len - e.en ∧ ∀ m' n,
      (e.ei < c.payload.len → memRead m' c.payload e.ei = memRead m c.payload e.ei) →
        (encStep c e m').mem = m'.fill (c.encOut.base + e.en) vs ∧ encSeen ((encStep c e m').unit n) = seen := by
  rcases Nat.lt_or_ge e.ei c.payload.len with h | h
  · refine ⟨(stuff (memRead m c.payload e.ei)).take (c.encOut.len - e.en), encSeen ((encStep c e m).unit 0),
      List.length_take_le _ _, fun m' n hread => ?_⟩
    rw [encStep_of_lt m' h, encStep_of_lt m h, hread h, encBody_eq_stores _ _ (by rfl), encBody_eq_stores _ _ (by rfl)]
    exact ⟨encStores_mem _ _ _ m', encSeen_encStores _ _ _ m m' 0 n⟩
  · refine ⟨[END].take (c.encOut.len - e.en), encSeen ((encStep c e m).unit 0), List.length_take_le _ _, fun m' n _ => ?_⟩
    rw [encStep_of_le m' h, encStep_of_le m h]
    exact ⟨eFinBody_mem _ _ m', encSeen_eFinBody _ _ m m' 0 n⟩

theorem DStep.flow_mem (x : Bool) (r : DStep) (o : Buffer) (d : Decoder) (m : Memory) :
    (r.flow x o d m).mem = m.fill (o.base + d.dn) r.writes.toList := by
  unfold DStep.flow
  dsimp only
  split <;> rfl

/-- What is observed of the instance a byte step leaves depends neither on memory nor on the free values. -/
theorem decSeen_flow (x : Bool) (r : DStep) (o : Buffer) (d : Decoder) (m m' : Memory) (n n' : Nat) :
    decSeen ((r.flow x o d m').unit n') = decSeen ((r.flow x o d m).unit n) := by
  unfold DStep.flow
  dsimp only
  split <;> rfl

/-- What a byte step writes fits in the room there is (41_decoder R93). -/
theorem dstep_writes_fit (esc : Bool) (b : Byte) (n cap : Nat) :
    (dstep esc b (decide (cap ≤ n))).writes.toList.length ≤ cap - n := by
  rcases Nat.lt_or_ge n cap with h | h
  · have := dstep_writes_room esc b h.le
    omega
  · rw [decide_eq_true h, dstep_writes_of_full]
    exact Nat.zero_le _

/-- A step of DECODE's loop stores the same bytes, which there is room for, and leaves the instance observed alike, in every
memory with the same chunk byte at `di` (41_decoder R90, R93). -/
theorem decStep_local (p : Config.Params) (c : DecCall) (d : Decoder) (m : Memory) :
    ∃ vs seen, vs.length ≤ c.decOut.len - d.dn ∧ ∀ m' n,
      (d.di < c.chunk.len → memRead m' c.chunk d.di = memRead m c.chunk d.di) →
        (decStep p c d m').mem = m'.fill (c.decOut.base + d.dn) vs ∧ decSeen ((decStep p c d m').unit n) = seen := by
  rcases Nat.lt_or_ge d.di c.chunk.len with h | h
  · refine ⟨_, decSeen ((decStep p c d m).unit 0), dstep_writes_fit d.esc (memRead m c.chunk d.di) d.dn c.decOut.len,
      fun m' n hread => ?_⟩
    rw [decStep_of_lt p m' h, decStep_of_lt p m h, hread h, decBody_eq_flow _ _ _ (by rfl) (by rfl),
      decBody_eq_flow _ _ _ (by rfl) (by rfl)]
    exact ⟨DStep.flow_mem _ _ _ _ m', decSeen_flow _ _ _ _ m m' 0 n⟩
  · refine ⟨[], decSeen ((decStep p c d m).unit 0), Nat.zero_le _, fun m' n _ => ?_⟩
    rw [decStep_of_le p m' h, decStep_of_le p m h]
    exact ⟨rfl, rfl⟩

/-! ## What a turn depends on -/

/-- In every state that has the engine's unit, the parameters and the bytes lent to the unit as `s` has them, the engine's
turn completes, stores `vs` from address `a`, leaves `seen` to observe of the unit, and no other unit changed. -/
def TurnStores (s : State) (e : Engine) (a : Nat) (vs : List Byte) (seen : EncSeen ⊕ Option DecSeen) :
    Prop :=
  ∀ s', s'.params = s.params → unitAt s' e = unitAt s e → (∀ x, LentTo s e x → s'.mem.read x = s.mem.read x) →
    ∃ t, turn e s' = .next t ∧ t.params = s'.params ∧ t.mem = s'.mem.fill a vs ∧ seenAt t e = seen ∧
      ∀ e', e' ≠ e → unitAt t e' = unitAt s' e'

/-- An idle unit's turn stores nothing (70 R172). -/
theorem turnStores_of_idle {s : State} {e : Engine} (h : ∀ s', unitAt s' e = unitAt s e → fetch e s' = none) :
    TurnStores s e 0 [] (seenAt s e) := by
  intro s' _ hunit _
  have hturn : turn e s' = .next s' := by simp only [turn, h s' hunit]
  exact ⟨s', hturn, rfl, rfl, by rw [seenAt, hunit, seenAt], fun _ _ => rfl⟩

/-- The turn of the Encoder stores in the output window lent to it. -/
theorem turn_encoder_stores (s : State) :
    ∃ a vs seen, (∀ i, i < vs.length → LentTo s .encoder (a + i)) ∧ TurnStores s .encoder a vs seen := by
  cases hc : s.enc.call with
  | none =>
    refine ⟨0, [], _, fun i hi => absurd hi (Nat.not_lt_zero i), turnStores_of_idle fun s' hunit => ?_⟩
    have henc : s'.enc = s.enc := Sum.inl.inj hunit
    simp only [fetch, fetchEnc, henc, hc]
  | some c =>
    have hlent : encLent s.enc = [c.payload, c.encOut] := by simp only [encLent, hc]
    obtain ⟨vs, seen, hlen, hstep⟩ := encStep_local c s.enc s.mem
    refine ⟨c.encOut.base + s.enc.en, vs, .inl seen, fun i hi => ?_, fun s' _ hunit hmem => ?_⟩
    · exact lentTo_encoder.mpr ⟨c.encOut, by simp [hlent], Nat.add_assoc _ _ i ▸ holds_of_lt (by omega)⟩
    · have henc : s'.enc = s.enc := Sum.inl.inj hunit
      have hread : s.enc.ei < c.payload.len → memRead s'.mem c.payload s.enc.ei = memRead s.mem c.payload s.enc.ei :=
        fun hi => hmem _ (lentTo_encoder.mpr ⟨c.payload, by simp [hlent], holds_of_lt hi⟩)
      obtain ⟨hm, hseen⟩ := hstep s'.mem s'.draws hread
      refine ⟨_, turn_encoder_of_running (henc ▸ hc), putEnc_params _ s', ?_, ?_, fun e' => unitAt_putEnc_of_ne _ s'⟩
      · rw [putEnc_mem, henc, hm]
      · simp only [seenAt, unitAt, putEnc_enc, henc, Sum.map_inl, hseen]

/-- The turn of an instance stores in the output window lent to it. -/
theorem turn_decoder_stores (s : State) (k : Nat) :
    ∃ a vs seen, (∀ i, i < vs.length → LentTo s (.decoder k) (a + i)) ∧ TurnStores s (.decoder k) a vs seen := by
  cases hd : s.decs[k]? with
  | none =>
    refine ⟨0, [], _, fun i hi => absurd hi (Nat.not_lt_zero i), turnStores_of_idle fun s' hunit => ?_⟩
    have hd' : s'.decs[k]? = none := (Sum.inr.inj hunit).trans hd
    simp only [fetch, fetchDec, hd']
  | some d =>
    cases hc : d.call with
    | none =>
      refine ⟨0, [], _, fun i hi => absurd hi (Nat.not_lt_zero i), turnStores_of_idle fun s' hunit => ?_⟩
      have hd' : s'.decs[k]? = some d := (Sum.inr.inj hunit).trans hd
      simp only [fetch, fetchDec, hd', hc]
    | some c =>
      have hlent : decLent d = [c.chunk, c.decOut] := by simp only [decLent, hc]
      obtain ⟨vs, seen, hlen, hstep⟩ := decStep_local s.params c d s.mem
      refine ⟨c.decOut.base + d.dn, vs, .inr (some seen), fun i hi => ?_, fun s' hp hunit hmem => ?_⟩
      · exact lentTo_decoder.mpr ⟨d, hd, c.decOut, by simp [hlent], Nat.add_assoc _ _ i ▸ holds_of_lt (by omega)⟩
      · have hd' : s'.decs[k]? = some d := (Sum.inr.inj hunit).trans hd
        have hread : d.di < c.chunk.len → memRead s'.mem c.chunk d.di = memRead s.mem c.chunk d.di :=
          fun hi => hmem _ (lentTo_decoder.mpr ⟨d, hd, c.chunk, by simp [hlent], holds_of_lt hi⟩)
        obtain ⟨hm, hseen⟩ := hstep s'.mem s'.draws hread
        refine ⟨_, turn_decoder_of_running hd' hc, putDec_params k _ s', ?_, ?_, fun e' => unitAt_putDec_of_ne _ s'⟩
        · rw [putDec_mem, hp, hm]
        · simp only [seenAt, unitAt, putDec_decs_self _ hd', hp, Sum.map_inr, Option.map_some, hseen]

/-- Every engine's turn stores in windows lent to it, and depends on nothing but its unit, the parameters and these. -/
theorem turn_stores (s : State) (e : Engine) :
    ∃ a vs seen, (∀ i, i < vs.length → LentTo s e (a + i)) ∧ TurnStores s e a vs seen := by
  cases e with
  | encoder => exact turn_encoder_stores s
  | decoder k => exact turn_decoder_stores s k

/-- An address not lent to an engine lies outside a run of bytes that all are. -/
theorem outside_of_not_lentTo {s : State} {e : Engine} {a n x : Nat} (hin : ∀ i, i < n → LentTo s e (a + i))
    (hx : ¬ LentTo s e x) : x < a ∨ a + n ≤ x := by
  by_contra hcon
  have hlent := hin (x - a) (by omega)
  rw [Nat.add_sub_cancel' (by omega)] at hlent
  exact hx hlent

/-- The bytes lent to an engine are as before when another engine has stored in windows lent to it. -/
theorem read_fill_of_lentTo {s : State} {e e' : Engine} {a : Nat} {vs : List Byte} (hs : lentOnce s) (hne : e ≠ e')
    (hin : ∀ i, i < vs.length → LentTo s e (a + i)) :
    ∀ x, LentTo s e' x → (s.mem.fill a vs).read x = s.mem.read x := fun _ hx =>
  Memory.read_fill_of_outside s.mem vs (outside_of_not_lentTo hin (not_lentTo_of_ne hs hne.symm hx))

/-- Settles O57: each unit's turn finds its unit and its windows as they were before the other's, and the two store in
windows apart. -/
theorem unitsDoNotDisturbEachOther : Obligations.UnitsDoNotDisturbEachOther := by
  intro s e e' hne hm hs
  obtain ⟨a, vs, seen, hin, hturn⟩ := turn_stores s e
  obtain ⟨b, ws, seen', hin', hturn'⟩ := turn_stores s e'
  obtain ⟨s1, h1, hp1, hm1, hseen1, ho1⟩ := hturn s rfl rfl fun _ _ => rfl
  obtain ⟨s2, h2, hp2, hm2, hseen2, ho2⟩ := hturn' s rfl rfl fun _ _ => rfl
  obtain ⟨t, ht, -, hmt, hseent, hot⟩ :=
    hturn' s1 hp1 (ho1 e' hne.symm) (hm1 ▸ read_fill_of_lentTo hs hne hin)
  obtain ⟨t', ht', -, hmt', hseent', hot'⟩ :=
    hturn s2 hp2 (ho2 e hne) (hm2 ▸ read_fill_of_lentTo hs hne.symm hin')
  refine ⟨s1, s2, t, t', h1, ht, h2, ht', observed_eq_of_seenAt ?_ fun x => ?_⟩
  · rw [hmt, hmt', hm1, hm2]
    exact Memory.fill_comm hm fun i hi => outside_of_not_lentTo hin' (not_lentTo_of_ne hs hne (hin i hi))
  · by_cases hxe : x = e
    · subst hxe
      rw [hseent', seenAt, hot x hne, ← seenAt, hseen1]
    · by_cases hxe' : x = e'
      · subst hxe'
        rw [hseent, seenAt, hot' x hxe, ← seenAt, hseen2]
      · rw [seenAt, seenAt, hot x hxe', hot' x hxe, ho1 x hxe, ho2 x hxe']

end Sys2Proof.Machine
end

section
/-! SUPPORT and PROOFS. The maps as decoder and encoder (30_encoding R53, R56, R57), the opcode table (R58), the operation
selected for a unit (60_exceptions R164), and the bytes of a frame (30_encoding R63). -/

namespace Sys2Proof.Machine

/-! ## The maps -/

theorem isPlain_iff {v : Byte} : isPlain v = true ↔ v ≠ END ∧ v ≠ ESC := by
  simp [isPlain]

theorem isBadSecond_iff {v : Byte} : isBadSecond v = true ↔ v ≠ ESC_END ∧ v ≠ ESC_ESC := by
  simp [isBadSecond]

/-- The default row of the encoder map (30_encoding R56). -/
theorem decodePayload8_of_plain {v : Byte} (h : isPlain v = true) : decodePayload8 v = .eLit v := by
  obtain ⟨hend, hesc⟩ := isPlain_iff.mp h
  rw [decodePayload8, if_neg hend, if_neg hesc]

/-- The default row of the decoder map in Idle (30_encoding R57). -/
theorem decodeWire8_of_plain (k : Nat) {v : Byte} (h : isPlain v = true) : decodeWire8 k false v = .dLit k v := by
  obtain ⟨hend, hesc⟩ := isPlain_iff.mp h
  simp only [decodeWire8, Bool.false_eq_true, if_false, if_neg hend, if_neg hesc]

/-- The default row of the decoder map in InEscape (30_encoding R57). -/
theorem decodeWire8_of_badSecond (k : Nat) {v : Byte} (h : isBadSecond v = true) : decodeWire8 k true v = .dXbad k v := by
  obtain ⟨hxend, hxesc⟩ := isBadSecond_iff.mp h
  simp only [decodeWire8, if_true, if_neg hxend, if_neg hxesc]

/-- Settles O2: an operation with a marker of its own is the map's exact row for it, one with an operand byte, which is no
marker of its format, the default row. -/
theorem decodeOfEncodeIsTheInstruction : Obligations.DecodeOfEncodeIsTheInstruction := by
  intro i hwf
  cases i with
  | eLit v => exact decodePayload8_of_plain hwf
  | dLit k v => exact decodeWire8_of_plain k hwf
  | dXbad k v => exact decodeWire8_of_badSecond k hwf
  | eEnd | eEsc | eFin => rfl
  | dEnd k | dEsc k | dXend k | dXesc k | dEoc k => rfl
  | encode p o | decode k c o | dreset k | dnew t => rfl

/-- Settles O4: each word is the selector of the well-formed operation it decodes to. -/
theorem writtenOutWordsDecode : Obligations.WrittenOutWordsDecode :=
  have h := decodeOfEncodeIsTheInstruction
  ⟨h .eEnd rfl, h .eEsc rfl, h (.eLit 0xDC#8) rfl, h (.dEnd 0) rfl, h (.dEsc 0) rfl, h (.dLit 0 0xDD#8) rfl,
    h (.dXend 0) rfl, h (.dXesc 0) rfl, h (.dXbad 0 0xC0#8) rfl, h .eFin rfl, h (.dEoc 0) rfl⟩

/-- A payload byte is one of three kinds (30_encoding R56). -/
theorem payloadByte_cases {P : Byte → Prop} (hend : P END) (hesc : P ESC) (hlit : ∀ b, isPlain b = true → P b)
    (b : Byte) : P b := by
  by_cases h1 : b = END
  · exact h1 ▸ hend
  · by_cases h2 : b = ESC
    · exact h2 ▸ hesc
    · exact hlit b (isPlain_iff.mpr ⟨h1, h2⟩)

theorem encodeOp_decodePayload8_and_wf (v : Byte) :
    encodeOp (decodePayload8 v) = .payload8 v ∧ (decodePayload8 v).wf = true := by
  induction v using payloadByte_cases with
  | hend => exact ⟨rfl, rfl⟩
  | hesc => exact ⟨rfl, rfl⟩
  | hlit v h =>
    rw [decodePayload8_of_plain h]
    exact ⟨rfl, h⟩

theorem encodeOp_decodeWire8_and_wf (k : Nat) (esc : Bool) (v : Byte) :
    encodeOp (decodeWire8 k esc v) = .wire8 k esc v ∧ (decodeWire8 k esc v).wf = true := by
  induction esc, v using wireByte_cases with
  | hend => exact ⟨rfl, rfl⟩
  | hesc => exact ⟨rfl, rfl⟩
  | hlit v h1 h2 =>
    have h := isPlain_iff.mpr ⟨h1, h2⟩
    rw [decodeWire8_of_plain k h]
    exact ⟨rfl, h⟩
  | hxend => exact ⟨rfl, rfl⟩
  | hxesc => exact ⟨rfl, rfl⟩
  | hxbad v h1 h2 =>
    have h := isBadSecond_iff.mpr ⟨h1, h2⟩
    rw [decodeWire8_of_badSecond k h]
    exact ⟨rfl, h⟩

/-- Settles O3, by the kinds of selectors; the two maps are inverted byte by byte. -/
theorem encodeOfDecodeIsTheSelector : Obligations.EncodeOfDecodeIsTheSelector := by
  intro x
  cases x with
  | payload8 v =>
    obtain ⟨hsel, hwf⟩ := encodeOp_decodePayload8_and_wf v
    exact ⟨hsel, fun _ => hwf⟩
  | wire8 k esc v =>
    obtain ⟨hsel, hwf⟩ := encodeOp_decodeWire8_and_wf k esc v
    exact ⟨hsel, fun _ => hwf⟩
  | endOfPayload => exact ⟨rfl, fun _ => rfl⟩
  | endOfChunk k => exact ⟨rfl, fun _ => rfl⟩
  | call c =>
    refine ⟨?_, fun h => absurd rfl (h c)⟩
    cases c with
    | encode p o | decode k ch o | dreset k | dnew t => rfl

/-! ## The opcode table -/

/-- The table's reading rule on a payload byte (30_encoding R56, R58). -/
theorem tableRow_payload8 (v : Byte) :
    (tableRow .payload8 v).map Row.op = some (decodePayload8 v).op := by
  induction v using payloadByte_cases with
  | hend => rfl
  | hesc => rfl
  | hlit v h =>
    obtain ⟨hrow, -⟩ := Laws.EncodedRow.plain_rows v h
    rwa [decodePayload8_of_plain h]

/-- The table's reading rule on a wire byte, in the format `esc` gives (30_encoding R57, R58). -/
theorem tableRow_wire8 (k : Nat) (esc : Bool) (v : Byte) :
    (tableRow (Selector.wire8 k esc v).format v).map Row.op = some (decodeWire8 k esc v).op := by
  induction esc, v using wireByte_cases with
  | hend => rfl
  | hesc => rfl
  | hlit v h1 h2 =>
    have h := isPlain_iff.mpr ⟨h1, h2⟩
    obtain ⟨-, hrow⟩ := Laws.EncodedRow.plain_rows v h
    rwa [decodeWire8_of_plain k h]
  | hxend => rfl
  | hxesc => rfl
  | hxbad v h1 h2 =>
    have h := isBadSecond_iff.mpr ⟨h1, h2⟩
    rw [decodeWire8_of_badSecond k h]
    exact Laws.EncodedRow.bad_second_rows v h

/-- Settles O1, format by format. -/
theorem opcodeTableAgreesWithMaps : Obligations.OpcodeTableAgreesWithMaps := fun v =>
  ⟨tableRow_payload8 v, tableRow_wire8 0 false v, tableRow_wire8 0 true v⟩

/-! ## The operation selected for a unit -/

theorem turn_of_fetch {e : Engine} {s : State} {i : Instr} (h : fetch e s = some i) : turn e s = exec i s := by
  simp only [turn, h]

/-- A unit's turn completes in every state (60_exceptions R164). -/
theorem turn_completes (e : Engine) (s : State) : ∃ t, turn e s = .next t := by
  obtain ⟨a, vs, seen, -, hstores⟩ := turn_stores s e
  obtain ⟨t, ht, -⟩ := hstores s rfl rfl fun _ _ => rfl
  exact ⟨t, ht⟩

/-- Settles O8: to run the selected operation is the unit's turn, and every turn completes. -/
theorem selectedOperationCompletes : Obligations.SelectedOperationCompletes := by
  intro e s i hf
  rw [← turn_of_fetch hf]
  exact turn_completes e s

/-! ## The bytes of a frame -/

/-- Every ESC among the bytes is followed by ESC_END or ESC_ESC (30_encoding R63). -/
def EscapesPaired (w : List Byte) : Prop :=
  ∀ i, w[i]? = some ESC → w[i + 1]? = some ESC_END ∨ w[i + 1]? = some ESC_ESC

theorem escapesPaired_nil : EscapesPaired [] := fun _ h => nomatch h

theorem EscapesPaired.cons_of_ne {b : Byte} {w : List Byte} (hw : EscapesPaired w) (hb : b ≠ ESC) :
    EscapesPaired (b :: w) := by
  intro i hi
  cases i with
  | zero => exact absurd (Option.some.inj hi) hb
  | succ i => exact hw i hi

theorem EscapesPaired.cons_pair {c : Byte} {w : List Byte} (hw : EscapesPaired w) (hc : c = ESC_END ∨ c = ESC_ESC) :
    EscapesPaired (ESC :: c :: w) := by
  intro i hi
  cases i with
  | zero => exact hc.imp (congrArg some) (congrArg some)
  | succ i =>
    have hne : c ≠ ESC := by rcases hc with rfl | rfl <;> simp
    exact hw.cons_of_ne hne i hi

/-- A symbol put before paired bytes leaves them paired (40_encoder R78). -/
theorem EscapesPaired.stuff_append {w : List Byte} (hw : EscapesPaired w) (b : Byte) : EscapesPaired (stuff b ++ w) := by
  induction b using payloadByte_cases with
  | hend => exact hw.cons_pair (.inl rfl)
  | hesc => exact hw.cons_pair (.inr rfl)
  | hlit b h =>
    obtain ⟨hend, hesc⟩ := isPlain_iff.mp h
    rw [stuff_plain hend hesc]
    exact hw.cons_of_ne hesc

theorem escapesPaired_flatMap_stuff (p : List Byte) : EscapesPaired (p.flatMap stuff) := by
  induction p with
  | nil => exact escapesPaired_nil
  | cons b p ih => exact ih.stuff_append b

/-- No symbol has END in it (40_encoder R78). -/
theorem end_not_mem_stuff (b : Byte) : END ∉ stuff b := by
  induction b using payloadByte_cases with
  | hend => simp
  | hesc => simp
  | hlit b h =>
    obtain ⟨hend, hesc⟩ := isPlain_iff.mp h
    simp [stuff_plain hend hesc, hend.symm]

/-- Settles O31: before its END a frame is the symbols of its payload. -/
theorem frameGrammar : Obligations.FrameGrammar := by
  intro p
  refine ⟨p.flatMap stuff, rfl, fun hmem => ?_, escapesPaired_flatMap_stuff p⟩
  obtain ⟨b, -, hb⟩ := List.mem_flatMap.mp hmem
  exact end_not_mem_stuff b hb

end Sys2Proof.Machine
end

section
/-! SUPPORT and PROOFS. The encoder: the operation a step runs (40_encoder R70), the byte operations (R73 to R76), the length
of a frame (R78, R79), and ENCODE followed by DECODE (R81). -/

namespace Sys2Proof.Machine

/-! ## The operation a step runs -/

/-- The operation of an Encoder that runs an ENCODE (40_encoder R70). -/
theorem fetch_encoder_of_running {s : State} {c : EncCall} (hc : s.enc.call = some c) :
    fetch .encoder s = some (decodeOp (if s.enc.ei < c.payload.len then
      .payload8 (s.mem.read (c.payload.base + s.enc.ei)) else .endOfPayload)) := by
  simp only [fetch, fetchEnc, hc, memRead]
  split <;> rfl

/-- The operation of an instance that runs a DECODE (41_decoder R90). -/
theorem fetch_decoder_of_running {s : State} {k : Nat} {d : Decoder} {c : DecCall} (hd : s.decs[k]? = some d)
    (hc : d.call = some c) :
    fetch (.decoder k) s = some (decodeOp (if d.di < c.chunk.len then
      .wire8 k d.esc (s.mem.read (c.chunk.base + d.di)) else .endOfChunk k)) := by
  simp only [fetch, fetchDec, hd, hc, memRead]
  split <;> rfl

/-- With no host action pending the step is the turn of the unit that moves next (log 6). -/
theorem step_of_nextEngine {s : State} {e : Engine} (hh : s.host = []) (he : nextEngine s = some e) :
    step s = turn e s := by
  simp only [step, hh, he]

/-- A pending tick is the unit's turn (log 6). -/
theorem step_of_tick {s : State} {e : Engine} {rest : List HostAction} (hh : s.host = .tick e :: rest) :
    step s = turn e { s with host := rest } := by
  simp only [step, hh, act]

theorem nextEngine_of_encode_running {s : State} {c : EncCall} (hc : s.enc.call = some c) :
    nextEngine s = some .encoder := by
  simp [nextEngine, hc]

theorem nextEngine_of_first_decode {s : State} {k : Nat} {d : Decoder} {c : DecCall} (hidle : s.enc.call = none)
    (hd : s.decs[k]? = some d) (hc : d.call = some c)
    (hbefore : ∀ j d', j < k → s.decs[j]? = some d' → d'.call = none) : nextEngine s = some (.decoder k) := by
  have hfirst : firstRunning 0 s.decs = some (0 + k) := firstRunning_of_first hd (hc ▸ rfl) hbefore
  simp [nextEngine, hidle, hfirst]

/-- Settles O5: the step is the turn of the unit that moves next or is ticked, which runs what the unit fetches. -/
theorem stepRunsTheSelectedOperation : Obligations.StepRunsTheSelectedOperation := by
  refine ⟨fun s c hh hc => ?_, fun s k d c hh hidle hd hc hbefore => ?_, fun s c rest hh hc => ?_,
    fun s k d c rest hh hd hc => ?_⟩
  · exact (step_of_nextEngine hh (nextEngine_of_encode_running hc)).trans (turn_of_fetch (fetch_encoder_of_running hc))
  · exact (step_of_nextEngine hh (nextEngine_of_first_decode hidle hd hc hbefore)).trans
      (turn_of_fetch (fetch_decoder_of_running hd hc))
  · exact (step_of_tick hh).trans (turn_of_fetch (fetch_encoder_of_running (s := { s with host := rest }) hc))
  · exact (step_of_tick hh).trans (turn_of_fetch (fetch_decoder_of_running (s := { s with host := rest }) hd hc))

/-! ## The byte operations of the Encoder, state by state -/

/-- Settles O10: E.LIT does `eLitBody`, which depends on the room left. -/
theorem eLitCopiesOrRunsOutOfRoom : Obligations.ELitCopiesOrRunsOutOfRoom := by
  intro s c v hc hi hend hesc
  have hexec : exec (.eLit v) s = .next (putEnc (eLitBody c.encOut { s.enc with b := v } s.mem) s) :=
    (congrArg (onPayloadByte · v eLitBody s) (isPlain_iff.mpr ⟨hend, hesc⟩)).trans (onPayloadByte_of_selected hc hi)
  refine ⟨fun h => ?_, fun h => ?_⟩
  · rw [hexec, eLitBody_of_room (by exact h)]
    rfl
  · rw [hexec, eLitBody_of_full (by exact h)]
    rfl

/-- An operation that stores the two bytes of an escape pair stores both and advances, or the first and ends the ENCODE, or
only ends it (40_encoder R74, R75). -/
theorem exec_of_stores_pair {i : Instr} {s : State} {o : Buffer} {b x y : Byte}
    (hexec : exec i s = .next (putEnc (encStores o [x, y] { s.enc with b := b } s.mem) s)) :
    (s.enc.en + 1 < o.len → exec i s = .next { s with
      mem := (s.mem.write (o.base + s.enc.en) x).write (o.base + (s.enc.en + 1)) y
      enc := { s.enc with b := b, ei := s.enc.ei + 1, en := s.enc.en + 2 } }) ∧
    (s.enc.en + 1 = o.len → exec i s = .next { s with
      mem := s.mem.write (o.base + s.enc.en) x
      enc := encIdle s.draws .capacityExceeded, draws := s.draws + 1 }) ∧
    (o.len ≤ s.enc.en → exec i s = .next { s with
      enc := encIdle s.draws .capacityExceeded, draws := s.draws + 1 }) := by
  refine ⟨fun h => ?_, fun h => ?_, fun h => ?_⟩
  · rw [hexec, encStores_of_room (by exact h)]
    rfl
  · rw [hexec, encStores_of_full (by exact h ▸ Nat.lt_succ_self _), ← h, Nat.add_sub_cancel_left]
    rfl
  · rw [hexec, encStores_of_full (by exact Nat.lt_add_right 1 (Nat.lt_succ_of_le h)), Nat.sub_eq_zero_of_le h]
    rfl

/-- Settles O11: E.END stores an escape pair. -/
theorem eEndEscapesOrRunsOutOfRoom : Obligations.EEndEscapesOrRunsOutOfRoom := fun s c hc hi =>
  exec_of_stores_pair (eEndBody_eq_stores c.encOut { s.enc with b := END } s.mem ▸ onPayloadByte_of_selected hc hi)

/-- Settles O12: E.ESC stores an escape pair. -/
theorem eEscEscapesOrRunsOutOfRoom : Obligations.EEscEscapesOrRunsOutOfRoom := fun s c hc hi =>
  exec_of_stores_pair (eEscBody_eq_stores c.encOut { s.enc with b := ESC } s.mem ▸ onPayloadByte_of_selected hc hi)

/-- The end-of-payload event at the end of the payload does its body. -/
theorem onPayloadEnd_of_end {body : Buffer → Encoder → Memory → EncFlow} {s : State} {c : EncCall}
    (hc : s.enc.call = some c) (hi : c.payload.len ≤ s.enc.ei) :
    onPayloadEnd body s = .next (putEnc (body c.encOut s.enc s.mem) s) := by
  simp only [onPayloadEnd, hc, if_pos hi]

/-- Settles O13: E.FIN does `eFinBody`, which depends on the room left. -/
theorem eFinTerminatesTheFrame : Obligations.EFinTerminatesTheFrame := by
  intro s c hc hi
  have hexec : exec .eFin s = .next (putEnc (eFinBody c.encOut s.enc s.mem) s) := onPayloadEnd_of_end hc hi.ge
  refine ⟨fun h => ?_, fun h => ?_⟩
  · rw [hexec, eFinBody_of_room h]
    rfl
  · rw [hexec, eFinBody_of_full h]
    rfl

/-! ## The length of a frame -/

/-- A symbol has one byte, or two for a marker (40_encoder R78). -/
theorem length_stuff (b : Byte) : (stuff b).length = if b = END ∨ b = ESC then 2 else 1 := by
  induction b using payloadByte_cases with
  | hend => rfl
  | hesc => rfl
  | hlit b h =>
    obtain ⟨hend, hesc⟩ := isPlain_iff.mp h
    rw [stuff_plain hend hesc, if_neg (by simp [hend, hesc])]
    rfl

theorem frameLen_cons (b : Byte) (p : List Byte) : frameLen (b :: p) = (stuff b).length + frameLen p := by
  rw [length_stuff, frameLen, frameLen, List.length_cons, List.countP_cons]
  simp only [decide_eq_true_eq]
  split <;> omega

/-- A frame has length `L` (40_encoder R78). -/
theorem length_frame (p : List Byte) : (frame p).length = frameLen p := by
  induction p with
  | nil => rfl
  | cons b p ih => rw [frame_cons, List.length_append, ih, frameLen_cons]

/-- The symbols of a payload are all of its frame but the END (40_encoder R78). -/
theorem length_flatMap_stuff (p : List Byte) : (p.flatMap stuff).length + 1 = frameLen p := by
  rw [← length_frame, frame, List.length_append, List.length_singleton]

/-- Frames concatenate but for the END (40_encoder R80). -/
theorem frame_append (p q : List Byte) : frame (p ++ q) = p.flatMap stuff ++ frame q := by
  simp only [frame, List.flatMap_append, List.append_assoc]

/-- Settles O30: all of a frame but its last byte is the symbols of its payload. -/
theorem frameLengthAndConcatenation : Obligations.FrameLengthAndConcatenation := by
  refine ⟨length_frame, fun p q => ?_⟩
  have htake : (frame p).take (frameLen p - 1) = p.flatMap stuff :=
    List.take_left' (Nat.eq_sub_of_add_eq (length_flatMap_stuff p))
  rw [frame_append, htake]

/-! ## ENCODE executed whole -/

/-- Settles O25: `encEnds` for the payload's frame, whose length is `L`. -/
theorem encodeWritesTheFrame : Obligations.EncodeWritesTheFrame := by
  intro s p o h
  rw [exec_encode_of_allowed h, encEnds, length_frame]
  rfl

/-- An ENCODE with room for the frame (40_encoder R79). -/
theorem exec_encode_of_room {p o : Buffer} {s : State} (h : EncodeAllowed p o s)
    (hroom : frameLen (s.mem.slice p.base p.len) ≤ o.len) :
    exec (.encode p o) s = .next (putEnc (.ended (.ok (frameLen (s.mem.slice p.base p.len)))
      (s.mem.fill o.base (frame (s.mem.slice p.base p.len)))) s) := by
  rw [exec_encode_of_allowed h, encEnds_of_room (length_frame _ ▸ hroom), length_frame]

/-- An ENCODE without room for the frame (40_encoder R79; log 9). -/
theorem exec_encode_of_full {p o : Buffer} {s : State} (h : EncodeAllowed p o s)
    (hfull : o.len < frameLen (s.mem.slice p.base p.len)) :
    exec (.encode p o) s = .next (putEnc (.ended .capacityExceeded
      (s.mem.fill o.base ((frame (s.mem.slice p.base p.len)).take o.len))) s) := by
  rw [exec_encode_of_allowed h, encEnds_of_full (length_frame _ ▸ hfull)]

/-- Settles O26: the frame fits or not; and `L` counts each marker of the payload once more. -/
theorem encodeCapacityLaw : Obligations.EncodeCapacityLaw := by
  refine ⟨fun s p o h => ?_, fun p => ?_⟩
  · rcases Nat.lt_or_ge o.len (frameLen (s.mem.slice p.base p.len)) with hlen | hlen
    · exact ⟨_, exec_encode_of_full h hlen, fun hroom => absurd hlen (Nat.not_lt.mpr hroom), fun _ => rfl⟩
    · exact ⟨_, exec_encode_of_room h hlen, fun _ => rfl, fun hfull => absurd hfull (Nat.not_lt.mpr hlen)⟩
  · have hle : p.countP (fun b => b = END ∨ b = ESC) ≤ p.length := List.countP_le_length
    refine ⟨by rw [frameLen]; omega, by rw [frameLen]; omega, fun hplain => ?_, fun hmarker => ?_⟩
    · have hcount : p.countP (fun b => b = END ∨ b = ESC) = 0 := List.countP_eq_zero.mpr (by simpa using hplain)
      rw [frameLen, hcount]
    · have hcount : p.countP (fun b => b = END ∨ b = ESC) = p.length :=
        List.countP_eq_length.mpr (by simpa using hmarker)
      rw [frameLen, hcount, Nat.two_mul]

/-- What was filled into a window is read back, its length given. -/
theorem Memory.slice_fill_of_length {m : Memory} {n : Nat} {vs : List Byte} (a : Nat) (hm : m.wf = true)
    (hn : vs.length = n) : (m.fill a vs).slice a n = vs :=
  hn ▸ Memory.slice_fill_self a vs hm

/-- Settles O27: what was filled into the output is read back from it. -/
theorem encodeOutputReadsBack : Obligations.EncodeOutputReadsBack := by
  intro s p o hm h payload
  rcases Nat.lt_or_ge o.len (frameLen payload) with hlen | hlen
  · refine ⟨_, exec_encode_of_full h hlen, fun hroom => absurd hlen (Nat.not_lt.mpr hroom), fun _ => ⟨rfl, ?_⟩⟩
    exact Memory.slice_fill_of_length _ hm (List.length_take_of_le (length_frame payload ▸ hlen.le))
  · refine ⟨_, exec_encode_of_room h hlen, fun _ => ?_, fun hfull => absurd hfull (Nat.not_lt.mpr hlen)⟩
    exact congrArg some (Memory.slice_fill_of_length _ hm (length_frame payload))

/-! ## A frame decoded -/

/-- From `esc = 0` and with room, the symbol of a payload byte decodes to the byte (40_encoder R78, 41_decoder R103). -/
theorem decodeFrom_stuff_append {x : Bool} {cap di : Nat} {out : List Byte} (b : Byte) (wire : List Byte)
    (h : out.length < cap) : decodeFrom x cap false di out (stuff b ++ wire) =
      decodeFrom x cap false (di + (stuff b).length) (out ++ [b]) wire := by
  have hroom : decide (cap ≤ out.length) = false := decide_eq_false (Nat.not_le.mpr h)
  induction b using payloadByte_cases with
  | hend => simp [decodeFrom, hroom]
  | hesc => simp [decodeFrom, hroom]
  | hlit b hb =>
    obtain ⟨hend, hesc⟩ := isPlain_iff.mp hb
    simp [stuff_plain hend hesc, decodeFrom, hroom, dstep_lit hend hesc]

/-- From `esc = 0` and with room, the symbols of a payload decode to the payload. -/
theorem decodeFrom_flatMap_stuff_append {x : Bool} {cap di : Nat} {out : List Byte} (p wire : List Byte)
    (h : out.length + p.length ≤ cap) : decodeFrom x cap false di out (p.flatMap stuff ++ wire) =
      decodeFrom x cap false (di + (p.flatMap stuff).length) (out ++ p) wire := by
  induction p generalizing di out with
  | nil => simp
  | cons b p ih =>
    rw [List.length_cons] at h
    rw [List.flatMap_cons, List.append_assoc, decodeFrom_stuff_append b _ (by omega),
      ih (by rw [List.length_append, List.length_singleton]; omega)]
    simp [Nat.add_assoc]

/-- A DECODE from `esc = 0` with room for the payload completes the first frame of its chunk, whatever comes after it
(41_decoder R105, R106). -/
theorem decodeChunk_frame_append {x : Bool} {cap : Nat} (p rest : List Byte) (h : p.length ≤ cap) :
    decodeChunk x cap false (frame p ++ rest) = ⟨.frameComplete (frameLen p) p.length, p, false⟩ := by
  rw [decodeChunk, frame, List.append_assoc, decodeFrom_flatMap_stuff_append p _ (by simpa using h)]
  simp [decodeFrom, ← length_flatMap_stuff]

theorem decodeChunk_frame {x : Bool} {cap : Nat} (p : List Byte) (h : p.length ≤ cap) :
    decodeChunk x cap false (frame p) = ⟨.frameComplete (frameLen p) p.length, p, false⟩ := by
  simpa using decodeChunk_frame_append (x := x) p [] h

/-! ## ENCODE, then DECODE -/

/-- An ENCODE's end changes nothing that allows a DECODE: the idle Encoder lent nothing before it either. -/
theorem DecodeAllowed.putEnc_ended {k : Nat} {c o : Buffer} {d : Decoder} {s : State} (r : EncResult) (m : Memory)
    (hidle : s.enc.call = none) (h : DecodeAllowed k c o d s) : DecodeAllowed k c o d (putEnc (.ended r m) s) := by
  have hlent : lent (putEnc (.ended r m) s) = lent s :=
    congrArg (· ++ s.decs.flatMap decLent) (encLent_congr (e := encIdle s.draws r) hidle.symm)
  obtain ⟨hd, hc, hci, hoi, hdis⟩ := h
  refine ⟨hd, hc, hci, hoi, ?_⟩
  rw [disjointWindows, hlent]
  exact hdis

/-- Settles O34: the ENCODE leaves the frame in its output, and the DECODE of a frame completes with its payload. -/
theorem encodeThenDecodeIsThePayload : Obligations.EncodeThenDecodeIsThePayload := by
  intro s k d p o o' hm henc hroom hdec hesc hcap
  have hlen : (s.mem.slice p.base p.len).length = p.len := Memory.length_slice _ _ _
  have hexec := exec_encode_of_room henc hroom
  obtain ⟨hidle, -⟩ := henc
  generalize s.mem.slice p.base p.len = payload at hlen hexec hroom hdec ⊢
  have hdec' := hdec.putEnc_ended (.ok (frameLen payload)) (s.mem.fill o.base (frame payload)) hidle
  have hchunk : (s.mem.fill o.base (frame payload)).slice o.base (frameLen payload) = frame payload :=
    Memory.slice_fill_of_length _ hm (length_frame payload)
  have hexec' := exec_decode_of_allowed hdec'
  rw [putEnc_ended_mem, hchunk, hesc, decodeChunk_frame payload (hlen ▸ hcap)] at hexec'
  refine ⟨_, _, _, hexec, hexec', putDec_decs_self _ hdec'.getElem?_decs, ?_, rfl, ?_⟩
  · exact congrArg _ hlen
  · exact Memory.slice_fill_of_length _ (Memory.wf_fill _ _ hm) hlen

end Sys2Proof.Machine
end

section
/-! SUPPORT and PROOFS. The decoder, byte by byte and frame by frame: the byte operations (41_decoder R94 to R100), a turn as a
row of `dstep` (R103), and a DECODE of a frame and of what comes after it (R105, R106, R108). -/

namespace Sys2Proof.Machine

/-! ## The byte operations of a decoder, state by state -/

/-- A selected operation that stores a byte stores it and advances, or, with the output full, ends the DECODE with `esc` as it
is (41_decoder R94, R97, R98). -/
theorem exec_of_decStores {i : Instr} {s : State} {k : Nat} {d : Decoder} {o : Buffer} {esc esc' : Bool} {b v : Byte}
    (he : d.esc = esc) (hexec : exec i s = .next (putDec k (decStores o esc' v { d with b := b } s.mem) s)) :
    (d.dn < o.len → exec i s = .next { s with
      mem := s.mem.write (o.base + d.dn) v
      decs := s.decs.set k { d with b := b, esc := esc', di := d.di + 1, dn := d.dn + 1 } }) ∧
    (o.len ≤ d.dn → exec i s = .next { s with
      decs := s.decs.set k (decIdle s.draws esc (.err .capacityExceeded d.di d.dn)), draws := s.draws + 1 }) := by
  refine ⟨fun h => ?_, fun h => ?_⟩
  · rw [hexec, decStores_of_room (by exact h)]
    rfl
  · rw [hexec, decStores_of_full (by exact h), ← he]
    rfl

/-- Settles O15: D.LIT stores its byte and leaves `esc`. -/
theorem dLitCopiesOrRunsOutOfRoom : Obligations.DLitCopiesOrRunsOutOfRoom := by
  intro s k d c v hd hc hi he hend hesc
  have hsel : exec (.dLit k v) s = .next (putDec k (dLitBody c.decOut { d with b := v } s.mem) s) :=
    (congrArg (onWireByte k false · v dLitBody s) (isPlain_iff.mpr ⟨hend, hesc⟩)).trans
      (onWireByte_of_selected hd hc hi he)
  exact exec_of_decStores he (dLitBody_eq_stores c.decOut { d with b := v } s.mem ▸ hsel)

/-- Settles O16: a selected D.END does `dEndBody`. -/
theorem dEndCompletesTheFrame : Obligations.DEndCompletesTheFrame := by
  intro s k d c hd hc hi he
  have hsel : exec (.dEnd k) s = .next (putDec k (dEndBody c.decOut { d with b := END } s.mem) s) :=
    onWireByte_of_selected hd hc hi he
  rw [hsel, dEndBody_eq, ← he]
  rfl

/-- Settles O17: a selected D.ESC does `dEscBody`. -/
theorem dEscOpensAnEscape : Obligations.DEscOpensAnEscape := by
  intro s k d c hd hc hi he
  have hsel : exec (.dEsc k) s = .next (putDec k (dEscBody c.decOut { d with b := ESC } s.mem) s) :=
    onWireByte_of_selected hd hc hi he
  rw [hsel, dEscBody_eq]
  rfl

/-- Settles O18: D.XEND stores END and clears `esc`. -/
theorem dXendWritesEndOrRunsOutOfRoom : Obligations.DXendWritesEndOrRunsOutOfRoom := fun s _ d c hd hc hi he =>
  exec_of_decStores he
    (dXendBody_eq_stores c.decOut { d with b := ESC_END } s.mem ▸ onWireByte_of_selected hd hc hi he)

/-- Settles O19: D.XESC stores ESC and clears `esc`. -/
theorem dXescWritesEscOrRunsOutOfRoom : Obligations.DXescWritesEscOrRunsOutOfRoom := fun s _ d c hd hc hi he =>
  exec_of_decStores he
    (dXescBody_eq_stores c.decOut { d with b := ESC_ESC } s.mem ▸ onWireByte_of_selected hd hc hi he)

/-- Settles O20: a selected D.XBAD does `dXbadBody`, for either value of XBAD_CONSUMES. -/
theorem dXbadRaisesInvalidEscape : Obligations.DXbadRaisesInvalidEscape := by
  intro s k d c v hd hc hi he hxend hxesc
  have hsel : exec (.dXbad k v) s =
      .next (putDec k (dXbadBody s.params.xbadConsumes c.decOut { d with b := v } s.mem) s) :=
    (congrArg (onWireByte k true · v _ s) (isBadSecond_iff.mpr ⟨hxend, hxesc⟩)).trans
      (onWireByte_of_selected hd hc hi he)
  rw [hsel, dXbadBody_eq]
  rfl

/-- The end-of-chunk event at the end of the chunk does its body. -/
theorem onChunkEnd_of_end {k : Nat} {body : Decoder → Memory → DecFlow} {s : State} {d : Decoder} {c : DecCall}
    (hd : s.decs[k]? = some d) (hc : d.call = some c) (hi : c.chunk.len ≤ d.di) :
    onChunkEnd k body s = .next (putDec k (body d s.mem) s) := by
  simp only [onChunkEnd, hd, hc, if_pos hi]

/-- Settles O21: D.EOC at the end of the chunk does `dEocBody`. -/
theorem dEocReturnsFrameIncomplete : Obligations.DEocReturnsFrameIncomplete := by
  intro s k d c hd hc hi
  have hsel : exec (.dEoc k) s = .next (putDec k (dEocBody d s.mem) s) := onChunkEnd_of_end hd hc hi.ge
  rw [hsel, dEocBody_eq, hi]
  rfl

/-! ## A turn is a row of dstep -/

/-- Everything a byte step can do: consume its byte and go on, which it then also does with room; complete a frame; find the
output full; or find a bad second byte (41_decoder R103). -/
theorem dstep_cases (esc : Bool) (b : Byte) (full : Bool) :
    (∃ e w, dstep esc b full = ⟨e, w, true, .nextByte⟩ ∧ dstep esc b false = ⟨e, w, true, .nextByte⟩) ∨
    (esc = false ∧ b = END ∧ dstep esc b full = ⟨false, none, true, .frameComplete⟩) ∨
    (full = true ∧ dstep esc b full = ⟨esc, none, false, .error .capacityExceeded⟩) ∨
    (esc = true ∧ isBadSecond b = true ∧ dstep esc b full = ⟨false, none, false, .error .invalidEscapeSequence⟩) := by
  induction esc, b using wireByte_cases with
  | hend => exact .inr (.inl ⟨rfl, rfl, dstep_end full⟩)
  | hesc => exact .inl ⟨_, _, dstep_esc full, dstep_esc false⟩
  | hlit b h1 h2 =>
    cases full with
    | false => exact .inl ⟨_, _, dstep_lit h1 h2, dstep_lit h1 h2⟩
    | true => exact .inr (.inr (.inl ⟨rfl, dstep_lit_full h1 h2⟩))
  | hxend =>
    cases full with
    | false => exact .inl ⟨_, _, dstep_xend, dstep_xend⟩
    | true => exact .inr (.inr (.inl ⟨rfl, dstep_xend_full⟩))
  | hxesc =>
    cases full with
    | false => exact .inl ⟨_, _, dstep_xesc, dstep_xesc⟩
    | true => exact .inr (.inr (.inl ⟨rfl, dstep_xesc_full⟩))
  | hxbad b h1 h2 => exact .inr (.inr (.inr ⟨rfl, isBadSecond_iff.mpr ⟨h1, h2⟩, dstep_xbad full h1 h2⟩))

/-- Settles O22: the turn is the step of DECODE's loop, which is the row of `dstep`. -/
theorem decoderTurnIsDstep : Obligations.DecoderTurnIsDstep := by
  intro s k d c v hx hd hc hi hv r
  have hturn : turn (.decoder k) s = .next (putDec k (r.flow false c.decOut { d with b := v } s.mem) s) := by
    rw [turn_decoder_of_running hd hc, decStep_of_lt _ _ hi, hx, memRead, hv, decBody_eq_flow _ _ _ (by rfl) (by rfl)]
  refine ⟨_, hturn, ?_, ?_⟩
  · rw [putDec_mem, DStep.flow_mem]
    cases r.writes <;> rfl
  · have hr : r = dstep d.esc v (decide (c.decOut.len ≤ d.dn)) := rfl
    clear_value r
    rw [putDec_decs]
    rcases dstep_cases d.esc v (decide (c.decOut.len ≤ d.dn)) with ⟨e, w, hrow, -⟩ | ⟨-, -, hrow⟩ | ⟨-, hrow⟩ |
      ⟨-, -, hrow⟩ <;> rw [hr, hrow]
    · cases w <;> rfl
    · rfl
    · rfl
    · rfl

/-! ## DECODE of a frame -/

/-- Settles O32: `decodeChunk` for `esc`, the chunk's bytes and the capacity. -/
theorem decodeIsRepeatedDstep : Obligations.DecodeIsRepeatedDstep := fun _ _ _ _ _ h => exec_decode_of_allowed h

/-- Settles O35: decoding ends at the first frame's END. -/
theorem decodeStopsAtTheFirstFrame : Obligations.DecodeStopsAtTheFirstFrame := by
  intro s k d c o p rest hm h hesc hchunk hcap
  have hexec := exec_decode_of_allowed h
  rw [hesc, hchunk, decodeChunk_frame_append p rest hcap] at hexec
  exact ⟨_, _, hexec, putDec_decs_self _ h.getElem?_decs, rfl, rfl, rfl, Memory.slice_fill_self _ _ hm⟩

/-- Settles O33: a frame is a frame with nothing after it. -/
theorem decodeOfAFrameIsThePayload : Obligations.DecodeOfAFrameIsThePayload := by
  intro s k d c o p hm h hesc hchunk hcap
  obtain ⟨t, d', hexec, hd', hresult, hesc', -, hout⟩ :=
    decodeStopsAtTheFirstFrame s k d c o p [] hm h hesc (by simpa using hchunk) hcap
  exact ⟨t, d', hexec, hd', hresult, hesc', hout⟩

/-- From `esc = 0` with the output full, the symbol of a payload byte raises CapacityExceeded, at its second byte if it is an
escape pair (41_decoder R108). -/
theorem decodeFrom_stuff_of_full {x : Bool} {cap di : Nat} {out : List Byte} (b : Byte) (wire : List Byte)
    (h : cap ≤ out.length) : decodeFrom x cap false di out (stuff b ++ wire) =
      ⟨.err .capacityExceeded (if b = END ∨ b = ESC then di + 1 else di) out.length, out, decide (b = END ∨ b = ESC)⟩ := by
  have hfull : decide (cap ≤ out.length) = true := decide_eq_true h
  induction b using payloadByte_cases with
  | hend => simp [decodeFrom, hfull]
  | hesc => simp [decodeFrom, hfull]
  | hlit b hb =>
    obtain ⟨hend, hesc⟩ := isPlain_iff.mp hb
    simp [stuff_plain hend hesc, decodeFrom, hfull, dstep_lit_full hend hesc, hend, hesc]

/-- A frame decoded with too little room runs out of it at symbol number `cap` (41_decoder R108). -/
theorem decodeChunk_frame_of_full {x : Bool} {cap : Nat} {p : List Byte} {b : Byte} (hb : p[cap]? = some b) :
    decodeChunk x cap false (frame p) = ⟨.err .capacityExceeded
      (if b = END ∨ b = ESC then ((p.take cap).flatMap stuff).length + 1 else ((p.take cap).flatMap stuff).length) cap,
      p.take cap, decide (b = END ∨ b = ESC)⟩ := by
  obtain ⟨hlt, rfl⟩ := List.getElem?_eq_some_iff.mp hb
  have hlen : (p.take cap).length = cap := List.length_take_of_le hlt.le
  have hframe : frame p = (p.take cap).flatMap stuff ++ (stuff p[cap] ++ frame (p.drop (cap + 1))) := by
    rw [← frame_cons, ← frame_append, List.getElem_cons_drop, List.take_append_drop]
  rw [decodeChunk, hframe, decodeFrom_flatMap_stuff_append _ _ (by simp [hlen]), List.nil_append,
    decodeFrom_stuff_of_full _ _ hlen.ge, hlen, Nat.zero_add]

/-- Settles O36: a frame decodes to its payload with room, and up to symbol number `cap` without. -/
theorem decodeCapacityLaw : Obligations.DecodeCapacityLaw := by
  intro s k d c o p hm h hesc hchunk
  have hlen : frameLen p = c.len := by rw [← length_frame, ← hchunk, Memory.length_slice]
  refine ⟨fun hcap => ?_, fun b hb => ?_⟩
  · obtain ⟨t, d', hexec, hd', hresult, -, -⟩ := decodeOfAFrameIsThePayload s k d c o p hm h hesc hchunk hcap
    exact ⟨t, d', hexec, hd', hlen ▸ hresult⟩
  · have hexec := exec_decode_of_allowed h
    rw [hesc, hchunk, decodeChunk_frame_of_full hb] at hexec
    obtain ⟨hlt, -⟩ := List.getElem?_eq_some_iff.mp hb
    refine ⟨_, _, hexec, putDec_decs_self _ h.getElem?_decs, ?_, rfl, ?_⟩
    · simp [Decoded.flow]
    · exact Memory.slice_fill_of_length _ hm (List.length_take_of_le hlt.le)

end Sys2Proof.Machine
end

section
/-! SUPPORT and PROOFS. What decoding a byte can do, said once; one DECODE after another on the same instance, and what a DECODE
gets done (41_decoder R109). -/

namespace Sys2Proof

/-- What is left of a window after its first `i` bytes. -/
def Buffer.drop (b : Buffer) (i : Nat) : Buffer := ⟨b.base + i, b.len - i⟩

namespace Machine

/-! ## What decoding a byte can do -/

/-- Everything decoding can do at a byte: go on after it, or end there in one of three ways (41_decoder R90, R99, R103). -/
theorem decodeFrom_cons_cases (x : Bool) (cap : Nat) (esc : Bool) (di : Nat) (out : List Byte) (b : Byte)
    (rest : List Byte) :
    (∃ e w, dstep esc b false = ⟨e, w, true, .nextByte⟩ ∧
      decodeFrom x cap esc di out (b :: rest) = decodeFrom x cap e (di + 1) (out ++ w.toList) rest) ∨
    (esc = false ∧ b = END ∧
      decodeFrom x cap esc di out (b :: rest) = ⟨.frameComplete (di + 1) out.length, out, false⟩) ∨
    (cap ≤ out.length ∧ dstep esc b true = ⟨esc, none, false, .error .capacityExceeded⟩ ∧
      decodeFrom x cap esc di out (b :: rest) = ⟨.err .capacityExceeded di out.length, out, esc⟩) ∨
    (esc = true ∧ isBadSecond b = true ∧ decodeFrom x cap esc di out (b :: rest) =
      ⟨.err .invalidEscapeSequence (if x then di + 1 else di) out.length, out, false⟩) := by
  rcases dstep_cases esc b (decide (cap ≤ out.length)) with ⟨e, w, hrow, hroom⟩ | ⟨hesc, hb, hrow⟩ | ⟨hfull, hrow⟩ |
    ⟨hesc, hb, hrow⟩
  · exact .inl ⟨e, w, hroom, by simp [decodeFrom, hrow]⟩
  · exact .inr (.inl ⟨hesc, hb, by simp [decodeFrom, hrow]⟩)
  · exact .inr (.inr (.inl ⟨of_decide_eq_true hfull, hfull ▸ hrow, by simp [decodeFrom, hrow]⟩))
  · exact .inr (.inr (.inr ⟨hesc, hb, by simp [decodeFrom, hrow]⟩))

theorem le_decodeFrom_consumed {x esc : Bool} {cap di : Nat} {out bytes : List Byte} :
    di ≤ (decodeFrom x cap esc di out bytes).result.consumed := by
  induction bytes generalizing esc di out with
  | nil => exact Nat.le_refl di
  | cons b rest ih =>
    rcases decodeFrom_cons_cases x cap esc di out b rest with ⟨e, w, -, h⟩ | ⟨-, -, h⟩ | ⟨-, -, h⟩ | ⟨-, -, h⟩ <;> rw [h]
    · exact (Nat.le_succ di).trans ih
    · exact Nat.le_succ di
    · exact Nat.le_refl di
    · cases x with
      | false => exact Nat.le_refl di
      | true => exact Nat.le_succ di

/-- Decoding at least one byte consumes one, or nothing was consumed because of a bad second byte or for want of any capacity
(41_decoder R109). -/
theorem decodeChunk_progress (x : Bool) (cap : Nat) (esc : Bool) {bytes : List Byte} (hne : bytes ≠ []) :
    1 ≤ (decodeChunk x cap esc bytes).result.consumed ∨
    (esc = true ∧ ∃ n, (decodeChunk x cap esc bytes).result = .err .invalidEscapeSequence 0 n) ∨
    (cap = 0 ∧ (decodeChunk x cap esc bytes).result = .err .capacityExceeded 0 0) := by
  obtain ⟨b, rest, rfl⟩ := List.exists_cons_of_ne_nil hne
  rw [decodeChunk]
  rcases decodeFrom_cons_cases x cap esc 0 [] b rest with ⟨e, w, -, h⟩ | ⟨-, -, h⟩ | ⟨hcap, -, h⟩ | ⟨hesc, -, h⟩ <;> rw [h]
  · exact .inl le_decodeFrom_consumed
  · exact .inl (Nat.le_refl 1)
  · exact .inr (.inr ⟨Nat.le_zero.mp hcap, rfl⟩)
  · cases x with
    | false => exact .inr (.inl ⟨hesc, 0, rfl⟩)
    | true => exact .inl (Nat.le_refl 1)

/-- Where decoding ran out of capacity stands a byte that does so whenever the output is full (41_decoder R93). -/
theorem decodeFrom_capacityExceeded {x esc : Bool} {cap di i n : Nat} {out bytes : List Byte}
    (h : (decodeFrom x cap esc di out bytes).result = .err .capacityExceeded i n) :
    ∃ pre b rest, bytes = pre ++ b :: rest ∧ i = di + pre.length ∧
      dstep (decodeFrom x cap esc di out bytes).esc b true =
        ⟨(decodeFrom x cap esc di out bytes).esc, none, false, .error .capacityExceeded⟩ := by
  induction bytes generalizing esc di out with
  | nil => cases h
  | cons b rest ih =>
    rcases decodeFrom_cons_cases x cap esc di out b rest with ⟨e, w, -, hgo⟩ | ⟨-, -, hend⟩ | ⟨-, hfull, hend⟩ |
      ⟨-, -, hend⟩
    · rw [hgo] at h ⊢
      obtain ⟨pre, b', rest', rfl, rfl, hfull⟩ := ih h
      exact ⟨b :: pre, b', rest', rfl, by rw [List.length_cons]; omega, hfull⟩
    · rw [hend] at h
      cases h
    · rw [hend] at h ⊢
      obtain ⟨rfl, -⟩ : di = i ∧ out.length = n := by simpa using h
      exact ⟨[], b, rest, rfl, rfl, hfull⟩
    · rw [hend] at h
      cases h

/-! ## One DECODE after another -/

theorem Memory.drop_slice (m : Memory) (a n i : Nat) : (m.slice a n).drop i = m.slice (a + i) (n - i) := by
  induction n generalizing a i with
  | zero => simp
  | succ n ih =>
    cases i with
    | zero => rfl
    | succ i => rw [Memory.slice, List.drop_succ_cons, ih, Nat.add_right_comm, Nat.add_sub_add_right, Nat.add_assoc]

/-- What is filled into an output window leaves an input window apart from it alone. -/
theorem Memory.slice_fill_of_windows_apart (m : Memory) {i o : Buffer} {vs : List Byte} (h : i.sharesByte o = false)
    (hvs : vs.length ≤ o.len) : (m.fill o.base vs).slice i.base i.len = m.slice i.base i.len :=
  Memory.slice_congr fun _ hn => Memory.read_fill_of_apart m h hn hvs

theorem holds_drop {b : Buffer} {i x : Nat} (h : holds (b.drop i) x = true) : holds b x = true := by
  unfold Buffer.drop at h
  simp only [holds, Bool.and_eq_true, decide_eq_true_eq] at h ⊢
  omega

theorem sharesByte_drop_left {a b : Buffer} (i : Nat) (h : a.sharesByte b = false) : (a.drop i).sharesByte b = false := by
  refine Bool.eq_false_iff.mpr fun hs => Bool.eq_false_iff.mp h ?_
  obtain ⟨x, ha, hb⟩ := sharesByte_iff.mp hs
  exact sharesByte_iff.mpr ⟨x, holds_drop ha, hb⟩

theorem sharesByte_drop_right {a b : Buffer} (i : Nat) (h : b.sharesByte a = false) : b.sharesByte (a.drop i) = false :=
  (sharesByte_comm b _).trans (sharesByte_drop_left i ((sharesByte_comm a b).trans h))

theorem disjointWindows_drop {c o : Buffer} {s : State} (i : Nat) (h : disjointWindows c o s = true) :
    disjointWindows (c.drop i) o s = true := by
  simp only [disjointWindows, Bool.and_eq_true, List.all_eq_true, Bool.not_eq_true'] at h ⊢
  obtain ⟨hco, hlent⟩ := h
  exact ⟨sharesByte_drop_left i hco, fun b hb => ⟨sharesByte_drop_right i (hlent b hb).1, (hlent b hb).2⟩⟩

theorem fits_of_le {p : Config.Params} {n n' : Nat} (h : fits p n = true) (hle : n' ≤ n) : fits p n' = true := by
  cases hp : p.lenBits with
  | none => simp [fits, hp]
  | some k =>
    simp only [fits, hp, decide_eq_true_eq] at h ⊢
    omega

/-- A DECODE of what is left of a chunk may be issued where one of the chunk may. -/
theorem DecodeAllowed.drop {k : Nat} {c o : Buffer} {d : Decoder} {s : State} (i : Nat) (h : DecodeAllowed k c o d s) :
    DecodeAllowed k (c.drop i) o d s := by
  obtain ⟨hd, hidle, hc, ho, hdis⟩ := h
  exact ⟨hd, hidle, fits_of_le hc (Nat.sub_le _ _), ho, disjointWindows_drop i hdis⟩

/-- The state a DECODE on the idle instance `k` leaves that decoded its chunk as `r` into the output window `o`. -/
abbrev afterDecode (k : Nat) (o : Buffer) (r : Decoded) (s : State) : State := putDec k (r.flow o s.mem) s

theorem lent_afterDecode {k : Nat} {d : Decoder} {s : State} (o : Buffer) (r : Decoded) (hd : s.decs[k]? = some d)
    (hidle : d.call = none) : lent (afterDecode k o r s) = lent s := by
  obtain ⟨hk, rfl⟩ := List.getElem?_eq_some_iff.mp hd
  have hsame : decLent (decIdle s.draws r.esc r.result) = (s.decs.map decLent)[k]'(by simpa using hk) := by
    rw [List.getElem_map]
    exact decLent_congr hidle.symm
  have hdecs : (s.decs.set k (decIdle s.draws r.esc r.result)).flatMap decLent = s.decs.flatMap decLent := by
    rw [List.flatMap_def, List.flatMap_def, List.map_set, hsame, List.set_getElem_self]
  exact congrArg (encLent s.enc ++ ·) hdecs

/-- After a DECODE on the instance whatever DECODE was allowed before it on the instance is allowed still. -/
theorem DecodeAllowed.afterDecode {k : Nat} {c o : Buffer} {d : Decoder} {s : State} (o' : Buffer) (r : Decoded)
    (h : DecodeAllowed k c o d s) :
    DecodeAllowed k c o (decIdle s.draws r.esc r.result) (afterDecode k o' r s) := by
  obtain ⟨hd, hidle, hc, ho, hdis⟩ := h
  refine ⟨putDec_decs_self _ hd, rfl, hc, ho, ?_⟩
  rw [disjointWindows, lent_afterDecode o' r hd hidle]
  exact hdis

/-- A DECODE leaves the bytes of a window apart from its output as they are. -/
theorem slice_afterDecode {k : Nat} {c o : Buffer} {r : Decoded} {s : State} (hap : c.sharesByte o = false)
    (hr : r.out.length ≤ o.len) : (afterDecode k o r s).mem.slice c.base c.len = s.mem.slice c.base c.len :=
  Memory.slice_fill_of_windows_apart s.mem hap hr

theorem slice_drop_afterDecode {k : Nat} {c o : Buffer} {r : Decoded} {s : State} (i : Nat) (hap : c.sharesByte o = false)
    (hr : r.out.length ≤ o.len) :
    (afterDecode k o r s).mem.slice (c.drop i).base (c.drop i).len = (s.mem.slice c.base c.len).drop i := by
  rw [slice_afterDecode (sharesByte_drop_left i hap) hr, Memory.drop_slice]
  rfl

/-- What a DECODE left of its chunk, presented again, is decoded from the `esc` it left. -/
theorem exec_decode_rest {k : Nat} {c o : Buffer} {d : Decoder} {s : State} {r : Decoded} (i : Nat)
    (h : DecodeAllowed k c o d s) (hr : r.out.length ≤ o.len) :
    exec (.decode k (c.drop i) o) (afterDecode k o r s) = .next (afterDecode k o
      (decodeChunk s.params.xbadConsumes o.len r.esc ((s.mem.slice c.base c.len).drop i)) (afterDecode k o r s)) := by
  rw [← slice_drop_afterDecode i h.windows_apart hr]
  exact exec_decode_of_allowed ((h.drop i).afterDecode o r)

/-- What a DECODE wrote fits its output (41_decoder R93). -/
theorem length_decodeChunk_out_le (x : Bool) (cap : Nat) (esc : Bool) (bytes : List Byte) :
    (decodeChunk x cap esc bytes).out.length ≤ cap := by
  obtain ⟨-, hle⟩ := decodeFrom_count (x := x) (esc := esc) (di := 0) (out := []) (bytes := bytes) (Nat.zero_le cap)
  exact hle

/-- A byte that ran out of capacity does so again, `esc` as it was (41_decoder R93, R109). -/
theorem decodeChunk_of_stuck {x esc : Bool} {b : Byte} (rest : List Byte)
    (h : dstep esc b true = ⟨esc, none, false, .error .capacityExceeded⟩) :
    decodeChunk x 0 esc (b :: rest) = ⟨.err .capacityExceeded 0 0, [], esc⟩ := by
  simp [decodeChunk, decodeFrom, h]

/-- Settles O38: each clause is read off what decoding at least one byte does; the remainder is decoded in the state the
DECODE left. -/
theorem decodeMakesProgress : Obligations.DecodeMakesProgress := by
  intro s k d c o h hlen
  have hexec := exec_decode_of_allowed h
  have hdrop_ne (i : Nat) (hi : i < c.len) : (s.mem.slice c.base c.len).drop i ≠ [] :=
    List.ne_nil_of_length_pos (by rw [List.length_drop, Memory.length_slice]; omega)
  have hprogress := decodeChunk_progress s.params.xbadConsumes o.len d.esc (hdrop_ne 0 (by omega))
  rw [List.drop_zero] at hprogress
  obtain ⟨r, hr⟩ : ∃ r, r = decodeChunk s.params.xbadConsumes o.len d.esc (s.mem.slice c.base c.len) := ⟨_, rfl⟩
  have hrest (i : Nat) := exec_decode_rest i h (hr ▸ length_decodeChunk_out_le _ _ _ _ : r.out.length ≤ o.len)
  have hagain (r' : Decoded) : (afterDecode k o r' (afterDecode k o r s)).decs[k]? = _ :=
    putDec_decs_self _ (h.afterDecode o r).getElem?_decs
  rw [← hr] at hexec hprogress
  refine ⟨_, decIdle s.draws r.esc r.result, hexec, putDec_decs_self _ h.getElem?_decs, ?_⟩
  rw [decIdle_result, decIdle_esc]
  refine ⟨fun hok => ?_, fun i n hi hcap => ?_, fun n hi => ?_, fun i n hi => ?_, fun i n hi hcap => ?_⟩
  · rcases hprogress with hp | ⟨-, n, hp⟩ | ⟨-, hp⟩
    · exact hp
    · exact absurd hp (hok _ _ _)
    · exact absurd hp (hok _ _ _)
  · rw [hi] at hprogress
    rcases hprogress with hp | ⟨-, m, hp⟩ | ⟨hzero, -⟩
    · exact hp
    · cases hp
    · exact absurd hzero hcap
  · rw [hi] at hprogress
    rcases hprogress with hp | ⟨hesc, -⟩ | ⟨-, hp⟩
    · exact absurd hp (Nat.not_succ_le_zero 0)
    · exact hesc
    · cases hp
  · have hesc : r.esc = false := by
      rw [hr] at hi ⊢
      exact decodeFrom_esc_of_ends (.inr ⟨i, n, hi⟩)
    refine ⟨hesc, fun hlt => ⟨_, _, hrest i, hagain _, ?_⟩⟩
    rcases decodeChunk_progress s.params.xbadConsumes o.len r.esc (hdrop_ne i hlt) with hp | ⟨htrue, -⟩ | ⟨-, hp⟩
    · exact .inl hp
    · exact absurd htrue (Bool.eq_false_iff.mp hesc)
    · exact .inr hp
  · obtain ⟨pre, b, rest, hbytes, hpre, hstuck⟩ := decodeFrom_capacityExceeded (hr ▸ hi)
    rw [← decodeChunk, ← hr] at hstuck
    have hdrop : (s.mem.slice c.base c.len).drop i = b :: rest := by
      rw [hbytes, List.drop_left' (by omega)]
    have hexec' := hrest i
    rw [hdrop, hcap, decodeChunk_of_stuck rest hstuck] at hexec'
    exact ⟨_, _, hexec', hagain _, rfl, rfl⟩

end Machine

end Sys2Proof
end

section
/-! SUPPORT and PROOFS. DECODE_ALL gives the host what the bytes alone say, whatever the capacity (43_host_protocol R134), and
so damaged frames are discarded (R137). -/

namespace Sys2Proof.Machine

/-! ## What the host makes of a stream of bytes -/

/-- Take up decoded bytes, unless the frame in progress is to be discarded (43_host_protocol R134). -/
def HostStream.gather (piece : List Byte) (h : HostStream) : HostStream :=
  if h.discard then h else { h with frame := h.frame ++ piece }

/-- The frame in progress ends: deliver what was gathered, unless it is to be discarded (43_host_protocol R134). -/
def HostStream.complete (h : HostStream) : HostStream :=
  { (if h.discard then h else h.deliver h.frame) with frame := [], discard := false }

/-- The frame in progress is to be discarded, what was gathered included (43_host_protocol R137). -/
def HostStream.abandon (h : HostStream) : HostStream := { h with frame := [], discard := true }

/-- What a wire byte does to the host's stream in Idle (30_encoding R57). -/
def idleByte (h : HostStream) (b : Byte) : Bool × HostStream :=
  if b = END then (false, h.complete)
  else if b = ESC then (true, h)
  else (false, h.gather [b])

/-- What a wire byte does to `esc` and the host's stream; a bad second byte is looked at again in Idle unless it is consumed
(30_encoding R57, 41_decoder R99, 43_host_protocol R137). -/
def hostByte (xbadConsumes : Bool) (st : Bool × HostStream) (b : Byte) : Bool × HostStream :=
  if st.1 then
    if b = ESC_END then (false, st.2.gather [END])
    else if b = ESC_ESC then (false, st.2.gather [ESC])
    else if xbadConsumes then (false, st.2.abandon)
    else idleByte st.2.abandon b
  else idleByte st.2 b

/-- What the bytes of a stream do to `esc` and the host's stream, one after another. -/
def received (xbadConsumes : Bool) (st : Bool × HostStream) (bytes : List Byte) : Bool × HostStream :=
  bytes.foldl (hostByte xbadConsumes) st

@[simp] theorem HostStream.gather_nil (h : HostStream) : h.gather [] = h := by
  unfold gather
  split <;> simp

theorem HostStream.gather_gather (h : HostStream) (v w : List Byte) : (h.gather v).gather w = h.gather (v ++ w) := by
  cases hd : h.discard <;> simp [gather, hd]

@[simp] theorem HostStream.gather_abandon (h : HostStream) (v : List Byte) : h.abandon.gather v = h.abandon := rfl

@[simp] theorem HostStream.abandon_gather (h : HostStream) (v : List Byte) : (h.gather v).abandon = h.abandon := by
  unfold gather
  split <;> rfl

@[simp] theorem HostStream.abandon_abandon (h : HostStream) : h.abandon.abandon = h.abandon := rfl

/-- What the host does with a completed frame's last piece (43_host_protocol R134). -/
theorem HostStream.take_frameComplete (h : HostStream) (i n : Nat) (v : List Byte) :
    h.take (.frameComplete i n) v = (h.gather v).complete := by
  cases hd : h.discard with
  | true => simp [take, complete, gather, hd]
  | false =>
    simp only [take, complete, gather, deliver, hd, Bool.false_eq_true, if_false]
    split <;> rfl

/-- A byte after which decoding goes on gives the host what it writes. -/
theorem hostByte_of_nextByte (x : Bool) {esc e : Bool} {b : Byte} {w : Option Byte} (h : HostStream)
    (hrow : dstep esc b false = ⟨e, w, true, .nextByte⟩) : hostByte x (esc, h) b = (e, h.gather w.toList) := by
  induction esc, b using wireByte_cases with
  | hend => simp at hrow
  | hesc =>
    obtain ⟨rfl, rfl⟩ : true = e ∧ none = w := by simpa using hrow
    simp [hostByte, idleByte]
  | hlit b h1 h2 =>
    obtain ⟨rfl, rfl⟩ : false = e ∧ some b = w := by simpa [dstep_lit h1 h2] using hrow
    simp [hostByte, idleByte, h1, h2]
  | hxend =>
    obtain ⟨rfl, rfl⟩ : false = e ∧ some END = w := by simpa using hrow
    simp [hostByte]
  | hxesc =>
    obtain ⟨rfl, rfl⟩ : false = e ∧ some ESC = w := by simpa using hrow
    simp [hostByte]
  | hxbad b h1 h2 => simp [dstep_xbad false h1 h2] at hrow

theorem hostByte_end (x : Bool) (h : HostStream) : hostByte x (false, h) END = (false, h.complete) := rfl

theorem hostByte_esc (x : Bool) (h : HostStream) : hostByte x (false, h) ESC = (true, h) := rfl

/-- A bad second byte that is consumed ends the escape (41_decoder R99). -/
theorem hostByte_bad_of_consumed {b : Byte} (h : HostStream) (hb : isBadSecond b = true) :
    hostByte true (true, h) b = (false, h.abandon) := by
  obtain ⟨h1, h2⟩ := isBadSecond_iff.mp hb
  simp [hostByte, h1, h2]

/-- A bad second byte that is not consumed is the next byte in Idle (41_decoder R99). -/
theorem hostByte_bad_of_kept {b : Byte} (h : HostStream) (hb : isBadSecond b = true) :
    hostByte false (true, h) b = hostByte false (false, h.abandon) b := by
  obtain ⟨h1, h2⟩ := isBadSecond_iff.mp hb
  simp [hostByte, h1, h2]

theorem received_append (x : Bool) (st : Bool × HostStream) (v w : List Byte) :
    received x st (v ++ w) = received x (received x st v) w := List.foldl_append

theorem received_cons (x : Bool) (st : Bool × HostStream) (b : Byte) (w : List Byte) :
    received x st (b :: w) = received x (hostByte x st b) w := rfl

/-! ## DECODE_ALL -/

/-- Decoding consumes a first part of its bytes, and with its result taken the rest does to the host's stream what all of
them do. -/
theorem received_decodeFrom {x esc : Bool} {cap di : Nat} {out bytes : List Byte} (h : HostStream) :
    ∃ pre post, bytes = pre ++ post ∧
      (decodeFrom x cap esc di out bytes).result.consumed = di + pre.length ∧
      received x (esc, h.gather out) bytes = received x ((decodeFrom x cap esc di out bytes).esc,
        h.take (decodeFrom x cap esc di out bytes).result (decodeFrom x cap esc di out bytes).out) post := by
  induction bytes generalizing esc di out with
  | nil => exact ⟨[], [], rfl, rfl, rfl⟩
  | cons b rest ih =>
    rcases decodeFrom_cons_cases x cap esc di out b rest with ⟨e, w, hrow, hgo⟩ | ⟨rfl, rfl, hend⟩ | ⟨-, -, hend⟩ |
      ⟨rfl, hb, hend⟩
    · rw [hgo]
      obtain ⟨pre, post, rfl, hconsumed, hpost⟩ := ih (esc := e) (di := di + 1) (out := out ++ w.toList)
      refine ⟨b :: pre, post, rfl, by rw [hconsumed, List.length_cons]; omega, ?_⟩
      rw [received_cons, hostByte_of_nextByte x _ hrow, HostStream.gather_gather, hpost]
    · rw [hend]
      refine ⟨[END], rest, rfl, rfl, ?_⟩
      rw [received_cons, hostByte_end, HostStream.take_frameComplete]
    · rw [hend]
      exact ⟨[], b :: rest, rfl, rfl, rfl⟩
    · rw [hend]
      cases x with
      | true =>
        refine ⟨[b], rest, rfl, rfl, ?_⟩
        rw [received_cons, hostByte_bad_of_consumed _ hb, HostStream.abandon_gather]
        rfl
      | false =>
        refine ⟨[], b :: rest, rfl, rfl, ?_⟩
        rw [received_cons, hostByte_bad_of_kept _ hb, HostStream.abandon_gather]
        rfl

/-- What a DECODE wrote is read back from its output. -/
theorem slice_out_afterDecode {k : Nat} {o : Buffer} {r : Decoded} {s : State} (hm : s.mem.wf = true)
    (hcount : r.result.count = r.out.length) : (afterDecode k o r s).mem.slice o.base r.result.count = r.out :=
  Memory.slice_fill_of_length _ hm hcount.symm

/-- The count of a DECODE's result is the number of bytes it wrote (10_state R19). -/
theorem decodeChunk_count (x : Bool) (cap : Nat) (esc : Bool) (bytes : List Byte) :
    (decodeChunk x cap esc bytes).result.count = (decodeChunk x cap esc bytes).out.length := by
  obtain ⟨hcount, -⟩ := decodeFrom_count (x := x) (esc := esc) (di := 0) (out := []) (bytes := bytes) (Nat.zero_le cap)
  exact hcount

/-- An iteration of DECODE_ALL's loop with bytes left (43_host_protocol R134). -/
theorem decodeAllLoop_succ {k n : Nat} {c o : Buffer} {d : Decoder} {s : State} {r : Decoded} (h : HostStream)
    (hallowed : DecodeAllowed k c o d s) (hm : s.mem.wf = true) (hlen : c.len ≠ 0)
    (hr : r = decodeChunk s.params.xbadConsumes o.len d.esc (s.mem.slice c.base c.len)) :
    decodeAllLoop k o (n + 1) c s h =
      decodeAllLoop k o n (c.drop r.result.consumed) (afterDecode k o r s) (h.take r.result r.out) := by
  have hexec : exec (.decode k c o) s = .next (afterDecode k o r s) := hr ▸ exec_decode_of_allowed hallowed
  have hd : (afterDecode k o r s).decs[k]? = some (decIdle s.draws r.esc r.result) :=
    putDec_decs_self _ hallowed.getElem?_decs
  have hcount : r.result.count = r.out.length := hr ▸ decodeChunk_count _ _ _ _
  simp only [decodeAllLoop, if_neg hlen, hexec, hd, decIdle_result, slice_out_afterDecode hm hcount]
  rfl

/-- DECODE_ALL's loop ends within `n` iterations, and leaves this `esc` and this stream. -/
def LoopLeaves (k : Nat) (o : Buffer) (n : Nat) (c : Buffer) (s : State) (h : HostStream) (st : Bool × HostStream) : Prop :=
  ∃ t d', decodeAllLoop k o n c s h = .next (t, st.2) ∧ t.decs[k]? = some d' ∧ d'.esc = st.1

theorem loopLeaves_of_empty {k n : Nat} {c o : Buffer} {d : Decoder} {s : State} (h : HostStream)
    (hd : s.decs[k]? = some d) (hlen : c.len = 0) :
    LoopLeaves k o n c s h (received s.params.xbadConsumes (d.esc, h) (s.mem.slice c.base c.len)) := by
  rw [hlen]
  exact ⟨s, d, by cases n <;> simp [decodeAllLoop, hlen, received], hd, rfl⟩

/-- An iteration of DECODE_ALL's loop consumes a byte or closes an escape (41_decoder R109). -/
theorem decodeChunk_decreases {x esc : Bool} {cap : Nat} {bytes : List Byte} (hne : bytes ≠ []) (hcap : 1 ≤ cap) :
    2 * (bytes.length - (decodeChunk x cap esc bytes).result.consumed) + (decodeChunk x cap esc bytes).esc.toNat <
      2 * bytes.length + esc.toNat := by
  have hpos : 0 < bytes.length := List.length_pos_iff.mpr hne
  rcases decodeChunk_progress x cap esc hne with hp | ⟨rfl, n, hp⟩ | ⟨hzero, -⟩
  · have hesc := Bool.toNat_le (decodeChunk x cap esc bytes).esc
    omega
  · have hesc : (decodeChunk x cap true bytes).esc = false := decodeFrom_esc_of_ends (.inr ⟨0, n, hp⟩)
    rw [hp, hesc]
    exact Nat.lt_succ_self _
  · omega

/-- DECODE_ALL's loop ends after at most two iterations for each byte, and leaves what the bytes make of `esc` and the host's
stream, whatever the capacity (43_host_protocol R134, 41_decoder R109). -/
theorem loopLeaves_received {k n : Nat} {c o : Buffer} {d : Decoder} {s : State} (h : HostStream)
    (hallowed : DecodeAllowed k c o d s) (hm : s.mem.wf = true) (hcap : 1 ≤ o.len)
    (hn : 2 * c.len + d.esc.toNat ≤ n + 1) :
    LoopLeaves k o n c s h (received s.params.xbadConsumes (d.esc, h) (s.mem.slice c.base c.len)) := by
  induction n generalizing c d s h with
  | zero => exact loopLeaves_of_empty h hallowed.getElem?_decs (by omega)
  | succ n ih =>
    rcases Nat.eq_zero_or_pos c.len with hlen | hlen
    · exact loopLeaves_of_empty h hallowed.getElem?_decs hlen
    obtain ⟨bytes, hbytes⟩ : ∃ bytes, s.mem.slice c.base c.len = bytes := ⟨_, rfl⟩
    obtain ⟨r, hr⟩ : ∃ r, decodeChunk s.params.xbadConsumes o.len d.esc bytes = r := ⟨_, rfl⟩
    have hlength : bytes.length = c.len := hbytes ▸ Memory.length_slice _ _ _
    have hout : r.out.length ≤ o.len := hr ▸ length_decodeChunk_out_le _ _ _ _
    have hless : 2 * (bytes.length - r.result.consumed) + r.esc.toNat < 2 * bytes.length + d.esc.toNat :=
      hr ▸ decodeChunk_decreases (List.ne_nil_of_length_pos (hlength ▸ hlen)) hcap
    obtain ⟨pre, post, hsplit, hconsumed, hpost⟩ := received_decodeFrom (x := s.params.xbadConsumes)
      (esc := d.esc) (cap := o.len) (di := 0) (out := []) (bytes := bytes) h
    rw [← decodeChunk, hr, Nat.zero_add] at hconsumed
    rw [← decodeChunk, hr, HostStream.gather_nil] at hpost
    have hrest : (afterDecode k o r s).mem.slice (c.drop r.result.consumed).base (c.drop r.result.consumed).len = post := by
      rw [slice_drop_afterDecode _ hallowed.windows_apart hout, hbytes, hsplit, hconsumed, List.drop_left]
    have hgoes := ih (h.take r.result r.out) ((hallowed.drop r.result.consumed).afterDecode o r) (Memory.wf_fill _ _ hm)
      (by simp only [Buffer.drop, decIdle_esc]; omega)
    rw [hrest] at hgoes
    rw [hbytes, hpost, LoopLeaves, decodeAllLoop_succ h hallowed hm hlen.ne' (hbytes ▸ hr.symm)]
    exact hgoes

/-- DECODE_ALL on a chunk, whatever the capacity (43_host_protocol R134). -/
theorem decodeAll_eq_received {k : Nat} {c o : Buffer} {d : Decoder} {s : State} {h h' : HostStream} {esc : Bool}
    (hallowed : DecodeAllowed k c o d s) (hm : s.mem.wf = true) (hcap : 1 ≤ o.len)
    (hreceived : received s.params.xbadConsumes (d.esc, h) (s.mem.slice c.base c.len) = (esc, h')) :
    ∃ t d', decodeAll k c o s h = .next (t, h') ∧ t.decs[k]? = some d' ∧ d'.esc = esc := by
  have hesc := Bool.toNat_le d.esc
  have hloop := loopLeaves_received (n := 2 * c.len) h hallowed hm hcap (by omega)
  rwa [hreceived] at hloop

/-! ## Frames, whole and damaged -/

/-- From Idle, the symbol of a payload byte gives the host the byte (40_encoder R78). -/
theorem received_stuff (x : Bool) (h : HostStream) (b : Byte) : received x (false, h) (stuff b) = (false, h.gather [b]) := by
  induction b using payloadByte_cases with
  | hend => rfl
  | hesc => rfl
  | hlit b hb =>
    obtain ⟨hend, hesc⟩ := isPlain_iff.mp hb
    rw [stuff_plain hend hesc, received_cons, hostByte_of_nextByte x h (dstep_lit hend hesc)]
    rfl

theorem received_flatMap_stuff (x : Bool) (h : HostStream) (p : List Byte) :
    received x (false, h) (p.flatMap stuff) = (false, h.gather p) := by
  induction p generalizing h with
  | nil => simp [received]
  | cons b p ih =>
    rw [List.flatMap_cons, received_append, received_stuff, ih, HostStream.gather_gather, List.singleton_append]

theorem received_frame (x : Bool) (h : HostStream) (p : List Byte) :
    received x (false, h) (frame p) = (false, (h.gather p).complete) := by
  rw [frame, received_append, received_flatMap_stuff, received_cons, hostByte_end]
  rfl

/-- The host's stream between two frames: nothing is gathered (43_host_protocol R134). -/
def HostStream.atFrameStart (h : HostStream) : HostStream := { h with frame := [], discard := false }

/-- Deliver some payloads, but for empty ones if the host drops these (43_host_protocol R138). -/
def HostStream.deliverAll (h : HostStream) (ps : List (List Byte)) : HostStream :=
  { h with delivered := h.delivered ++ h.kept ps }

theorem HostStream.deliverAll_nil (h : HostStream) : h.deliverAll [] = h := by
  simp [deliverAll, kept]

theorem HostStream.deliverAll_cons (h : HostStream) (p : List Byte) (ps : List (List Byte)) :
    h.deliverAll (p :: ps) = (h.deliverAll [p]).deliverAll ps := by
  cases hdrop : h.dropEmpty with
  | false => simp [deliverAll, kept, hdrop]
  | true => simp [deliverAll, kept, hdrop, ← List.filter_append]

theorem HostStream.deliver_eq_deliverAll (h : HostStream) (p : List Byte) : h.deliver p = h.deliverAll [p] := by
  obtain ⟨gathered, discard, delivered, dropEmpty⟩ := h
  cases dropEmpty with
  | false => rfl
  | true => cases p <;> simp [deliver, deliverAll, kept]

/-- A frame received whole is delivered (43_host_protocol R134). -/
theorem HostStream.complete_gather_atFrameStart (h : HostStream) (p : List Byte) :
    (h.atFrameStart.gather p).complete = (h.deliverAll [p]).atFrameStart := by
  have hgather : h.atFrameStart.gather p = { h with frame := p, discard := false } := rfl
  rw [hgather, complete, HostStream.deliver_eq_deliverAll]
  rfl

/-- Frames received whole are delivered one after another (43_host_protocol R134). -/
theorem received_frames (x : Bool) (h : HostStream) (ps : List (List Byte)) :
    received x (false, h.atFrameStart) (ps.flatMap frame) = (false, (h.deliverAll ps).atFrameStart) := by
  induction ps generalizing h with
  | nil => rw [HostStream.deliverAll_nil]; rfl
  | cons p ps ih =>
    rw [List.flatMap_cons, received_append, received_frame, HostStream.complete_gather_atFrameStart, ih,
      ← HostStream.deliverAll_cons]

/-- Where the first bytes of a chunk leave the host at the start of a frame, DECODE_ALL delivers the frames after them
(43_host_protocol R134). -/
theorem decodeAll_delivers {k : Nat} {c o : Buffer} {d : Decoder} {s : State} {h : HostStream} {wire : List Byte}
    (ps : List (List Byte)) (hallowed : DecodeAllowed k c o d s) (hm : s.mem.wf = true) (hcap : 1 ≤ o.len)
    (hchunk : s.mem.slice c.base c.len = wire ++ ps.flatMap frame)
    (hwire : received s.params.xbadConsumes (d.esc, h) wire = (false, h.atFrameStart)) :
    ∃ t h' d', decodeAll k c o s h = .next (t, h') ∧ h'.delivered = h.delivered ++ h.kept ps ∧ h'.frame = [] ∧
      h'.discard = false ∧ t.decs[k]? = some d' ∧ d'.esc = false := by
  obtain ⟨t, d', hall, hd', hesc⟩ := decodeAll_eq_received (h := h) (h' := (h.deliverAll ps).atFrameStart)
    (esc := false) hallowed hm hcap (by rw [hchunk, received_append, hwire, received_frames])
  exact ⟨t, _, d', hall, rfl, rfl, rfl, hd', hesc⟩

/-- What is left of a damaged frame is dropped up to its END (43_host_protocol R137). -/
theorem received_frame_of_abandoned (x : Bool) (h : HostStream) (p : List Byte) :
    received x (false, h.abandon) (frame p) = (false, h.atFrameStart) := by
  rw [received_frame, HostStream.gather_abandon]
  rfl

/-- A bad second byte that is not consumed leaves the host to receive it in Idle, the frame in progress abandoned. -/
theorem received_of_beginsBad {h : HostStream} {wire : List Byte} (hbad : beginsBad wire = true) :
    received false (true, h) wire = received false (false, h.abandon) wire := by
  cases wire with
  | nil => cases hbad
  | cons b rest => rw [received_cons, received_cons, hostByte_bad_of_kept h hbad]

/-- Once abandoned, a damaged frame is dropped up to its END, however many bad escapes follow (43_host_protocol R137). -/
theorem received_damagedFrame_of_abandoned {h : HostStream} {qs : List (List Byte)} {r : List Byte}
    (hbad : escapesAreBad qs r = true) :
    received false (false, h.abandon) (damagedFrame qs r) = (false, h.atFrameStart) := by
  induction qs with
  | nil => exact received_frame_of_abandoned false h r
  | cons q qs ih =>
    obtain ⟨hbegins, hmore⟩ : beginsBad (damagedFrame qs r) = true ∧ escapesAreBad qs r = true := by
      simpa [escapesAreBad] using hbad
    rw [damagedFrame, received_append, received_flatMap_stuff, HostStream.gather_abandon, received_cons, hostByte_esc,
      received_of_beginsBad hbegins, HostStream.abandon_abandon, ih hmore]

/-- A frame with bad escapes, not consumed, leaves the host at the start of the next frame (43_host_protocol R137). -/
theorem received_damagedFrame {h : HostStream} {esc : Bool} {qs : List (List Byte)} {r : List Byte}
    (hbad : escapesAreBad qs r = true)
    (hstart : (esc = false ∧ qs ≠ []) ∨ (esc = true ∧ beginsBad (damagedFrame qs r) = true)) :
    received false (esc, h) (damagedFrame qs r) = (false, h.atFrameStart) := by
  rcases hstart with ⟨rfl, hne⟩ | ⟨rfl, hbegins⟩
  · obtain ⟨q, qs, rfl⟩ := List.exists_cons_of_ne_nil hne
    obtain ⟨hbegins, hmore⟩ : beginsBad (damagedFrame qs r) = true ∧ escapesAreBad qs r = true := by
      simpa [escapesAreBad] using hbad
    rw [damagedFrame, received_append, received_flatMap_stuff, received_cons, hostByte_esc,
      received_of_beginsBad hbegins, HostStream.abandon_gather, received_damagedFrame_of_abandoned hmore]
  · rw [received_of_beginsBad hbegins, received_damagedFrame_of_abandoned hbad]

/-- A bad second byte that is no marker abandons the frame, consumed or not (43_host_protocol R137). -/
theorem hostByte_bad_of_plain (x : Bool) {b : Byte} (h : HostStream) (hplain : isPlain b = true)
    (hbad : isBadSecond b = true) : hostByte x (true, h) b = (false, h.abandon) := by
  obtain ⟨hend, hesc⟩ := isPlain_iff.mp hplain
  cases x with
  | true => exact hostByte_bad_of_consumed h hbad
  | false =>
    rw [hostByte_bad_of_kept h hbad, hostByte_of_nextByte false h.abandon (dstep_lit hend hesc),
      HostStream.gather_abandon]

/-- Settles O59: up to its END the damaged frame leaves the host at the start of a frame. -/
theorem damagedFrameIsDiscarded : Obligations.DamagedFrameIsDiscarded := by
  refine ⟨fun s k d c o q r x ps h hm hallowed hcap hesc hplain hbad hchunk => ?_,
    fun s k d c o qs r ps h hm hallowed hcap hx hbad hstart hchunk => ?_⟩
  · refine decodeAll_delivers ps hallowed hm hcap hchunk ?_
    rw [hesc, received_append, received_append, received_flatMap_stuff, received_cons, hostByte_esc, received_cons,
      hostByte_bad_of_plain _ _ hplain hbad, HostStream.abandon_gather]
    exact received_frame_of_abandoned _ h r
  · refine decodeAll_delivers ps hallowed hm hcap hchunk ?_
    rw [hx]
    exact received_damagedFrame hbad hstart

end Sys2Proof.Machine
end

section
/-! SUPPORT and PROOFS. Decoding in chunks agrees with decoding in one call (41_decoder R104). -/

namespace Sys2Proof.Machine

/-! ## Bytes that decode without END or error -/

/-- From `esc`, the bytes `wire` decode, given room, to `out` and leave `esc'`, with no END among them that ends a frame and no
error (41_decoder R103, R104). -/
inductive Unstuffs : Bool → List Byte → List Byte → Bool → Prop
  | nil (esc : Bool) : Unstuffs esc [] [] esc
  | cons {esc e esc' : Bool} {b : Byte} {w : Option Byte} {wire out : List Byte}
      (hrow : dstep esc b false = ⟨e, w, true, .nextByte⟩) (h : Unstuffs e wire out esc') :
      Unstuffs esc (b :: wire) (w.toList ++ out) esc'

theorem Unstuffs.split {esc esc' : Bool} {v w out : List Byte} (h : Unstuffs esc (v ++ w) out esc') :
    ∃ e out1 out2, out = out1 ++ out2 ∧ Unstuffs esc v out1 e ∧ Unstuffs e w out2 esc' := by
  induction v generalizing esc out with
  | nil => exact ⟨esc, [], out, rfl, .nil esc, h⟩
  | cons b v ih =>
    cases h with
    | cons hrow h =>
      obtain ⟨e, out1, out2, rfl, h1, h2⟩ := ih h
      exact ⟨e, _, out2, (List.append_assoc _ out1 out2).symm, .cons hrow h1, h2⟩

/-- Such bytes decode to what follows them, unless the DECODE runs out of capacity. -/
theorem Unstuffs.decodeFrom_append {x esc esc' : Bool} {cap di : Nat} {wire vs out : List Byte}
    (h : Unstuffs esc wire vs esc') (rest : List Byte)
    (hcap : ∀ i n, (decodeFrom x cap esc di out (wire ++ rest)).result ≠ .err .capacityExceeded i n) :
    decodeFrom x cap esc di out (wire ++ rest) = decodeFrom x cap esc' (di + wire.length) (out ++ vs) rest := by
  induction h generalizing di out with
  | nil esc => simp
  | @cons esc e esc' b w wire vs hrow h ih =>
    rw [List.cons_append] at hcap ⊢
    rcases decodeFrom_cons_cases x cap esc di out b (wire ++ rest) with ⟨e', w', hrow', hgo⟩ | ⟨rfl, rfl, -⟩ |
      ⟨-, -, hend⟩ | ⟨rfl, hb, -⟩
    · obtain ⟨rfl, rfl⟩ : e = e' ∧ w = w' := by simpa [hrow] using hrow'
      rw [hgo] at hcap ⊢
      rw [ih hcap, List.append_assoc, List.length_cons, Nat.add_assoc, Nat.add_comm 1]
    · simp at hrow
    · exact absurd (congrArg Decoded.result hend) (hcap _ _)
    · obtain ⟨h1, h2⟩ := isBadSecond_iff.mp hb
      simp [dstep_xbad false h1 h2] at hrow

/-- What may follow such bytes in R104's sequence: nothing, or, in Idle, the END that completes the frame. -/
def EndsSequence (esc : Bool) (tail : List Byte) : Prop := tail = [] ∨ (tail = [END] ∧ esc = false)

/-- The result of a DECODE whose sequence ends with `tail`, with `di` bytes consumed and `n` written before it. -/
def endResult (tail : List Byte) (di n : Nat) : DecResult :=
  if tail = [] then .frameIncomplete di n else .frameComplete (di + 1) n

@[simp] theorem endResult_nil (di n : Nat) : endResult [] di n = .frameIncomplete di n := rfl

theorem EndsSequence.decodeFrom_eq {x esc : Bool} {cap di : Nat} {out tail : List Byte} (h : EndsSequence esc tail) :
    decodeFrom x cap esc di out tail = ⟨endResult tail di out.length, out, esc⟩ := by
  rcases h with rfl | ⟨rfl, rfl⟩
  · rfl
  · simp [decodeFrom, endResult]

/-- R104's sequence decodes to its bytes, unless the DECODE runs out of capacity. -/
theorem Unstuffs.decodeChunk_append {x esc esc' : Bool} {cap : Nat} {wire vs tail : List Byte}
    (h : Unstuffs esc wire vs esc') (htail : EndsSequence esc' tail)
    (hcap : ∀ i n, (decodeChunk x cap esc (wire ++ tail)).result ≠ .err .capacityExceeded i n) :
    decodeChunk x cap esc (wire ++ tail) = ⟨endResult tail wire.length vs.length, vs, esc'⟩ := by
  rw [decodeChunk, h.decodeFrom_append tail hcap, htail.decodeFrom_eq, Nat.zero_add, List.nil_append]

/-- A sequence decoded to its end without error is one of R104's (41_decoder R104). -/
theorem exists_unstuffs_of_decodeFrom {x esc : Bool} {cap di : Nat} {out bytes : List Byte}
    (hok : ∀ e i n, (decodeFrom x cap esc di out bytes).result ≠ .err e i n)
    (hall : (decodeFrom x cap esc di out bytes).result.consumed = di + bytes.length) :
    ∃ wire tail vs e, bytes = wire ++ tail ∧ Unstuffs esc wire vs e ∧ EndsSequence e tail := by
  induction bytes generalizing esc di out with
  | nil => exact ⟨[], [], [], esc, rfl, .nil esc, .inl rfl⟩
  | cons b rest ih =>
    rcases decodeFrom_cons_cases x cap esc di out b rest with ⟨e, w, hrow, hgo⟩ | ⟨rfl, rfl, hend⟩ | ⟨-, -, hend⟩ |
      ⟨-, -, hend⟩
    · rw [hgo] at hok hall
      obtain ⟨wire, tail, vs, e', rfl, hwire, htail⟩ := ih hok (by rw [hall, List.length_cons]; omega)
      exact ⟨b :: wire, tail, w.toList ++ vs, e', rfl, .cons hrow hwire, htail⟩
    · rw [hend] at hall
      simp only [DecResult.consumed, List.length_cons] at hall
      obtain rfl : rest = [] := List.eq_nil_of_length_eq_zero (by omega)
      exact ⟨[], [END], [], false, rfl, .nil false, .inr ⟨rfl, rfl⟩⟩
    · exact absurd (congrArg Decoded.result hend) (hok _ _ _)
    · exact absurd (congrArg Decoded.result hend) (hok _ _ _)

/-- A capacity of as many bytes as there are is enough (70 R174). -/
theorem decodeFrom_ne_capacityExceeded {x esc : Bool} {cap di : Nat} {out bytes : List Byte}
    (hroom : out.length + bytes.length ≤ cap) (i n : Nat) :
    (decodeFrom x cap esc di out bytes).result ≠ .err .capacityExceeded i n := by
  induction bytes generalizing esc di out with
  | nil => simp [decodeFrom]
  | cons b rest ih =>
    rw [List.length_cons] at hroom
    rcases decodeFrom_cons_cases x cap esc di out b rest with ⟨e, w, -, h⟩ | ⟨-, -, h⟩ | ⟨hfull, -, -⟩ | ⟨-, -, h⟩
    · have hw : w.toList.length ≤ 1 := by cases w <;> simp
      rw [h]
      exact ih (by rw [List.length_append]; omega)
    · simp [h]
    · omega
    · simp [h]

/-! ## Decoding piece after piece -/

/-- What decoding pieces of a stream one after another gives, each with a capacity of its own (41_decoder R104). -/
def decodeChunks (xbadConsumes : Bool) : Bool → List (Nat × List Byte) → List Decoded
  | _, [] => []
  | esc, (cap, bytes) :: rest =>
    let r := decodeChunk xbadConsumes cap esc bytes
    r :: decodeChunks xbadConsumes r.esc rest

/-- The `esc` that decoding some pieces from `esc` has left. -/
def escAfter (esc : Bool) (rs : List Decoded) : Bool := rs.foldl (fun _ r => r.esc) esc

theorem decodeChunks_append (x esc : Bool) (ps qs : List (Nat × List Byte)) :
    decodeChunks x esc (ps ++ qs) = decodeChunks x esc ps ++ decodeChunks x (escAfter esc (decodeChunks x esc ps)) qs := by
  induction ps generalizing esc with
  | nil => rfl
  | cons p ps ih =>
    rw [List.cons_append, decodeChunks, decodeChunks, ih]
    rfl

theorem length_decodeChunks (x esc : Bool) (ps : List (Nat × List Byte)) :
    (decodeChunks x esc ps).length = ps.length := by
  induction ps generalizing esc with
  | nil => rfl
  | cons p ps ih => rw [decodeChunks, List.length_cons, ih, List.length_cons]

/-- No piece runs out of its capacity. -/
def NoneRunsOut (rs : List Decoded) : Prop := ∀ r ∈ rs, ∀ i n, r.result ≠ .err .capacityExceeded i n

theorem noneRunsOut_of_room {x esc : Bool} {ps : List (Nat × List Byte)} (h : ∀ p ∈ ps, p.2.length ≤ p.1) :
    NoneRunsOut (decodeChunks x esc ps) := by
  induction ps generalizing esc with
  | nil => simp [NoneRunsOut, decodeChunks]
  | cons p ps ih =>
    obtain ⟨hp, hps⟩ := List.forall_mem_cons.mp h
    exact List.forall_mem_cons.mpr ⟨fun i n => decodeFrom_ne_capacityExceeded (by simpa using hp) i n, ih hps⟩

/-- Pieces of a sequence without END and error each end as incomplete, all consumed, and give its bytes together
(41_decoder R104). -/
theorem decodeChunks_of_unstuffs {x esc esc' : Bool} {ps : List (Nat × List Byte)} {vs : List Byte}
    (h : Unstuffs esc (ps.flatMap Prod.snd) vs esc') (hcap : NoneRunsOut (decodeChunks x esc ps)) :
    (decodeChunks x esc ps).flatMap Decoded.out = vs ∧ escAfter esc (decodeChunks x esc ps) = esc' ∧
      ∀ (i : Nat) (r : Decoded) (p : Nat × List Byte), (decodeChunks x esc ps)[i]? = some r → ps[i]? = some p →
        ∃ n, r.result = .frameIncomplete p.2.length n := by
  induction ps generalizing esc vs with
  | nil =>
    cases h
    exact ⟨rfl, rfl, fun i r p hr => nomatch hr⟩
  | cons p ps ih =>
    rw [List.flatMap_cons] at h
    obtain ⟨e, v, vs, rfl, hp, hps⟩ := h.split
    obtain ⟨hcap, hcaps⟩ := List.forall_mem_cons.mp hcap
    have hfirst : decodeChunk x p.1 esc p.2 = ⟨.frameIncomplete p.2.length v.length, v, e⟩ := by
      simpa using hp.decodeChunk_append (.inl rfl) (by simpa using hcap)
    simp only [hfirst] at hcaps
    obtain ⟨hout, hesc, hresults⟩ := ih hps hcaps
    simp only [decodeChunks, hfirst]
    refine ⟨congrArg (v ++ ·) hout, hesc, fun i r q hr hq => ?_⟩
    cases i with
    | zero =>
      obtain rfl := Option.some.inj hr
      obtain rfl := Option.some.inj hq
      exact ⟨v.length, rfl⟩
    | succ i => exact hresults i r q hr hq

/-- The capacity and the bytes of a piece. -/
def pieceOf (m : Memory) (q : Buffer × Buffer) : Nat × List Byte := (q.2.len, m.slice q.1.base q.1.len)

/-- Pieces decoded on one instance are decoded as their bytes and capacities say, if no output lies in a chunk. -/
theorem decodePieces_eq_decodeChunks {k : Nat} {d : Decoder} {s : State} {qs : List (Buffer × Buffer)}
    (hm : s.mem.wf = true) (hd : s.decs[k]? = some d) (hallowed : ∀ q ∈ qs, DecodeAllowed k q.1 q.2 d s)
    (hap : ∀ q ∈ qs, ∀ q' ∈ qs, q.1.sharesByte q'.2 = false) :
    ∃ rs u du, rs = decodeChunks s.params.xbadConsumes d.esc (qs.map (pieceOf s.mem)) ∧
      decodePieces k qs s = some (rs.map Decoded.result, rs.flatMap Decoded.out, u) ∧
      u.decs[k]? = some du ∧ du.esc = escAfter d.esc rs := by
  induction qs generalizing d s with
  | nil => exact ⟨[], s, d, rfl, rfl, hd, rfl⟩
  | cons q qs ih =>
    obtain ⟨r, hr⟩ : ∃ r, r = decodeChunk s.params.xbadConsumes q.2.len d.esc (s.mem.slice q.1.base q.1.len) := ⟨_, rfl⟩
    have hout : r.out.length ≤ q.2.len := hr ▸ length_decodeChunk_out_le _ _ _ _
    have hcount : r.result.count = r.out.length := hr ▸ decodeChunk_count _ _ _ _
    obtain ⟨hq, hqs⟩ := List.forall_mem_cons.mp hallowed
    have hexec : exec (.decode k q.1 q.2) s = .next (afterDecode k q.2 r s) := hr ▸ exec_decode_of_allowed hq
    have hd' : (afterDecode k q.2 r s).decs[k]? = some (decIdle s.draws r.esc r.result) := putDec_decs_self _ hd
    have hpieces : qs.map (pieceOf (afterDecode k q.2 r s).mem) = qs.map (pieceOf s.mem) :=
      List.map_congr_left fun q' hq' => Prod.ext rfl
        (slice_afterDecode (hap q' (List.mem_cons_of_mem q hq') q List.mem_cons_self) hout)
    obtain ⟨rs, u, du, hrs, hrest, hdu, hesc⟩ := ih (s := afterDecode k q.2 r s) (Memory.wf_fill _ _ hm) hd'
      (fun q' hq' => (hqs q' hq').afterDecode q.2 r)
      (fun q' hq' q'' hq'' => hap q' (List.mem_cons_of_mem q hq') q'' (List.mem_cons_of_mem q hq''))
    rw [hpieces] at hrs
    refine ⟨r :: rs, u, du, ?_, ?_, hdu, hesc⟩
    · rw [List.map_cons, decodeChunks, hrs, hr]
      rfl
    · simp only [decodePieces, hexec, hd', hrest, decIdle_result, slice_out_afterDecode hm hcount]
      rfl

/-- In a sequence cut in two, the second part not empty, the end is in the second part. -/
theorem EndsSequence.split {esc : Bool} {tail v w wire : List Byte} (htail : EndsSequence esc tail) (hne : w ≠ [])
    (h : v ++ w = wire ++ tail) : ∃ w', w = w' ++ tail ∧ wire = v ++ w' := by
  rcases htail with rfl | ⟨rfl, -⟩
  · exact ⟨w, (List.append_nil w).symm, by rw [h, List.append_nil]⟩
  · rw [← List.dropLast_append_getLast hne, ← List.append_assoc] at h
    obtain ⟨hwire, hlast⟩ := List.append_inj' h rfl
    exact ⟨w.dropLast, by rw [← hlast, List.dropLast_append_getLast], hwire.symm⟩

theorem EndsSequence.endResult_consumed {esc : Bool} {tail : List Byte} (h : EndsSequence esc tail) (di n : Nat) :
    (endResult tail di n).consumed = di + tail.length := by
  rcases h with rfl | ⟨rfl, -⟩ <;> rfl

theorem sameKind_endResult (tail : List Byte) (i n i' n' : Nat) :
    sameKind (endResult tail i n) (endResult tail i' n') = true := by
  unfold endResult
  split <;> rfl

/-- R104's sequence, cut into pieces the last of which is not empty: decoded piece after piece it gives the bytes, the `esc`
and the kind of result that it gives decoded at once (41_decoder R104). -/
theorem decodeChunks_agrees {x esc esc' : Bool} {wire tail vs w : List Byte} {ps : List (Nat × List Byte)} {cap : Nat}
    {rs : List Decoded} {r : Decoded} (h : Unstuffs esc wire vs esc') (htail : EndsSequence esc' tail) (hne : w ≠ [])
    (hsplit : ps.flatMap Prod.snd ++ w = wire ++ tail) (hrs : rs = decodeChunks x esc ps)
    (hr : r = decodeChunk x cap (escAfter esc rs) w) (hcap : NoneRunsOut (rs ++ [r])) :
    (rs ++ [r]).flatMap Decoded.out = vs ∧ r.esc = esc' ∧
      (∀ (i : Nat) (r : Decoded) (p : Nat × List Byte), rs[i]? = some r → ps[i]? = some p →
        ∃ n, r.result = .frameIncomplete p.2.length n) ∧
      ∃ di n, r.result = endResult tail di n ∧ di + tail.length = w.length := by
  obtain ⟨w', rfl, rfl⟩ := htail.split hne hsplit
  obtain ⟨e, v1, v2, rfl, hinit, hlast⟩ := h.split
  obtain ⟨hcaps, hcapLast⟩ := List.forall_mem_append.mp hcap
  rw [List.forall_mem_singleton] at hcapLast
  subst hrs
  obtain ⟨hout, hesc, hresults⟩ := decodeChunks_of_unstuffs hinit hcaps
  rw [hesc] at hr
  subst hr
  rw [hlast.decodeChunk_append htail hcapLast, List.flatMap_append, hout]
  exact ⟨by simp, rfl, hresults, w'.length, v2.length, rfl, (List.length_append).symm⟩

/-- A partition's pieces decoded on one instance: what the last one gives, and the others before it. -/
theorem decodePieces_of_partition {k : Nat} {d : Decoder} {s : State} {init : List (Buffer × Buffer)}
    {last : Buffer × Buffer} (hm : s.mem.wf = true) (hd : s.decs[k]? = some d)
    (hallowed : ∀ q ∈ init ++ [last], DecodeAllowed k q.1 q.2 d s)
    (hap : ∀ q ∈ init ++ [last], ∀ q' ∈ init ++ [last], q.1.sharesByte q'.2 = false) :
    ∃ rs r u du, rs = decodeChunks s.params.xbadConsumes d.esc (init.map (pieceOf s.mem)) ∧
      r = decodeChunk s.params.xbadConsumes last.2.len (escAfter d.esc rs) (s.mem.slice last.1.base last.1.len) ∧
      rs ++ [r] = decodeChunks s.params.xbadConsumes d.esc ((init ++ [last]).map (pieceOf s.mem)) ∧
      decodePieces k (init ++ [last]) s =
        some (rs.map Decoded.result ++ [r.result], (rs ++ [r]).flatMap Decoded.out, u) ∧
      u.decs[k]? = some du ∧ du.esc = r.esc := by
  obtain ⟨all, u, du, hall, hpieces, hdu, hesc⟩ := decodePieces_eq_decodeChunks hm hd hallowed hap
  obtain ⟨rs, hrs⟩ : ∃ rs, rs = decodeChunks s.params.xbadConsumes d.esc (init.map (pieceOf s.mem)) := ⟨_, rfl⟩
  obtain ⟨r, hr⟩ : ∃ r, r = decodeChunk s.params.xbadConsumes last.2.len (escAfter d.esc rs)
    (s.mem.slice last.1.base last.1.len) := ⟨_, rfl⟩
  obtain rfl : all = rs ++ [r] := by
    rw [hall, List.map_append, decodeChunks_append, hr, hrs]
    rfl
  refine ⟨rs, r, u, du, hrs, hr, hall, by rw [hpieces, List.map_append]; rfl, hdu, ?_⟩
  rw [hesc, escAfter, List.foldl_append]
  rfl

/-- Settles O37: the sequence decodes without END or error up to its end, which is in the last piece. -/
theorem incrementalDecodingAgrees : Obligations.IncrementalDecodingAgrees := by
  intro s t k d d' c o init last hm h hexec hd' hok hconsumed hallowed hap hlast hbytes
  obtain ⟨one, hone⟩ : ∃ r, r = decodeChunk s.params.xbadConsumes o.len d.esc (s.mem.slice c.base c.len) := ⟨_, rfl⟩
  obtain rfl : afterDecode k o one s = t :=
    Host.Outcome.next.inj ((hone ▸ exec_decode_of_allowed h).symm.trans hexec)
  obtain rfl : decIdle s.draws one.esc one.result = d' :=
    Option.some.inj ((putDec_decs_self _ h.getElem?_decs).symm.trans hd')
  rw [decIdle_result] at hok hconsumed ⊢
  have hcount : one.result.count = one.out.length := hone ▸ decodeChunk_count _ _ _ _
  obtain ⟨wire, tail, vs, e, hsplit, hwire, htail⟩ := exists_unstuffs_of_decodeFrom (hone ▸ hok)
    (by rw [← decodeChunk, ← hone, hconsumed, Memory.length_slice, Nat.zero_add])
  rw [hsplit] at hone hbytes
  have hone' : one = ⟨endResult tail wire.length vs.length, vs, e⟩ :=
    hone.trans (hwire.decodeChunk_append htail (hone ▸ hok .capacityExceeded))
  obtain ⟨rs, r, u, du, hrs, hr, hall, hpieces, hdu, hesc⟩ :=
    decodePieces_of_partition hm h.getElem?_decs hallowed hap
  refine ⟨rs.map Decoded.result, r.result, _, u, du, hpieces, hdu, ?_, fun hroom => ?_⟩
  · rw [List.length_map, hrs, length_decodeChunks, List.length_map]
  have hnone : NoneRunsOut (rs ++ [r]) := by
    rcases hroom with hroom | hroom
    · rw [hall]
      refine noneRunsOut_of_room (List.forall_mem_map.mpr fun q hq => ?_)
      simpa [pieceOf] using hroom q hq
    · rw [← List.map_singleton, ← List.map_append] at hroom
      exact fun x hx => hroom _ (List.mem_map_of_mem hx)
  have hcut : (init.map (pieceOf s.mem)).flatMap Prod.snd ++ s.mem.slice last.1.base last.1.len = wire ++ tail := by
    rw [← hbytes, List.flatMap_append, List.flatMap_singleton, List.flatMap_map]
    rfl
  obtain ⟨hout, hesc', hresults, di, n, hresult, hdi⟩ := decodeChunks_agrees hwire htail
    (List.ne_nil_of_length_pos (by rw [Memory.length_slice]; omega)) hcut hrs hr hnone
  rw [slice_out_afterDecode hm hcount, hone', hout, hesc, hesc', hresult]
  refine ⟨rfl, rfl, fun i x q hx hq => ?_, sameKind_endResult _ _ _ _ _, ?_⟩
  · rw [List.getElem?_map, Option.map_eq_some_iff] at hx
    obtain ⟨r', hr', rfl⟩ := hx
    obtain ⟨count, hcount'⟩ := hresults i r' (pieceOf s.mem q) hr' (by rw [List.getElem?_map, hq]; rfl)
    exact ⟨count, by rw [hcount', pieceOf, Memory.length_slice]⟩
  · rw [htail.endResult_consumed, hdi, Memory.length_slice]

end Sys2Proof.Machine
end

section
/-! PROOFS. DRESET (42_control R120). -/

namespace Sys2Proof.Machine

/-- Settles O42: DRESET is `resetInstance`, whose outcome turns on whether a DECODE of the instance runs. -/
theorem dresetClearsEscOnly : Obligations.DresetClearsEscOnly := fun _ _ _ hd =>
  ⟨resetInstance_of_idle hd, resetInstance_of_busy hd⟩

end Sys2Proof.Machine
end

section
/-! PROOFS. DECODE_ALL delivers every frame of a chunk of whole frames, with or without FLUSH (43_host_protocol R134 to R136,
R138). -/

namespace Sys2Proof.Machine

/-- The payloads a receiver sees of frames sent with FLUSH: before each one the empty payload that the END before its frame
completes (43_host_protocol R138). -/
def withFlushes (ps : List (List Byte)) : List (List Byte) := ps.flatMap fun p => [[], p]

/-- The END of a FLUSH is an empty payload's frame (43_host_protocol R138). -/
theorem flush_frame (p : List Byte) : flush (frame p) = [[], p].flatMap frame := by
  rw [List.flatMap_cons, List.flatMap_singleton]
  rfl

/-- A chunk of frames with FLUSH is a chunk of whole frames (43_host_protocol R138). -/
theorem flatMap_flush_frame (ps : List (List Byte)) :
    (ps.flatMap fun p => flush (frame p)) = (withFlushes ps).flatMap frame := by
  simp only [withFlushes, List.flatMap_assoc, ← flush_frame]

/-- A host that drops empty payloads keeps of frames sent with FLUSH what it keeps of those sent without
(43_host_protocol R138). -/
theorem HostStream.kept_withFlushes {h : HostStream} (hdrop : h.dropEmpty = true) (ps : List (List Byte)) :
    h.kept (withFlushes ps) = h.kept ps := by
  simp only [kept, hdrop, if_true]
  induction ps with
  | nil => rfl
  | cons p ps ih =>
    rw [withFlushes, List.flatMap_cons, ← withFlushes, List.filter_append, ih, List.filter_cons_of_neg (by simp),
      ← List.filter_append, List.singleton_append]

theorem HostStream.atFrameStart_eq_self {h : HostStream} (hframe : h.frame = []) (hdiscard : h.discard = false) :
    h.atFrameStart = h := by
  obtain ⟨gathered, discard, delivered, dropEmpty⟩ := h
  subst hframe hdiscard
  rfl

/-- Settles O58: nothing comes before the first frame, and with FLUSH each frame comes after one of an empty payload, which the
host drops. -/
theorem decodeAllDeliversEveryFrame : Obligations.DecodeAllDeliversEveryFrame := by
  intro s k d c o ps h hm hallowed hesc hcap hframe hdiscard hchunk
  have hstart : received s.params.xbadConsumes (d.esc, h) [] = (false, h.atFrameStart) := by
    rw [hesc, HostStream.atFrameStart_eq_self hframe hdiscard]
    rfl
  rcases hchunk with hplain | ⟨hdrop, hflush⟩
  · exact decodeAll_delivers ps hallowed hm hcap hplain hstart
  · rw [flatMap_flush_frame] at hflush
    rw [← HostStream.kept_withFlushes hdrop ps]
    exact decodeAll_delivers (withFlushes ps) hallowed hm hcap hflush hstart

end Sys2Proof.Machine
end

section
/-! PROOFS. With no host action pending the block has no stuck state (60_exceptions R164), and the numbers of a status port
tell the kinds of results apart (R158). -/

namespace Sys2Proof.Machine

/-! ## The step without a host action -/

/-- With no host action pending and no unit that moves next, the block waits (70 R172). -/
theorem step_of_no_nextEngine {s : State} (hh : s.host = []) (he : nextEngine s = none) : step s = .next s := by
  simp only [step, hh, he]

/-- Settles O9: the step is the turn of the unit that moves next, and every turn completes, or no unit moves next. -/
theorem stepWithoutHostCompletes : Obligations.StepWithoutHostCompletes := by
  intro s hh
  cases he : nextEngine s with
  | none => exact ⟨s, step_of_no_nextEngine hh he⟩
  | some e =>
    rw [step_of_nextEngine hh he]
    exact turn_completes e s

/-! ## The numbers of a status port -/

/-- The numbers of the kinds of DECODE results, FrameComplete's first (60_exceptions R158). -/
def decNumbers (c : Config.StatusEnc) : List Nat :=
  [c.frameComplete, c.frameIncomplete, c.capacityExceeded, c.invalidEscapeSequence]

/-- The place of a DECODE result's kind in that list. -/
def decKind : DecResult → Nat
  | .frameComplete _ _ => 0
  | .frameIncomplete _ _ => 1
  | .err .capacityExceeded _ _ => 2
  | .err .invalidEscapeSequence _ _ => 3

/-- What one-to-one means, in terms of the list (log 7). -/
theorem oneToOne_iff {c : Config.StatusEnc} :
    oneToOne c = true ↔ (decNumbers c).Nodup ∧ c.ok ∉ (decNumbers c).tail := by
  simp only [oneToOne, decNumbers, Bool.and_eq_true, decide_eq_true_iff, List.tail_cons]

theorem getElem?_decNumbers_decKind (c : Config.StatusEnc) (r : DecResult) :
    (decNumbers c)[decKind r]? = some (decStatus c r) := by
  rcases r with _ | _ | ⟨_ | _⟩ <;> rfl

theorem sameKind_of_decKind_eq : ∀ {r r' : DecResult}, decKind r = decKind r' → sameKind r r' = true
  | .frameComplete _ _, .frameComplete _ _, _ => rfl
  | .frameIncomplete _ _, .frameIncomplete _ _, _ => rfl
  | .err .capacityExceeded _ _, .err .capacityExceeded _ _, _ => rfl
  | .err .invalidEscapeSequence _ _, .err .invalidEscapeSequence _ _, _ => rfl

/-- In a list without repetition a number stands in one place only. -/
theorem sameKind_of_decStatus_eq {c : Config.StatusEnc} {r r' : DecResult} (hnodup : (decNumbers c).Nodup)
    (h : decStatus c r = decStatus c r') : sameKind r r' = true := by
  have hr := getElem?_decNumbers_decKind c r
  have hr' := getElem?_decNumbers_decKind c r'
  obtain ⟨hlt, -⟩ := List.getElem?_eq_some_iff.mp hr
  exact sameKind_of_decKind_eq ((List.getElem?_inj hlt hnodup).mp (by rw [hr, hr', h]))

theorem frameComplete_or_decStatus_mem_tail (c : Config.StatusEnc) (r : DecResult) :
    (∃ x y, r = .frameComplete x y) ∨ decStatus c r ∈ (decNumbers c).tail := by
  rcases r with ⟨x, y⟩ | _ | ⟨_ | _⟩
  · exact .inl ⟨x, y, rfl⟩
  all_goals exact .inr (by simp [decStatus, decNumbers])

/-- Settles O60: the numbers of DECODE results are a list without repetition, and `Ok`'s is none of those after its first. -/
theorem statusPortTellsResultsApart : Obligations.StatusPortTellsResultsApart := by
  intro c hone
  obtain ⟨hnodup, hok⟩ := oneToOne_iff.mp hone
  refine ⟨fun r r' => sameKind_of_decStatus_eq hnodup, fun n heq => hok ?_, fun n r heq => ?_⟩
  · have hcap : c.ok = c.capacityExceeded := heq
    simp [hcap, decNumbers]
  · refine (frameComplete_or_decStatus_mem_tail c r).resolve_right fun hmem => hok ?_
    exact (show c.ok = decStatus c r from heq) ▸ hmem

end Sys2Proof.Machine
end

section
/-! PROOFS. The idle block (70 R172), hardware reset (R170, R171), and what the host must not do with buffers (R175, R176). -/

namespace Sys2Proof.Machine

/-! ## The idle block -/

theorem allIdle_iff {s : State} : allIdle s = true ↔ s.enc.call = none ∧ ∀ d ∈ s.decs, d.call = none := by
  simp only [allIdle, Bool.and_eq_true, List.all_eq_true, Option.isNone_iff_eq_none]

theorem firstRunning_of_idle {ds : List Decoder} (n : Nat) (h : ∀ d ∈ ds, d.call = none) : firstRunning n ds = none := by
  induction ds generalizing n with
  | nil => rfl
  | cons d ds ih =>
    obtain ⟨hd, hds⟩ := List.forall_mem_cons.mp h
    simpa [firstRunning, hd] using ih (n + 1) hds

/-- Where no command is in progress, no unit moves next (log 6). -/
theorem nextEngine_of_allIdle {s : State} (h : allIdle s = true) : nextEngine s = none := by
  obtain ⟨henc, hdecs⟩ := allIdle_iff.mp h
  simp [nextEngine, henc, firstRunning_of_idle 0 hdecs]

/-- Settles O7: in an idle block no unit moves next, and then the step waits. -/
theorem idleBlockDoesNothing : Obligations.IdleBlockDoesNothing := fun _ hh hidle =>
  step_of_no_nextEngine hh (nextEngine_of_allIdle hidle)

/-! ## Hardware reset -/

@[simp] theorem length_freshDecs (n : Nat) (ds : List Decoder) : (freshDecs n ds).length = ds.length := by
  induction ds generalizing n with
  | nil => rfl
  | cons d ds ih => exact congrArg (· + 1) (ih (n + 1))

/-- Every instance after a hardware reset is as DNEW makes one (70 R171). -/
theorem exists_eq_decFresh_of_mem_freshDecs {n : Nat} {ds : List Decoder} {d : Decoder} (hd : d ∈ freshDecs n ds) :
    ∃ draw, d = decFresh draw := by
  induction ds generalizing n with
  | nil => cases hd
  | cons d0 ds ih =>
    rcases List.mem_cons.mp hd with rfl | hd
    · exact ⟨n, rfl⟩
    · exact ih hd

/-- Filling a window with any values leaves the bytes it does not hold alone (70 R171). -/
theorem scramble_read_of_not_holds (draw : Nat) (m : Memory) {w : Buffer} {a : Nat} (h : holds w a = false) :
    (scramble draw m w.base w.len).read a = m.read a := by
  refine scramble_read_of_outside draw m ?_
  simp only [holds, Bool.and_eq_false_iff, decide_eq_false_iff_not] at h
  omega

theorem abandonEnc_read (draw : Nat) {e : Encoder} (m : Memory) {a : Nat}
    (h : ∀ c, e.call = some c → holds c.encOut a = false) : (abandonEnc draw e m).read a = m.read a := by
  unfold abandonEnc
  split
  · rfl
  · next c hc => exact scramble_read_of_not_holds draw m (h c hc)

theorem abandonDec_read (draw : Nat) {d : Decoder} (m : Memory) {a : Nat}
    (h : ∀ c, d.call = some c → holds c.decOut a = false) : (abandonDec draw d m).read a = m.read a := by
  unfold abandonDec
  split
  · rfl
  · next c hc => exact scramble_read_of_not_holds draw m (h c hc)

theorem abandonDecs_read (draw : Nat) {ds : List Decoder} (m : Memory) {a : Nat}
    (h : ∀ d ∈ ds, ∀ c, d.call = some c → holds c.decOut a = false) : (abandonDecs draw ds m).read a = m.read a := by
  induction ds generalizing draw m with
  | nil => rfl
  | cons d ds ih =>
    obtain ⟨hd, hds⟩ := List.forall_mem_cons.mp h
    exact (ih (draw + 1) _ hds).trans (abandonDec_read draw m hd)

theorem hardReset_allIdle (s : State) : allIdle (hardReset s) = true :=
  allIdle_iff.mpr ⟨rfl, fun _ hd => call_of_mem_freshDecs hd⟩

/-- Settles O45: the reset makes every unit afresh, and it fills none but the output windows of the commands it abandons. -/
theorem hardwareResetAbandonsCommands : Obligations.HardwareResetAbandonsCommands := by
  intro s rest hh
  have hstep : step s = .next (hardReset { s with host := rest }) := by simp only [step, hh, act]
  refine ⟨_, hstep, rfl, rfl, hardReset_allIdle _, length_freshDecs _ _, fun d hd => ?_, fun a henc hdecs => ?_⟩
  · obtain ⟨draw, rfl⟩ := exists_eq_decFresh_of_mem_freshDecs hd
    exact decFresh_esc draw
  · calc (hardReset { s with host := rest }).mem.read a
      _ = (abandonEnc s.draws s.enc s.mem).read a := abandonDecs_read _ _ hdecs
      _ = s.mem.read a := abandonEnc_read _ _ henc

/-! ## Windows that overlap -/

/-- Windows that share a byte with each other or with a lent window are not apart (20_memory R44). -/
theorem disjointWindows_eq_false_of_shared {i o : Buffer} {s : State} {a : Nat}
    (h : (holds i a = true ∧ holds o a = true) ∨
      ∃ b ∈ lent s, holds b a = true ∧ (holds i a = true ∨ holds o a = true)) :
    disjointWindows i o s = false := by
  refine Bool.eq_false_iff.mpr fun hdis => ?_
  simp only [disjointWindows, Bool.and_eq_true, List.all_eq_true, Bool.not_eq_true'] at hdis
  obtain ⟨hown, hlent⟩ := hdis
  rcases h with ⟨hi, ho⟩ | ⟨b, hb, hba, hi | ho⟩
  · exact not_holds_of_apart hown hi ho
  · exact not_holds_of_apart (hlent b hb).1 hba hi
  · exact not_holds_of_apart (hlent b hb).2 hba ho

/-- The windows are looked at when the unit is idle and the lengths fit. -/
theorem objection_of_overlap {i o : Buffer} {s : State} (hi : fits s.params i.len = true) (ho : fits s.params o.len = true)
    (h : disjointWindows i o s = false) : objection false i o s = some .buffersOverlap := by
  simp [objection, hi, ho, h]

/-- Settles O48: both commands begin with `objection`. -/
theorem overlappingWindowsAreRefused : Obligations.OverlappingWindowsAreRefused := by
  refine ⟨fun s p o a hidle hp ho h => ?_, fun s k a d c o hd hidle hc ho h => ?_⟩
  · have hno := objection_of_overlap hp ho (disjointWindows_eq_false_of_shared h)
    simp [exec, execEncode, onEncoder, hidle, hno]
  · have hno := objection_of_overlap hc ho (disjointWindows_eq_false_of_shared h)
    simp [exec, execDecode, onDecoder, hd, hidle, hno]

/-! ## A host write -/

theorem hostStore_of_lent {s : State} {a : Nat} (v : Byte) (h : ∃ b ∈ lent s, holds b a = true) :
    hostStore a v s = .refused .lentBufferTouched :=
  if_pos (List.any_eq_true.mpr h)

theorem hostStore_of_not_lent {s : State} {a : Nat} (v : Byte) (h : ∀ b ∈ lent s, holds b a = false) :
    hostStore a v s = .next { s with mem := s.mem.write a v } :=
  if_neg (by simpa using h)

/-- Settles O49: the step is the write, which looks at the windows that are lent. -/
theorem hostWritesOnlyItsOwnBuffers : Obligations.HostWritesOnlyItsOwnBuffers := by
  intro s a v rest hh
  have hstep : step s = hostStore a v { s with host := rest } := by simp only [step, hh, act]
  exact ⟨fun h => hstep.trans (hostStore_of_lent v h), fun h => hstep.trans (hostStore_of_not_lent v h)⟩

end Sys2Proof.Machine
end
